-- ==== Sys2Proof/Word.lean ====
section
/-! DEFINITION. The words of EPDC (00_scope.md R12): bytes, the 9-bit wire symbol (R90), the 4-bit operation select (R93).
Every other number of this hardware is an unbounded natural number (R12, R217). -/

namespace Sys2Proof

/-- A byte, bit 7 the most significant (R12). -/
abbrev Byte := BitVec 8

/-- What the panel receives for one byte: bit 8 is the level of the data/command line, bits 7 to 0 the byte (R90). -/
abbrev Symbol := BitVec 9

/-- The operation select of a host request (R93). -/
abbrev Opsel := BitVec 4

end Sys2Proof
end

