-- ==== Sys2Proof/Syntax.lean ====
section
/-! DEFINITION. The vocabulary of EPDC: pins and levels, modes, wire opcodes, operands of a request, the step kinds of the
sequencer, and `Instr`, one constructor for each row of spec/opcode_table.json. -/

namespace Sys2Proof

/-- The level of a line: 0 is low, 1 is high (R105). -/
inductive Level where
  | low
  | high
deriving DecidableEq, Repr, Inhabited

/-- The four logical pins, a closed enumeration (R105, R120). Chip-select is not among them (R32). -/
inductive Pin where
  | rst
  | dc
  | busy
  | pwr
deriving DecidableEq, Repr

/-- The active mode of a powered-on controller (R22). -/
inductive Mode where
  | full
  | fast
  | part
deriving DecidableEq, Repr

/-- Chip-select (R32). -/
inductive ChipSelect where
  | asserted
  | deasserted
deriving DecidableEq, Repr, Inhabited

/-- The environment's answer to one bus transfer (R132): it completes, or it fails after some bytes. -/
inductive Transfer where
  | completes
  | failsAfter (k : Nat)
deriving DecidableEq, Repr, Inhabited

/-- The direction of the 90 degree rotation of a transposed image (R11, R194). -/
inductive RotDir where
  | counterClockwise
  | clockwise
deriving DecidableEq, Repr

/-- The 18 wire opcodes, the complete set EPDC can emit (R94, R238). -/
inductive Opcode where
  | panelSetting
  | powerSetting
  | powerOff
  | powerOn
  | boosterSoftStart
  | deepSleep
  | oldImageData
  | displayRefresh
  | newImageData
  | vcomDc
  | vcomDataInterval
  | tconSetting
  | resolution
  | statusQuery
  | partialWindow
  | partialIn
  | crossRefE0
  | crossRefE5
deriving DecidableEq, Repr

/-- A window in pixel coordinates, starts inclusive and ends exclusive (R34, R210). -/
structure Window where
  xs : Nat
  xe : Nat
  ys : Nat
  ye : Nat
deriving DecidableEq, Repr

/-- The image operand of ENCODE: width, height and luminance samples in row-major order (R34, R191). -/
structure Image where
  iw  : Nat
  ih  : Nat
  pix : List Byte
deriving DecidableEq, Repr

/-- The kinds of step a host operation is made of (R151). -/
inductive Step where
  | openBus
  | pin (p : Pin) (l : Level)
  | wait (ms : Nat)
  | cmd (op : Opcode)
  | dat (b : Byte)
  | bulk (bytes : List Byte)
  | busy
  | closeBus
deriving DecidableEq, Repr

/-- One constructor for each row of spec/opcode_table.json: the 18 command symbols and the data symbol (R90, R94), the
eight host operations with their operands (R93), and the reserved range of OPSEL, whose constructor holds the three low
bits (R100). -/
inductive Instr where
  | panelSetting
  | powerSetting
  | powerOff
  | powerOn
  | boosterSoftStart
  | deepSleep
  | oldImageData
  | displayRefresh
  | newImageData
  | vcomDc
  | vcomDataInterval
  | tconSetting
  | resolution
  | statusQuery
  | partialWindow
  | partialIn
  | crossRefE0
  | crossRefE5
  | data (b : Byte)
  | init
  | initFast
  | initPart
  | display (buf : List Byte)
  | displayPartial (buf : List Byte) (win : Window)
  | clear
  | sleep
  | encode (img : Image)
  | reservedOpsel (low : BitVec 3)
deriving DecidableEq, Repr

/-- A host request: the operation select and the operand fields (R34, R93). An operation reads only its own fields. -/
structure Request where
  opsel : Opsel
  buf   : List Byte
  win   : Window
  img   : Image
deriving DecidableEq, Repr

/-- What the decoder reads: a host request (R150), or one wire symbol given to the Command Protocol directly, as a test of
a component does (R126, R137; log entry 3). The host itself issues requests alone (R39). -/
inductive Call where
  | request (r : Request)
  | symbol (w : Symbol)
deriving DecidableEq, Repr

/-- Why a call is not an instruction: a command symbol whose byte is none of the 18 opcodes (R99), or an ENCODE request
whose image does not hold `iw * ih` samples (R191). -/
inductive DecodeError where
  | unlistedOpcode (b : Byte)
  | imageShape
deriving DecidableEq, Repr

end Sys2Proof
end

