-- ==== Sys2Proof/Config.lean ====
section
/-! DEFINITION. What an implementation fixes: the fixed times (R9), the parameters (R8, R10, R11) as the plain data
`Params`, and the constants without a body that stand for what the spec leaves open. -/

namespace Sys2Proof

/-- The four payload bytes of the booster soft-start (R10, R97). -/
structure Booster where
  b0 : Byte
  b1 : Byte
  b2 : Byte
  b3 : Byte
deriving DecidableEq, Repr, Inhabited

/-- The parameters of R10 and R11 that a rule reads. They are constant (R37); they stand in `State.cfg` so that a statement
about every state is a statement about every value of them (log entry 2). -/
structure Params where
  btstFull      : Booster
  btstFast      : Booster
  btstPart      : Booster
  cre0Fast      : Byte
  cre5Fast      : Byte
  cre0Part      : Byte
  cre5Part      : Byte
  initFull      : List Step
  initFast      : List Step
  initPart      : List Step
  pollDelayMs   : Nat
  busyPollLimit : Option Nat
  busId         : Nat
  deviceId      : Nat
  threshold     : Nat
  rotDir        : RotDir
  clearOldFill  : Byte
  clearNewFill  : Byte
deriving DecidableEq, Repr

/-- `INIT_SEQ[m]` (R10, R157). -/
def Params.initSeq (p : Params) : Mode → List Step
  | .full => p.initFull
  | .fast => p.initFast
  | .part => p.initPart

/-- The booster payload of a mode (R97). -/
def Params.btst (p : Params) : Mode → Booster
  | .full => p.btstFull
  | .fast => p.btstFast
  | .part => p.btstPart

namespace Config

/-- The reference instance is 800 by 480 (R8; log entry 1). -/
def width : BitVec 16 := 800
def height : BitVec 16 := 480

/-- Fixed times in milliseconds (R9). -/
def tRstA : Nat := 20
def tRstB : Nat := 2
def tRstC : Nat := 20
def tSettle : Nat := 100
def tReady : Nat := 20
def tDeep : Nat := 2000

/-- Open parameters: no source gives their value (R10, D7, D9, D28; log entry 2). -/
opaque btstFull : Booster
opaque btstFast : Booster
opaque btstPart : Booster
opaque cre0Fast : Byte
opaque cre5Fast : Byte
opaque cre0Part : Byte
opaque cre5Part : Byte
opaque pollDelayMs : Nat
opaque busId : Nat
opaque deviceId : Nat

/-- Decided parameters (R11). -/
def threshold : Nat := 128
def rotDir : RotDir := .counterClockwise
def clearOldFill : Byte := 0xFF
def clearNewFill : Byte := 0x00

/-- The nominal bus clock in hertz (R11, R138). No rule depends on it. -/
def spiHz : Nat := 4000000

/-- The environment's answers where a state scripts none (R16; log entry 4), by the number of answers already taken. -/
opaque openAnswer : Nat → Bool
opaque transferAnswer : Nat → Transfer
opaque busyAnswer : Nat → Level

/-- The chip-select after a mid-sequence fault, which is unspecified (R262, U10; log entry 7). -/
opaque csAfterFault : Nat → ChipSelect

end Config

end Sys2Proof
end

