-- ==== Sys2Proof/Machine/Operands.lean ====
section
/-! DEFINITION. The operand forms: frame-buffer geometry (R8), byte halves (R95), reads of an operand space (R61, R62),
the pixel layout (R61, R64), windows (R161) and the bytes a partial refresh reads (R79, R162). -/

namespace Sys2Proof

/-- `STRIDE = ceil(W / 8)` (R8). -/
def strideOf (w : Nat) : Nat := (w + 7) / 8

/-- `N = STRIDE * H` (R8). -/
def planeLen (w h : Nat) : Nat := strideOf w * h

/-- The high byte of a 16-bit value, `v div 256` (R95). -/
def hi8 (v : Nat) : Byte := BitVec.ofNat 8 (v / 256)

/-- The low byte of a 16-bit value, `v mod 256` (R95). -/
def lo8 (v : Nat) : Byte := BitVec.ofNat 8 (v % 256)

/-- `MemRead(space, i, 1)` on an operand space held as a list (R61, R62); nothing beyond its end. -/
def memRead (space : List Byte) (i : Nat) : Option Byte := space[i]?

/-- The complement of every byte of a plane (R160, R217 (e)). -/
def complement (plane : List Byte) : List Byte := plane.map (fun b => ~~~b)

/-- The bit of pixel `(x, y)` in a frame buffer of a panel `w` pixels wide (R61): 0 is white, 1 is black (R64). -/
def pixelBit (w : Nat) (buf : List Byte) (x y : Nat) : Option Bool :=
  (memRead buf (y * strideOf w + x / 8)).map (fun b => b.getLsbD (7 - x % 8))

/-- Validity of a partial window (R161). -/
def windowValid (w h : Nat) (win : Window) : Bool :=
  decide (win.xs < win.xe ∧ win.xe ≤ w ∧ win.ys < win.ye ∧ win.ye ≤ h)

/-- `wb`, the width of a quantized window in bytes (R210). -/
def windowBytes (q : Window) : Nat := (q.xe - q.xs) / 8

/-- `h`, the height of a window in rows (R210). -/
def windowRows (q : Window) : Nat := q.ye - q.ys

/-- The nine payload bytes of opcode 0x90 for a quantized window (R103). -/
def windowPayload (q : Window) : List Byte :=
  [hi8 q.xs, lo8 q.xs, hi8 (q.xe - 1), lo8 (q.xe - 1), hi8 q.ys, lo8 q.ys, hi8 (q.ye - 1), lo8 (q.ye - 1), 0x01]

/-- The address in BUF of byte `i` of row `j` of a quantized window (R79 (b)). -/
def windowIndex (w : Nat) (q : Window) (j i : Nat) : Nat := (q.ys + j) * strideOf w + q.xs / 8 + i

/-- The complemented bytes of a quantized window, row by row (R162). -/
def windowPlane (w : Nat) (buf : List Byte) (q : Window) : List Byte :=
  (List.range (windowRows q)).flatMap fun j =>
    (List.range (windowBytes q)).filterMap fun i => (memRead buf (windowIndex w q j i)).map (fun b => ~~~b)

/-- The payload of opcode 0x61 (R104). -/
def resolutionPayload (w h : Nat) : List Byte := [hi8 w, lo8 w, hi8 h, lo8 h]

end Sys2Proof
end

