-- ==== Sys2Proof/WellFormed.lean ====
section
/-! DEFINITION. Which instructions are well formed (the image operand, R191) and which parameters are (R8, R10, R165, and
for the initialisation sequences R172, with R97 and R236). -/

namespace Sys2Proof

/-- An image holds exactly `iw * ih` samples (R191). -/
def Image.wf (img : Image) : Bool := img.pix.length == img.iw * img.ih

/-- Well-formed instructions: ENCODE's image must have its samples; every other operand is checked by the operation itself
(R155) or has no ill-formed value. -/
def Instr.wf : Instr → Bool
  | .panelSetting => true
  | .powerSetting => true
  | .powerOff => true
  | .powerOn => true
  | .boosterSoftStart => true
  | .deepSleep => true
  | .oldImageData => true
  | .displayRefresh => true
  | .newImageData => true
  | .vcomDc => true
  | .vcomDataInterval => true
  | .tconSetting => true
  | .resolution => true
  | .statusQuery => true
  | .partialWindow => true
  | .partialIn => true
  | .crossRefE0 => true
  | .crossRefE5 => true
  | .data _ => true
  | .init => true
  | .initFast => true
  | .initPart => true
  | .display _ => true
  | .displayPartial _ _ => true
  | .clear => true
  | .sleep => true
  | .encode img => img.wf
  | .reservedOpsel _ => true

/-- The geometry of a panel: both sizes are 1 to 65535 (R8); the upper bound is the width of the fields. -/
def geometryWf (w h : BitVec 16) : Bool := decide (1 ≤ w.toNat ∧ 1 ≤ h.toNat)

/-- R172 (a): the step kinds an initialisation sequence may hold. -/
def Step.isSetting : Step → Bool
  | .cmd _ => true
  | .dat _ => true
  | .wait _ => true
  | .busy => true
  | .openBus => false
  | .pin _ _ => false
  | .bulk _ => false
  | .closeBus => false

/-- R172 (b): the opcodes an initialisation sequence may send. -/
def Opcode.isSetting : Opcode → Bool
  | .panelSetting => true
  | .powerSetting => true
  | .powerOn => true
  | .boosterSoftStart => true
  | .vcomDc => true
  | .vcomDataInterval => true
  | .tconSetting => true
  | .resolution => true
  | .crossRefE0 => true
  | .crossRefE5 => true
  | .powerOff => false
  | .deepSleep => false
  | .oldImageData => false
  | .displayRefresh => false
  | .newImageData => false
  | .statusQuery => false
  | .partialWindow => false
  | .partialIn => false

/-- The bytes of the `Dat` steps that stand first in a list. -/
def leadingData : List Step → List Byte
  | .dat b :: rest => b :: leadingData rest
  | _ => []

/-- R172 (c): whether these are the payload bytes of a setting opcode in mode `m`, fixed by R96, R97 and R104.
DESIGN CHOICE (log entry 17): of the two payloads of 0x50 that R96 and R230 label "(full)" and "(partial)" either one is taken
in every mode, also `A9 07` in Full, since R172 does not tie them to the mode. -/
def settingPayload (p : Params) (m : Mode) (w h : Nat) (bytes : List Byte) : Opcode → Bool
  | .panelSetting => bytes == [0x1F]
  | .powerSetting => bytes == [0x07, 0x07, 0x3F, 0x3F]
  | .powerOn => bytes == []
  | .boosterSoftStart => bytes == [(p.btst m).b0, (p.btst m).b1, (p.btst m).b2, (p.btst m).b3]
  | .vcomDc => bytes == [0x00]
  | .vcomDataInterval => bytes == [0x10, 0x07] || bytes == [0xA9, 0x07]
  | .tconSetting => bytes == [0x22]
  | .resolution => bytes == resolutionPayload w h
  | .crossRefE0 => bytes == [match m with | .part => p.cre0Part | _ => p.cre0Fast]
  | .crossRefE5 => bytes == [match m with | .part => p.cre5Part | _ => p.cre5Fast]
  | .powerOff | .deepSleep | .oldImageData | .displayRefresh | .newImageData | .statusQuery | .partialWindow
  | .partialIn => false

/-- R172 (b), (c): every command is a setting with its own payload after it, and no data byte stands anywhere else. The
flag says whether the step before was a command or a data byte. -/
def payloadsOk (p : Params) (m : Mode) (w h : Nat) : Bool → List Step → Bool
  | _, [] => true
  | _, .cmd op :: rest =>
    op.isSetting && settingPayload p m w h (leadingData rest) op && payloadsOk p m w h true rest
  | inFrame, .dat _ :: rest => inFrame && payloadsOk p m w h inFrame rest
  | _, .wait _ :: rest => payloadsOk p m w h false rest
  | _, .busy :: rest => payloadsOk p m w h false rest
  | _, .openBus :: _ => false
  | _, .pin _ _ :: _ => false
  | _, .bulk _ :: _ => false
  | _, .closeBus :: _ => false

/-- R172 (f): the step after each POWER_ON is a busy-wait. -/
def powerOnThenBusy : List Step → Bool
  | .cmd .powerOn :: rest => rest.head? == some .busy && powerOnThenBusy rest
  | _ :: rest => powerOnThenBusy rest
  | [] => true

/-- What every initialisation sequence satisfies: R172 (a) to (f), and in Full no cross-reference opcode (R236). -/
def initSeqWf (p : Params) (m : Mode) (w h : Nat) (l : List Step) : Bool :=
  l.all Step.isSetting && payloadsOk p m w h false l
    && l.contains (.cmd .boosterSoftStart) && l.contains (.cmd .powerSetting)
    && l.contains (.cmd .panelSetting) && l.contains (.cmd .vcomDataInterval)
    && (match m with
        | .full => !l.contains (.cmd .crossRefE0) && !l.contains (.cmd .crossRefE5)
        | .fast | .part => l.contains (.cmd .crossRefE0) && l.contains (.cmd .crossRefE5))
    && l.count (.cmd .powerOn) == 1 && powerOnThenBusy l

/-- Well-formed parameters for a panel of `w` by `h` pixels: the three sequences (R172), a poll limit of at least 1 when
set (R10), and fill bytes of CLEAR that are complements (R165). -/
def Params.wf (p : Params) (w h : Nat) : Bool :=
  initSeqWf p .full w h p.initFull && initSeqWf p .fast w h p.initFast && initSeqWf p .part w h p.initPart
    && (match p.busyPollLimit with | none => true | some l => decide (1 ≤ l))
    && p.clearOldFill == ~~~p.clearNewFill

end Sys2Proof
end

