-- ==== Sys2Proof/Decode.lean ====
section
/-! DEFINITION. The decoder, total on every wire symbol and every request and rejecting by name, and after it the encoder,
written from the same tables (R90, R93, R94, R100). -/

namespace Sys2Proof

/-- The byte of each wire opcode (R94). -/
def Opcode.byte : Opcode → Byte
  | .panelSetting => 0x00
  | .powerSetting => 0x01
  | .powerOff => 0x02
  | .powerOn => 0x04
  | .boosterSoftStart => 0x06
  | .deepSleep => 0x07
  | .oldImageData => 0x10
  | .displayRefresh => 0x12
  | .newImageData => 0x13
  | .vcomDc => 0x15
  | .vcomDataInterval => 0x50
  | .tconSetting => 0x60
  | .resolution => 0x61
  | .statusQuery => 0x71
  | .partialWindow => 0x90
  | .partialIn => 0x91
  | .crossRefE0 => 0xE0
  | .crossRefE5 => 0xE5

/-- The command symbol that a byte is, or the refusal of the 238 unlisted values (R94, R99). -/
def decodeCommand (b : Byte) : Except DecodeError Instr :=
  match b.toNat with
  | 0x00 => .ok .panelSetting
  | 0x01 => .ok .powerSetting
  | 0x02 => .ok .powerOff
  | 0x04 => .ok .powerOn
  | 0x06 => .ok .boosterSoftStart
  | 0x07 => .ok .deepSleep
  | 0x10 => .ok .oldImageData
  | 0x12 => .ok .displayRefresh
  | 0x13 => .ok .newImageData
  | 0x15 => .ok .vcomDc
  | 0x50 => .ok .vcomDataInterval
  | 0x60 => .ok .tconSetting
  | 0x61 => .ok .resolution
  | 0x71 => .ok .statusQuery
  | 0x90 => .ok .partialWindow
  | 0x91 => .ok .partialIn
  | 0xE0 => .ok .crossRefE0
  | 0xE5 => .ok .crossRefE5
  | _ => .error (.unlistedOpcode b)

/-- A wire symbol: bit 8 clear is a command, bit 8 set is data (R90). -/
def decodeSymbol (w : Symbol) : Except DecodeError Instr :=
  if w.getLsbD 8 then .ok (.data (w.setWidth 8)) else decodeCommand (w.setWidth 8)

/-- A host request: OPSEL selects the operation, which takes its own operand fields (R93); 8 to 15 are reserved (R100). -/
def decodeRequest (r : Request) : Except DecodeError Instr :=
  match r.opsel.toNat with
  | 0 => .ok .init
  | 1 => .ok .initFast
  | 2 => .ok .initPart
  | 3 => .ok (.display r.buf)
  | 4 => .ok (.displayPartial r.buf r.win)
  | 5 => .ok .clear
  | 6 => .ok .sleep
  | 7 => if r.img.wf then .ok (.encode r.img) else .error .imageShape
  | _ => .ok (.reservedOpsel (r.opsel.setWidth 3))

/-- The instruction a call is. -/
def decode : Call → Except DecodeError Instr
  | .request r => decodeRequest r
  | .symbol w => decodeSymbol w

/-- A request with every operand field empty. -/
def emptyRequest (opsel : Opsel) : Request :=
  { opsel := opsel, buf := [], win := { xs := 0, xe := 0, ys := 0, ye := 0 }, img := { iw := 0, ih := 0, pix := [] } }

/-- The command symbol of an opcode: `0 oooooooo` (R90, R91). -/
def commandSymbol (op : Opcode) : Symbol := op.byte.setWidth 9

/-- The data symbol of a byte: `1 bbbbbbbb` (R90, R92). -/
def dataSymbol (b : Byte) : Symbol := 0x100 ||| b.setWidth 9

/-- The call that stands for an instruction; fields the operation does not read are empty. -/
def encode : Instr → Call
  | .panelSetting => .symbol (commandSymbol .panelSetting)
  | .powerSetting => .symbol (commandSymbol .powerSetting)
  | .powerOff => .symbol (commandSymbol .powerOff)
  | .powerOn => .symbol (commandSymbol .powerOn)
  | .boosterSoftStart => .symbol (commandSymbol .boosterSoftStart)
  | .deepSleep => .symbol (commandSymbol .deepSleep)
  | .oldImageData => .symbol (commandSymbol .oldImageData)
  | .displayRefresh => .symbol (commandSymbol .displayRefresh)
  | .newImageData => .symbol (commandSymbol .newImageData)
  | .vcomDc => .symbol (commandSymbol .vcomDc)
  | .vcomDataInterval => .symbol (commandSymbol .vcomDataInterval)
  | .tconSetting => .symbol (commandSymbol .tconSetting)
  | .resolution => .symbol (commandSymbol .resolution)
  | .statusQuery => .symbol (commandSymbol .statusQuery)
  | .partialWindow => .symbol (commandSymbol .partialWindow)
  | .partialIn => .symbol (commandSymbol .partialIn)
  | .crossRefE0 => .symbol (commandSymbol .crossRefE0)
  | .crossRefE5 => .symbol (commandSymbol .crossRefE5)
  | .data b => .symbol (dataSymbol b)
  | .init => .request (emptyRequest 0)
  | .initFast => .request (emptyRequest 1)
  | .initPart => .request (emptyRequest 2)
  | .display buf => .request { emptyRequest 3 with buf := buf }
  | .displayPartial buf win => .request { emptyRequest 4 with buf := buf, win := win }
  | .clear => .request (emptyRequest 5)
  | .sleep => .request (emptyRequest 6)
  | .encode img => .request { emptyRequest 7 with img := img }
  | .reservedOpsel low => .request (emptyRequest (0x8 ||| low.setWidth 4))

/-- The call whose bits, in the opcode table's numbering, are `w`: a row of at most 8 bits is a host request (OPSEL in the
four low bits, every operand empty), a longer row a wire symbol (the nine low bits). -/
def tableCall (nbits w : Nat) : Call :=
  if nbits ≤ 8 then .request (emptyRequest (BitVec.ofNat 4 w)) else .symbol (BitVec.ofNat 9 w)

/-- The instruction the decoder reads from an instruction whose bits are `w`. -/
def decodeTableWord (nbits w : Nat) : Option Instr :=
  match decode (tableCall nbits w) with
  | .ok i => some i
  | .error _ => none

end Sys2Proof
end

