-- ==== Sys2Proof/Machine/InitSeq.lean ====
section
/-! DEFINITION. The default initialisation sequences (R157) and the parameters of a freshly constructed controller. -/

namespace Sys2Proof

/-- An opcode with its payload: one command step and one data step for each byte (R70). -/
def setting (op : Opcode) (payload : List Byte) : List Step := .cmd op :: payload.map .dat

/-- The four booster bytes as a payload. -/
def boosterPayload (b : Booster) : List Byte := [b.b0, b.b1, b.b2, b.b3]

/-- `INIT_SEQ[Full]` by default (R157). -/
def defaultInitFull (w h : Nat) (boost : Booster) : List Step :=
  setting .boosterSoftStart (boosterPayload boost) ++ setting .powerSetting [0x07, 0x07, 0x3F, 0x3F]
    ++ setting .panelSetting [0x1F] ++ setting .resolution (resolutionPayload w h) ++ setting .vcomDc [0x00]
    ++ setting .vcomDataInterval [0x10, 0x07] ++ setting .tconSetting [0x22] ++ [.cmd .powerOn, .busy]

/-- `INIT_SEQ[Fast]` by default (R157). -/
def defaultInitFast (boost : Booster) (e0 e5 : Byte) : List Step :=
  setting .boosterSoftStart (boosterPayload boost) ++ setting .powerSetting [0x07, 0x07, 0x3F, 0x3F]
    ++ setting .panelSetting [0x1F] ++ setting .vcomDataInterval [0x10, 0x07]
    ++ setting .crossRefE0 [e0] ++ setting .crossRefE5 [e5] ++ [.cmd .powerOn, .busy]

/-- `INIT_SEQ[Partial]` by default (R157). -/
def defaultInitPart (boost : Booster) (e0 e5 : Byte) : List Step :=
  setting .boosterSoftStart (boosterPayload boost) ++ setting .powerSetting [0x07, 0x07, 0x3F, 0x3F]
    ++ setting .panelSetting [0x1F] ++ setting .vcomDataInterval [0xA9, 0x07]
    ++ setting .crossRefE0 [e0] ++ setting .crossRefE5 [e5] ++ [.cmd .powerOn, .busy]

/-- Parameters with the default sequences for a panel of `w` by `h` pixels, no poll limit (R10) and the decided values of
R11, over the open bytes and the poll delay. -/
def defaultParams (w h : Nat) (full fast part : Booster) (e0f e5f e0p e5p : Byte) (pollDelayMs busId deviceId : Nat) :
    Params where
  btstFull := full
  btstFast := fast
  btstPart := part
  cre0Fast := e0f
  cre5Fast := e5f
  cre0Part := e0p
  cre5Part := e5p
  initFull := defaultInitFull w h full
  initFast := defaultInitFast fast e0f e5f
  initPart := defaultInitPart part e0p e5p
  pollDelayMs := pollDelayMs
  busyPollLimit := none
  busId := busId
  deviceId := deviceId
  threshold := Config.threshold
  rotDir := Config.rotDir
  clearOldFill := Config.clearOldFill
  clearNewFill := Config.clearNewFill

/-- The parameters of the reference instance, its open values constants without a body (R8, R10, R11). -/
def referenceParams : Params :=
  defaultParams Config.width.toNat Config.height.toNat Config.btstFull Config.btstFast Config.btstPart Config.cre0Fast
    Config.cre5Fast Config.cre0Part Config.cre5Part Config.pollDelayMs Config.busId Config.deviceId

end Sys2Proof
end

