-- ==== Sys2Proof/Machine/State.lean ====
section
/-! DEFINITION. The state of EPDC as plain data (10_state.md), the ways the machine stops, and the state after construction
(R40, R290). -/

namespace Sys2Proof.Machine

/-- Why the machine stops with a fault. -/
inductive Fault where
  /-- Raised by ENCODE on an image that does not hold `iw * ih` samples: its samples would be read past their end (R62,
  R79, R191). Safe: no request is such an image, and the decoder refuses it. -/
  | sampleOutOfRange
deriving DecidableEq, Repr

/-- Why the machine gives no meaning. -/
inductive Refusal where
  /-- Raised by an arm of `exec` whose instruction has no meaning yet. Safe. -/
  | notModelled (mnemonic : String)
  /-- Raised by `step` on a call that is not an instruction: an unlisted command symbol (R99) or an image with a wrong
  number of samples (R191). Safe: no rule sends the one, and the other is no request. -/
  | undecodable (why : DecodeError)
  /-- Raised by a host operation whose step list opens a bus that is not `NeverOpened` (R131, U6). Safe: no state that a
  run reaches does this. -/
  | openUndescribed
  /-- Raised by every meaning when an operation is in progress (R300, U9). The spec says that this errs toward proving:
  real hardware would interleave. -/
  | requestWhileRunning
deriving DecidableEq, Repr

/-- LIFE (R21). -/
inductive Life where
  | uninitialized
  | poweredOn
  | sleeping
deriving DecidableEq, Repr

/-- The state of the serial link (R31). -/
inductive BusState where
  | neverOpened
  | opened
  | closed
deriving DecidableEq, Repr

/-- An output latch (R29): `u` until the line is first driven, then the last level driven. -/
inductive Latch where
  | u
  | driven (l : Level)
deriving DecidableEq, Repr

/-- An event of the trace (R15). -/
inductive Event where
  | opened (ok : Bool)
  | closed
  | pinWritten (p : Pin) (l : Level)
  | busyRead (l : Level)
  | delayed (ms : Nat)
  | csAsserted
  | csDeasserted
  | sent (bytes : List Byte)
deriving DecidableEq, Repr

/-- What failed in a refused request (R253 to R255). -/
inductive Violation where
  | badState
  | badLength
  | badWindow
deriving DecidableEq, Repr

/-- The status of a reply, with its `info` (R250). -/
inductive Status where
  | ok
  | busOpenFailure
  | preconditionViolation (why : Violation)
  | busIOFailure
  | busyTimeout
  | invalidPinRole (p : Pin)
  | notOpen
  | invalidOp (opsel : Opsel)
  | poisoned
deriving DecidableEq, Repr

/-- A reply (R35): a status alone, or ENCODE's `OK` with `warn` and `out`. -/
inductive Reply where
  | status (st : Status)
  | encoded (warn : Bool) (out : List Byte)
deriving DecidableEq, Repr

/-- The host operation in progress with its operands (R28, R34). ENCODE is not here: it emits no event (R190). -/
inductive Task where
  | init (m : Mode)
  | display (buf : List Byte)
  | displayPartial (buf : List Byte) (win : Window)
  | clear
  | sleep
deriving DecidableEq, Repr

/-- SEQ (R28): idle, or the operation in progress and the index of its next step. -/
inductive Seq where
  | idle
  | running (task : Task) (k : Nat)
deriving DecidableEq, Repr

/-- The answers of the environment to one kind of question (R16; log entry 4), the model's own data: first those of the
script, then `rest` for ever, or, where `rest` is none, free ones. `drawn` counts the answers taken. -/
structure Answers (α : Type) where
  script : List α
  rest   : Option α
  drawn  : Nat
deriving DecidableEq, Repr

/-- The environment's three kinds of answers (R16). -/
structure Environment where
  opens     : Answers Bool
  transfers : Answers Transfer
  busy      : Answers Level
deriving DecidableEq, Repr

/-- Everything the spec gives EPDC (R40), the interface to the host (R34, R35), the parameters (R10, R11), the
environment's answers (R16) and the counter of free chip-select levels (R262). The host has `inbox`, its requests, and no
other move (R39); `bench` is the model's own field: the wire symbols that a test of the Command Protocol, not the host, has
yet to hand to that component (R126, R137; log entry 3). -/
structure State where
  life     : Life
  mode     : Option Mode
  width    : BitVec 16
  height   : BitVec 16
  poisoned : Bool
  faults   : BitVec 9
  seq      : Seq
  polls    : Nat
  rst      : Latch
  dc       : Latch
  pwr      : Latch
  bus      : BusState
  cs       : ChipSelect
  trace    : List Event
  inbox    : List Request
  bench    : List Symbol
  replies  : List Reply
  cfg      : Params
  env      : Environment
  csDraws  : Nat
deriving DecidableEq, Repr

/-- Answers that are all free. -/
def Answers.free {α : Type} : Answers α := { script := [], rest := none, drawn := 0 }

/-- An environment whose every answer is free (R16). -/
def Environment.free : Environment := { opens := .free, transfers := .free, busy := .free }

/-- The machine right after construction (R40, R290), for the reference instance (R8). -/
def State.reset : State where
  life := .uninitialized
  mode := none
  width := Config.width
  height := Config.height
  poisoned := false
  faults := 0
  seq := .idle
  polls := 0
  rst := .u
  dc := .u
  pwr := .u
  bus := .neverOpened
  cs := .deasserted
  trace := []
  inbox := []
  bench := []
  replies := []
  cfg := referenceParams
  env := .free
  csDraws := 0

end Sys2Proof.Machine
end

