-- ==== Sys2Proof/Machine/Flags.lean ====
section
/-! DEFINITION. The flags: the numeric codes (R21, R22, R105, R250), the sticky set FAULTS (R25) and what sets POISONED
(R24, R251). EPDC has no arithmetic flag (R27). -/

namespace Sys2Proof.Machine

/-- The code of a status (R250). -/
def Status.code : Status → Nat
  | .ok => 0
  | .busOpenFailure => 1
  | .preconditionViolation _ => 2
  | .busIOFailure => 3
  | .busyTimeout => 4
  | .invalidPinRole _ => 5
  | .notOpen => 6
  | .invalidOp _ => 7
  | .poisoned => 8

/-- The code of LIFE, 2 bits (R21). -/
def Life.code : Life → BitVec 2
  | .uninitialized => 0
  | .poweredOn => 1
  | .sleeping => 2

/-- The code of a mode, 2 bits (R22). -/
def modeCode : Mode → BitVec 2
  | .full => 0
  | .fast => 1
  | .part => 2

/-- The code of a pin (R105, R120). -/
def pinCode : Pin → Nat
  | .rst => 0
  | .dc => 1
  | .busy => 2
  | .pwr => 3

/-- The sticky bit of a fault code in FAULTS (R25). -/
def faultBit (f : Status) : BitVec 9 := BitVec.twoPow 9 f.code

/-- FAULTS with the code of `f` added; nothing is ever removed (R25). -/
def addFault (f : Status) (faults : BitVec 9) : BitVec 9 := faults ||| faultBit f

/-- Whether FAULTS records the code of `f` (R25). -/
def hasFault (faults : BitVec 9) (f : Status) : Bool := faults.getLsbD f.code

/-- Whether a fault poisons: an event of the operation was emitted and the fault is not `BusOpenFailure` (R251). -/
def poisons (f : Status) (emitted : Bool) : Bool :=
  emitted && (match f with
    | .busOpenFailure => false
    | .ok | .preconditionViolation _ | .busIOFailure | .busyTimeout | .invalidPinRole _ | .notOpen | .invalidOp _
    | .poisoned => true)

end Sys2Proof.Machine
end

