-- ==== Sys2Proof/Machine/Trace.lean ====
section
/-! DEFINITION. Reading a trace (R15, R145): the level in force on the data/command line and the symbol trace. -/

namespace Sys2Proof.Machine

/-- The data/command level in force after an event (R145). -/
def dcAfter (dc : Latch) : Event → Latch
  | .pinWritten .dc l => .driven l
  | .pinWritten .rst _ => dc
  | .pinWritten .pwr _ => dc
  | .pinWritten .busy _ => dc
  | .opened _ => dc
  | .closed => dc
  | .busyRead _ => dc
  | .delayed _ => dc
  | .csAsserted => dc
  | .csDeasserted => dc
  | .sent _ => dc

/-- The bytes an event sends, each with the level in force (R15). -/
def symbolsOf (dc : Latch) : Event → List (Latch × Byte)
  | .sent bytes => bytes.map fun b => (dc, b)
  | .pinWritten _ _ => []
  | .opened _ => []
  | .closed => []
  | .busyRead _ => []
  | .delayed _ => []
  | .csAsserted => []
  | .csDeasserted => []

/-- The symbol trace of a list of events that starts with the level `dc` in force (R15, R145). -/
def symbolsFrom (dc : Latch) : List Event → List (Latch × Byte)
  | [] => []
  | e :: rest => symbolsOf dc e ++ symbolsFrom (dcAfter dc e) rest

/-- The symbol trace of a run: the line is undriven at construction (R29). -/
def symbolTrace (events : List Event) : List (Latch × Byte) := symbolsFrom .u events

/-- The command frame `C(op)` (R15, R91, R141). -/
def commandFrame (b : Byte) : List Event := [.pinWritten .dc .low, .csAsserted, .sent [b], .csDeasserted]

/-- The data frame `D(b)` or `B(bytes)` (R15, R92, R142, R143). -/
def dataFrame (bytes : List Byte) : List Event := [.pinWritten .dc .high, .csAsserted, .sent bytes, .csDeasserted]

end Sys2Proof.Machine
end

