-- ==== Sys2Proof/Machine/Ops.lean ====
section
/-! DEFINITION. The named operations over the state: the environment's answers (R16), the Pin Controller (40), the Serial
Bus (41), the Command Protocol (42), raising a fault (R251), the sequencer (R151) with its busy-wait (R153), and the acts of
the host outside a request (R23, R290). There is no return from a fault (R269). -/

namespace Sys2Proof.Machine

/-- How a primitive, a step or a macro ends: it is done, it is to be taken again (a busy sample was not ready, R153), or
it raised. A state that raised holds what had happened before. -/
inductive Turn where
  | done (s : State)
  | again (s : State)
  | raised (f : Status) (s : State)
deriving DecidableEq, Repr

/-- One primitive after another. -/
def Turn.andThen (t : Turn) (next : State → Turn) : Turn :=
  match t with
  | .done s => next s
  | .again s => .again s
  | .raised f s => .raised f s

/-- Emit an event (R15, R36). -/
def State.emit (s : State) (e : Event) : State := { s with trace := s.trace ++ [e] }

/-- Give a reply to the host (R35). -/
def State.answer (s : State) (r : Reply) : State := { s with replies := s.replies ++ [r] }

/-- `W` as a natural number (R8). -/
def State.w (s : State) : Nat := s.width.toNat

/-- `H` as a natural number (R8). -/
def State.h (s : State) : Nat := s.height.toNat

/-- The host's read of WIDTH, in any state and with no effect (R23, R169). -/
def readWidth (s : State) : Nat := s.w

/-- The host's read of HEIGHT (R23, R169). -/
def readHeight (s : State) : Nat := s.h

/-! ### The environment (R16) -/

/-- The next answer of a stream, `free` giving the ones that nothing determines. -/
def Answers.take {α : Type} (free : Nat → α) (a : Answers α) : α × Answers α :=
  match a.script with
  | x :: xs => (x, { a with script := xs, drawn := a.drawn + 1 })
  | [] => ((match a.rest with | some x => x | none => free a.drawn), { a with drawn := a.drawn + 1 })

/-- The outcome of a bus open. -/
def askOpen (s : State) : Bool × State :=
  let (ok, a) := s.env.opens.take Config.openAnswer
  (ok, { s with env := { s.env with opens := a } })

/-- The outcome of a bus transfer. -/
def askTransfer (s : State) : Transfer × State :=
  let (r, a) := s.env.transfers.take Config.transferAnswer
  (r, { s with env := { s.env with transfers := a } })

/-- The level of the busy line at one sample. -/
def askBusy (s : State) : Level × State :=
  let (l, a) := s.env.busy.take Config.busyAnswer
  (l, { s with env := { s.env with busy := a } })

/-! ### Pin Controller (40_pin_controller.md) -/

/-- `PinWrite(p, l)` (R122). -/
def pinWrite (p : Pin) (l : Level) (s : State) : Turn :=
  match p with
  | .rst => .done (State.emit { s with rst := .driven l } (.pinWritten .rst l))
  | .dc => .done (State.emit { s with dc := .driven l } (.pinWritten .dc l))
  | .pwr => .done (State.emit { s with pwr := .driven l } (.pinWritten .pwr l))
  | .busy => .raised (.invalidPinRole .busy) s

/-- `PinRead(p)` (R123): the level read, or the role error. -/
def pinRead (p : Pin) (s : State) : Except Status (Level × State) :=
  match p with
  | .busy => let (l, s') := askBusy s; .ok (l, s'.emit (.busyRead l))
  | .rst => .error (.invalidPinRole .rst)
  | .dc => .error (.invalidPinRole .dc)
  | .pwr => .error (.invalidPinRole .pwr)

/-- `Delay(ms)` (R124). -/
def delay (ms : Nat) (s : State) : Turn := .done (s.emit (.delayed ms))

/-! ### Serial Bus (41_serial_bus.md) -/

/-- `BusOpen(b, d)` on a bus that is `NeverOpened` (R131); the sequencer checks that it is (`openDescribed`). No rule
depends on the identifiers (R10). -/
def busOpen (_busId _deviceId : Nat) (s : State) : Bool × State :=
  let (ok, s') := askOpen s
  (ok, State.emit { s' with bus := if ok then .opened else s'.bus } (.opened ok))

/-- The bytes of a failed transfer that left: a proper first part of them, `k` long where that is one (R132, R136, U8). -/
def sentPart (k : Nat) (bytes : List Byte) : List Byte := bytes.take (min k (bytes.length - 1))

/-- `BusWrite(bytes)` (R132). -/
def busWrite (bytes : List Byte) (s : State) : Turn :=
  if s.bus = .opened then
    match askTransfer s with
    | (.completes, s') => .done (s'.emit (.sent bytes))
    | (.failsAfter k, s') => .raised .busIOFailure (s'.emit (.sent (sentPart k bytes)))
  else .raised .notOpen s

/-- `BusWriteBulk(bytes)`: on the wire the same as `BusWrite` (R133). -/
def busWriteBulk (bytes : List Byte) (s : State) : Turn := busWrite bytes s

/-- `BusClose()` (R134). -/
def busClose (s : State) : Turn :=
  if s.bus = .opened then .done (State.emit { s with bus := .closed } .closed) else .raised .notOpen s

/-- `CsAssert()` (R135). -/
def csAssert (s : State) : Turn := .done (State.emit { s with cs := .asserted } .csAsserted)

/-- `CsDeassert()` (R135). -/
def csDeassert (s : State) : Turn := .done (State.emit { s with cs := .deasserted } .csDeasserted)

/-! ### Command Protocol (42_command_protocol.md) -/

/-- A frame: the data/command line to its level, then one bus write between chip-select assert and deassert (R69, R141
to R143). A write that raises ends it there, with chip-select still asserted (R136). -/
def sendFrame (l : Level) (write : State → Turn) (s : State) : Turn :=
  (((pinWrite .dc l s).andThen csAssert).andThen write).andThen csDeassert

/-- `SendCommand(op)` (R141). -/
def sendCommand (op : Byte) (s : State) : Turn := sendFrame .low (busWrite [op]) s

/-- `SendData(b)` (R142). -/
def sendData (b : Byte) (s : State) : Turn := sendFrame .high (busWrite [b]) s

/-- `SendDataBulk(bytes)` (R143). -/
def sendDataBulk (bytes : List Byte) (s : State) : Turn := sendFrame .high (busWriteBulk bytes) s

/-! ### Raising a fault (R251) -/

/-- POISONED set, and chip-select unspecified from then on (R262, U10): a free value. -/
def poison (s : State) : State :=
  { s with poisoned := true, cs := Config.csAfterFault s.csDraws, csDraws := s.csDraws + 1 }

/-- `raise F(info)` (R251), the one way a fault is taken: the code into FAULTS, POISONED if an event of this operation was
emitted and the fault is not `BusOpenFailure`, SEQ idle, the reply. Nothing is rolled back. -/
def raise (f : Status) (emitted : Bool) (s : State) : State :=
  let s := { s with faults := addFault f s.faults }
  let s := if poisons f emitted then poison s else s
  State.answer { s with seq := .idle } (.status f)

/-! ### The busy-wait (R153) -/

/-- Whether the poll limit is reached (R153). -/
def limitReached (limit : Option Nat) (polls : Nat) : Bool :=
  match limit with
  | none => false
  | some l => decide (l ≤ polls)

/-- The rest of a turn of the busy-wait after its sample (R153). -/
def afterSample (l : Level) (s : State) : Turn :=
  match l with
  | .high => delay Config.tReady s
  | .low =>
    let s := { s with polls := s.polls + 1 }
    if limitReached s.cfg.busyPollLimit s.polls then .raised .busyTimeout s
    else .again (s.emit (.delayed s.cfg.pollDelayMs))

/-- One turn of the loop of `ReadBusy` (R153): the query 0x71, the sample, then what follows it. -/
def poll (s : State) : Turn :=
  (sendCommand Opcode.statusQuery.byte s).andThen fun s =>
    match pinRead .busy s with
    | .ok (l, s) => afterSample l s
    | .error f => .raised f s

/-- `ReadBusy()` up to its first sample (R153): POLLS is cleared first. -/
def readBusy (s : State) : Turn := poll { s with polls := 0 }

/-! ### Steps and macros (R151, R152, R154) -/

/-- One step (R151). -/
def takeStep (st : Step) (s : State) : Turn :=
  match st with
  | .openBus =>
    match busOpen s.cfg.busId s.cfg.deviceId s with
    | (true, s') => .done s'
    | (false, s') => .raised .busOpenFailure s'
  | .pin p l => pinWrite p l s
  | .wait ms => delay ms s
  | .cmd op => sendCommand op.byte s
  | .dat b => sendData b s
  | .bulk bytes => sendDataBulk bytes s
  | .busy => readBusy s
  | .closeBus => busClose s

/-- The steps of `Reset()` (R152). -/
def resetSteps : List Step :=
  [.pin .rst .high, .wait Config.tRstA, .pin .rst .low, .wait Config.tRstB, .pin .rst .high, .wait Config.tRstC]

/-- The steps of `Refresh()` (R154). -/
def refreshSteps : List Step := [.cmd .displayRefresh, .wait Config.tSettle, .busy]

/-- How a list of steps ends: all taken, waiting at the busy-wait of index `k`, or raised. -/
inductive Run where
  | finished (s : State)
  | waiting (k : Nat) (s : State)
  | raised (f : Status) (s : State)
deriving DecidableEq, Repr

/-- The steps of a list in order, the first having index `k` (R151). -/
def runSteps (k : Nat) : List Step → State → Run
  | [], s => .finished s
  | st :: rest, s =>
    match takeStep st s with
    | .done s' => runSteps (k + 1) rest s'
    | .again s' => .waiting k s'
    | .raised f s' => .raised f s'

/-- The steps from index `k` on, when step `k` is a busy-wait already under way: POLLS is not cleared again (R153). -/
def resumeSteps (k : Nat) (l : List Step) (s : State) : Run :=
  match l with
  | .busy :: rest =>
    match poll s with
    | .done s' => runSteps (k + 1) rest s'
    | .again s' => .waiting k s'
    | .raised f s' => .raised f s'
  | l => runSteps k l s

/-- Whether every bus open of a step list is one that the spec describes: none, or one that stands first, on a bus that is
`NeverOpened` (R131, U6). -/
def openDescribed (l : List Step) (s : State) : Bool :=
  match l with
  | .openBus :: rest => decide (s.bus = .neverOpened) && !rest.contains .openBus
  | l => !l.contains .openBus

/-- The first check that fails, in order (R155, R267). -/
def firstFailure : List (Bool × Status) → Option Status
  | [] => none
  | (good, f) :: rest => if good then firstFailure rest else some f

/-- A meaning that needs SEQ idle (R300). -/
def whenIdle (s : State) (meaning : Host.Outcome State Fault Refusal) : Host.Outcome State Fault Refusal :=
  match s.seq with
  | .idle => meaning
  | .running _ _ => .refused .requestWhileRunning

/-- What a single step answers when it is called by itself on the component (R126, R137; log entry 3): the frame, and a
reply with the status. -/
def settleCall (start : Nat) : Turn → State
  | .done s => s.answer (.status .ok)
  | .again s => s
  | .raised f s => raise f (decide (start < s.trace.length)) s

/-- One wire symbol handed to the Command Protocol (R141, R142). -/
def callStep (st : Step) (s : State) : Host.Outcome State Fault Refusal :=
  whenIdle s (.next (settleCall s.trace.length (takeStep st s)))

/-- The next call and the state without it: a symbol of a component test where there is one, which no host request
interrupts (log entry 3), else the host's next request (R150). -/
def fetch (s : State) : Option (Call × State) :=
  match s.bench with
  | w :: rest => some (.symbol w, { s with bench := rest })
  | [] =>
    match s.inbox with
    | [] => none
    | r :: rest => some (.request r, { s with inbox := rest })

/-- Construction as an act of the host (R290, R291): every piece of state of R40 at its reset value. The geometry and the
parameters are constants (R37); the environment's answers, the calls still to come and the model's counter of free
values go on. -/
def State.construct (s : State) : State :=
  { s with
    life := .uninitialized
    mode := none
    poisoned := false
    faults := 0
    seq := .idle
    polls := 0
    rst := .u
    dc := .u
    pwr := .u
    bus := .neverOpened
    cs := .deasserted
    trace := []
    replies := [] }

end Sys2Proof.Machine
end

