-- ==== Sys2Proof/Machine/Codec.lean ====
section
/-! DEFINITION. The Frame Buffer Codec (44_frame_buffer_codec.md): ENCODE, a pure function of its image, of the geometry and
of the two parameters THRESHOLD and ROT_DIR. -/

namespace Sys2Proof.Machine

/-- The index in IMG of the sample for pixel `(x, y)` of the result, for an image of the panel's size (R193). -/
def directIndex (w x y : Nat) : Nat := y * w + x

/-- The index in IMG of the sample for pixel `(x, y)` of the result, for an image of the transposed size (R194). -/
def rotatedIndex (dir : RotDir) (w h x y : Nat) : Nat :=
  match dir with
  | .counterClockwise => x * h + (h - 1 - y)
  | .clockwise => (w - 1 - x) * h + y

/-- The library bit of a sample: 1, white, from the threshold on (R196). -/
def libraryBit (threshold : Nat) (sample : Byte) : Bool := decide (threshold ≤ sample.toNat)

/-- The byte `sum of bit(j) * 2^(7 - j)` (R192). -/
def packBits (bit : Nat → Bool) : Byte :=
  BitVec.ofNat 8 (((List.range 8).map fun j => (bit j).toNat * 2 ^ (7 - j)).sum)

/-- The library bit of pixel `(x, y)`: that of its sample, and 0 past the end of the row (R192, R197). -/
def sourceBit (threshold w : Nat) (pix : List Byte) (index : Nat → Nat → Nat) (x y : Nat) : Bool :=
  decide (x < w) && (memRead pix (index x y)).any (libraryBit threshold)

/-- Byte `k` of row `y` of OUT: eight library bits, the leftmost in bit 7, complemented (R192, R197). -/
def outByte (threshold w : Nat) (pix : List Byte) (index : Nat → Nat → Nat) (y k : Nat) : Byte :=
  packBits (fun j => sourceBit threshold w pix index (8 * k + j) y) ^^^ 0xFF

/-- OUT, every byte once, in the order of its index `y * STRIDE + k` (R63, R192). -/
def outPlane (threshold w h : Nat) (pix : List Byte) (index : Nat → Nat → Nat) : List Byte :=
  (List.range h).flatMap fun y => (List.range (strideOf w)).map fun k => outByte threshold w pix index y k

/-- The all-white buffer that replaces an image of a rejected size (R195). -/
def whitePlane (w h : Nat) : List Byte := List.replicate (planeLen w h) 0x00

/-- `warn` and `out` of ENCODE (R192): the size is tested first as it is (R193, R199), then transposed (R194). -/
def encodeImage (threshold : Nat) (dir : RotDir) (w h : Nat) (img : Image) : Bool × List Byte :=
  if img.iw = w ∧ img.ih = h then (false, outPlane threshold w h img.pix (directIndex w))
  else if img.iw = h ∧ img.ih = w then (false, outPlane threshold w h img.pix (rotatedIndex dir w h))
  else (true, whitePlane w h)

/-- ENCODE (R190, R192): in every lifecycle state and also when poisoned; no event, no state but the reply. -/
def execEncode (img : Image) (s : State) : Host.Outcome State Fault Refusal :=
  whenIdle s
    (if img.wf then
      .next (s.answer (.encoded (encodeImage s.cfg.threshold s.cfg.rotDir s.w s.h img).1
        (encodeImage s.cfg.threshold s.cfg.rotDir s.w s.h img).2))
    else .fault .sampleOutOfRange)

end Sys2Proof.Machine
end

