-- ==== Sys2Proof/Machine/Window.lean ====
section
/-! DEFINITION. The Partial Window Calculator (45_partial_window.md). -/

namespace Sys2Proof

/-- `Quantize(win)` (R211), with the explicit alignment predicate of R212; the rows are not changed (R213). -/
def quantize (win : Window) : Window :=
  if win.xs % 8 = 0 ∧ win.xe % 8 = 0 then win
  else
    { win with
      xs := win.xs - win.xs % 8
      xe := if win.xe % 8 = 0 then win.xe else win.xe - win.xe % 8 + 8 }

end Sys2Proof
end

