-- ==== Sys2Proof/Machine/Panel.lean ====
section
/-! DEFINITION. The Panel Controller's host operations (43_panel_controller.md): their step lists (R151), admission (R155),
what each writes when its last step is done, and the reserved operation selects (R100). -/

namespace Sys2Proof.Machine

/-- The steps of an initialisation (R156). -/
def initSteps (m : Mode) (cfg : Params) : List Step :=
  .openBus :: .pin .pwr .high :: (resetSteps ++ cfg.initSeq m)

/-- The steps of DISPLAY (R160). -/
def displaySteps (buf : List Byte) : List Step :=
  [.cmd .oldImageData, .bulk (complement buf), .cmd .newImageData, .bulk buf] ++ refreshSteps

/-- The steps of DISPLAY_PARTIAL for a panel `w` pixels wide (R162). -/
def displayPartialSteps (w : Nat) (buf : List Byte) (win : Window) : List Step :=
  setting .vcomDataInterval [0xA9, 0x07] ++ setting .partialIn []
    ++ setting .partialWindow (windowPayload (quantize win))
    ++ [.cmd .newImageData, .bulk (windowPlane w buf (quantize win))] ++ refreshSteps

/-- The steps of CLEAR for a plane of `n` bytes (R164). -/
def clearSteps (n : Nat) (oldFill newFill : Byte) : List Step :=
  [.cmd .oldImageData, .bulk (List.replicate n oldFill), .cmd .newImageData, .bulk (List.replicate n newFill)]
    ++ refreshSteps

/-- The steps of SLEEP (R166). -/
def sleepSteps : List Step :=
  [.cmd .powerOff, .busy] ++ setting .deepSleep [0xA5]
    ++ [.wait Config.tDeep, .closeBus, .pin .rst .low, .pin .dc .low, .pin .pwr .low]

/-- The step list of an operation (R151): fixed by the operation, its operands and the parameters (R77). -/
def taskSteps (task : Task) (s : State) : List Step :=
  match task with
  | .init m => initSteps m s.cfg
  | .display buf => displaySteps buf
  | .displayPartial buf win => displayPartialSteps s.w buf win
  | .clear => clearSteps (planeLen s.w s.h) s.cfg.clearOldFill s.cfg.clearNewFill
  | .sleep => sleepSteps

/-- What an operation writes after its last step (R151): LIFE and MODE, as each operation's rule says. -/
def writeLifecycle (task : Task) (s : State) : State :=
  match task with
  | .init m => { s with life := .poweredOn, mode := some m }
  | .display _ => s
  | .displayPartial _ _ => { s with mode := some .part }
  | .clear => s
  | .sleep => { s with life := .sleeping, mode := none }

/-- The end of an operation whose every step is done: LIFE and MODE, SEQ idle, the reply `OK` (R151). -/
def complete (task : Task) (s : State) : State :=
  State.answer { writeLifecycle task s with seq := .idle } (.status .ok)

/-- The state after a run of an operation's steps. `resumed` says that this operation emitted events in an earlier step of
the machine, `start` is the length of the trace before this one (R251). -/
def settle (task : Task) (resumed : Bool) (start : Nat) : Run → State
  | .finished s => complete task s
  | .waiting k s => { s with seq := .running task k }
  | .raised f s => raise f (resumed || decide (start < s.trace.length)) s

/-- An admitted operation from its first step on: to its reply, or to its first busy sample that is not ready. -/
def startTask (task : Task) (s : State) : Host.Outcome State Fault Refusal :=
  if openDescribed (taskSteps task s) s then
    .next (settle task false s.trace.length (runSteps 0 (taskSteps task s) s))
  else .refused .openUndescribed

/-- An operation in progress from step `k` on. -/
def resumeTask (task : Task) (k : Nat) (s : State) : Host.Outcome State Fault Refusal :=
  if openDescribed ((taskSteps task s).drop k) s then
    .next (settle task true s.trace.length (resumeSteps k ((taskSteps task s).drop k) s))
  else .refused .openUndescribed

/-- Checks 2 and 3 of admission: not poisoned, and the lifecycle state the operation needs (R155, R168). -/
def lifeChecks (need : Life) (s : State) : List (Bool × Status) :=
  [(!s.poisoned, .poisoned), (decide (s.life = need), .preconditionViolation .badState)]

/-- Check 4 of admission (R155, R254). -/
def lengthCheck (buf : List Byte) (s : State) : List (Bool × Status) :=
  [(buf.length == planeLen s.w s.h, .preconditionViolation .badLength)]

/-- Check 5 of admission (R155, R255). -/
def windowCheck (win : Window) (s : State) : List (Bool × Status) :=
  [(windowValid s.w s.h win, .preconditionViolation .badWindow)]

/-- A host operation: refused at the first check that fails, with no event, else started (R155). -/
def admitTask (checks : List (Bool × Status)) (task : Task) (s : State) : Host.Outcome State Fault Refusal :=
  whenIdle s
    (match firstFailure checks with
      | some f => .next (raise f false s)
      | none => startTask task s)

/-- INIT (R156). -/
def execInit (s : State) : Host.Outcome State Fault Refusal :=
  admitTask (lifeChecks .uninitialized s) (.init .full) s

/-- INIT_FAST (R158). -/
def execInitFast (s : State) : Host.Outcome State Fault Refusal :=
  admitTask (lifeChecks .uninitialized s) (.init .fast) s

/-- INIT_PART (R159). -/
def execInitPart (s : State) : Host.Outcome State Fault Refusal :=
  admitTask (lifeChecks .uninitialized s) (.init .part) s

/-- DISPLAY (R160). -/
def execDisplay (buf : List Byte) (s : State) : Host.Outcome State Fault Refusal :=
  admitTask (lifeChecks .poweredOn s ++ lengthCheck buf s) (.display buf) s

/-- DISPLAY_PARTIAL (R162). -/
def execDisplayPartial (buf : List Byte) (win : Window) (s : State) : Host.Outcome State Fault Refusal :=
  admitTask (lifeChecks .poweredOn s ++ lengthCheck buf s ++ windowCheck win s) (.displayPartial buf win) s

/-- CLEAR (R164). -/
def execClear (s : State) : Host.Outcome State Fault Refusal :=
  admitTask (lifeChecks .poweredOn s) .clear s

/-- SLEEP (R166), on a controller that is not powered on the error (R167). -/
def execSleep (s : State) : Host.Outcome State Fault Refusal :=
  admitTask (lifeChecks .poweredOn s) .sleep s

/-- OPSEL 0x8 to 0xF: `InvalidOp`, tested before everything else (R100, R155, R259). -/
def execReservedOpsel (low : BitVec 3) (s : State) : Host.Outcome State Fault Refusal :=
  whenIdle s (.next (raise (.invalidOp (0x8 ||| low.setWidth 4)) false s))

end Sys2Proof.Machine
end

