-- ==== Sys2Proof/Machine/Wire.lean ====
section
/-! DEFINITION. The wire symbols (46_wire_opcodes.md): each command symbol is the command frame `C(op)` and the data symbol
the data frame `D(b)`. Sending one changes only DC, CS and TRACE. Where an opcode stands in an operation, its payload
and what must follow it are in the step lists of Machine/Panel.lean and Machine/InitSeq.lean. -/

namespace Sys2Proof.Machine

/-- PANEL_SETTING, opcode 0x00 (R220). -/
def execPanelSetting (s : State) : Host.Outcome State Fault Refusal := callStep (.cmd .panelSetting) s

/-- POWER_SETTING, opcode 0x01 (R221). -/
def execPowerSetting (s : State) : Host.Outcome State Fault Refusal := callStep (.cmd .powerSetting) s

/-- POWER_OFF, opcode 0x02 (R222). -/
def execPowerOff (s : State) : Host.Outcome State Fault Refusal := callStep (.cmd .powerOff) s

/-- POWER_ON, opcode 0x04 (R223). -/
def execPowerOn (s : State) : Host.Outcome State Fault Refusal := callStep (.cmd .powerOn) s

/-- BOOSTER_SOFT_START, opcode 0x06 (R224). -/
def execBoosterSoftStart (s : State) : Host.Outcome State Fault Refusal := callStep (.cmd .boosterSoftStart) s

/-- DEEP_SLEEP, opcode 0x07 (R225). -/
def execDeepSleep (s : State) : Host.Outcome State Fault Refusal := callStep (.cmd .deepSleep) s

/-- OLD_IMAGE_DATA, opcode 0x10 (R226). -/
def execOldImageData (s : State) : Host.Outcome State Fault Refusal := callStep (.cmd .oldImageData) s

/-- DISPLAY_REFRESH, opcode 0x12 (R227). -/
def execDisplayRefresh (s : State) : Host.Outcome State Fault Refusal := callStep (.cmd .displayRefresh) s

/-- NEW_IMAGE_DATA, opcode 0x13 (R228). -/
def execNewImageData (s : State) : Host.Outcome State Fault Refusal := callStep (.cmd .newImageData) s

/-- VCOM_DC, opcode 0x15 (R229). -/
def execVcomDc (s : State) : Host.Outcome State Fault Refusal := callStep (.cmd .vcomDc) s

/-- VCOM_DATA_INTERVAL, opcode 0x50 (R230). -/
def execVcomDataInterval (s : State) : Host.Outcome State Fault Refusal := callStep (.cmd .vcomDataInterval) s

/-- TCON_SETTING, opcode 0x60 (R231). -/
def execTconSetting (s : State) : Host.Outcome State Fault Refusal := callStep (.cmd .tconSetting) s

/-- RESOLUTION, opcode 0x61 (R232). -/
def execResolution (s : State) : Host.Outcome State Fault Refusal := callStep (.cmd .resolution) s

/-- STATUS_QUERY, opcode 0x71 (R233). -/
def execStatusQuery (s : State) : Host.Outcome State Fault Refusal := callStep (.cmd .statusQuery) s

/-- PARTIAL_WINDOW, opcode 0x90 (R234). -/
def execPartialWindow (s : State) : Host.Outcome State Fault Refusal := callStep (.cmd .partialWindow) s

/-- PARTIAL_IN, opcode 0x91 (R235). -/
def execPartialIn (s : State) : Host.Outcome State Fault Refusal := callStep (.cmd .partialIn) s

/-- CROSS_REF_E0, opcode 0xE0 (R236). -/
def execCrossRefE0 (s : State) : Host.Outcome State Fault Refusal := callStep (.cmd .crossRefE0) s

/-- CROSS_REF_E5, opcode 0xE5 (R237). -/
def execCrossRefE5 (s : State) : Host.Outcome State Fault Refusal := callStep (.cmd .crossRefE5) s

/-- DATA, the data symbol: a payload byte of the command symbol before it (R142). -/
def execData (b : Byte) (s : State) : Host.Outcome State Fault Refusal := callStep (.dat b) s

end Sys2Proof.Machine
end

