-- ==== Sys2Proof/Machine/Dispatch.lean ====
section
/-! DEFINITION. One arm for each instruction, each one call of its meaning. -/

namespace Sys2Proof.Machine

def exec (i : Instr) (s : State) : Host.Outcome State Fault Refusal :=
  match i with
  | .panelSetting => Sys2Proof.Machine.execPanelSetting s
  | .powerSetting => Sys2Proof.Machine.execPowerSetting s
  | .powerOff => Sys2Proof.Machine.execPowerOff s
  | .powerOn => Sys2Proof.Machine.execPowerOn s
  | .boosterSoftStart => Sys2Proof.Machine.execBoosterSoftStart s
  | .deepSleep => Sys2Proof.Machine.execDeepSleep s
  | .oldImageData => Sys2Proof.Machine.execOldImageData s
  | .displayRefresh => Sys2Proof.Machine.execDisplayRefresh s
  | .newImageData => Sys2Proof.Machine.execNewImageData s
  | .vcomDc => Sys2Proof.Machine.execVcomDc s
  | .vcomDataInterval => Sys2Proof.Machine.execVcomDataInterval s
  | .tconSetting => Sys2Proof.Machine.execTconSetting s
  | .resolution => Sys2Proof.Machine.execResolution s
  | .statusQuery => Sys2Proof.Machine.execStatusQuery s
  | .partialWindow => Sys2Proof.Machine.execPartialWindow s
  | .partialIn => Sys2Proof.Machine.execPartialIn s
  | .crossRefE0 => Sys2Proof.Machine.execCrossRefE0 s
  | .crossRefE5 => Sys2Proof.Machine.execCrossRefE5 s
  | .data b => Sys2Proof.Machine.execData b s
  | .init => Sys2Proof.Machine.execInit s
  | .initFast => Sys2Proof.Machine.execInitFast s
  | .initPart => Sys2Proof.Machine.execInitPart s
  | .display buf => Sys2Proof.Machine.execDisplay buf s
  | .displayPartial buf win => Sys2Proof.Machine.execDisplayPartial buf win s
  | .clear => Sys2Proof.Machine.execClear s
  | .sleep => Sys2Proof.Machine.execSleep s
  | .encode img => Sys2Proof.Machine.execEncode img s
  | .reservedOpsel low => Sys2Proof.Machine.execReservedOpsel low s

end Sys2Proof.Machine
end

