-- ==== Sys2Proof/Machine/Step.lean ====
section
/-! DEFINITION. One step of the machine: an operation in progress goes on (R151), an idle machine takes the next call (R150),
and an idle machine with no call waits (R290). -/

namespace Sys2Proof.Machine

/-- One step. -/
def step (s : State) : Host.Outcome State Fault Refusal :=
  match s.seq with
  | .running task k => resumeTask task k s
  | .idle =>
    match fetch s with
    | none => .next s
    | some (c, s') =>
      match decode c with
      | .ok i => exec i s'
      | .error e => .refused (.undecodable e)

/-- `s` with the instruction whose bits are `w` as the call that the very next step takes: a request before the host's
others and with no component test before it, a symbol before the component test's others (log entry 9). -/
def State.withFetchWord (s : State) (nbits w : Nat) : State :=
  match tableCall nbits w with
  | .request r => { s with seq := .idle, bench := [], inbox := r :: s.inbox }
  | .symbol x => { s with seq := .idle, bench := x :: s.bench }

end Sys2Proof.Machine
end

