-- ==== Sys2Proof/Safety.lean ====
section
/-! DEFINITION. What claims about EPDC speak of: an environment in which all goes well, the discipline of a trace (R31, R144),
the lines a trace has driven (R29), the invariant of the machine, admission
(R155), where a fault leaves an operation (R262), and a run finished in good order (R311). -/

namespace Sys2Proof.Machine

/-- Every answer of the stream, now and later, is `x`. -/
def Answers.always {α : Type} (a : Answers α) (x : α) : Prop := (∀ y ∈ a.script, y = x) ∧ a.rest = some x

/-- The bus opens, every transfer completes, every busy sample reads ready (R16). -/
def Environment.ready (e : Environment) : Prop :=
  e.opens.always true ∧ e.transfers.always .completes ∧ e.busy.always .high

/-- The events of `ReadBusy` when its first sample is ready (R153). -/
def readyWait : List Event := commandFrame 0x71 ++ [.busyRead .high, .delayed 20]

/-- The events of one turn of `ReadBusy` whose sample is not ready, below the poll limit (R153). -/
def notReadyTurn (pollDelayMs : Nat) : List Event := commandFrame 0x71 ++ [.busyRead .low, .delayed pollDelayMs]

/-- The events of a step when all goes well and the panel is ready at the first sample (R151). -/
def readyEvents : Step → List Event
  | .openBus => [.opened true]
  | .pin p l => [.pinWritten p l]
  | .wait ms => [.delayed ms]
  | .cmd op => commandFrame op.byte
  | .dat b => dataFrame [b]
  | .bulk bytes => dataFrame bytes
  | .busy => readyWait
  | .closeBus => [.closed]

/-- The six events of `Reset` (R152). -/
def resetPulse : List Event :=
  [.pinWritten .rst .high, .delayed 20, .pinWritten .rst .low, .delayed 2, .pinWritten .rst .high, .delayed 20]

/-- Where a trace stands with respect to a frame. -/
inductive FramePos where
  | outside (dcJustDriven : Bool)
  | begun
  | sentOnce
deriving DecidableEq, Repr

/-- The frame discipline of R144: chip-select is asserted straight after the data/command line is driven, one transfer
follows and nothing else, then chip-select is deasserted; no transfer elsewhere. -/
def frameNext : FramePos → Event → Option FramePos
  | .outside _, .pinWritten .dc _ => some (.outside true)
  | .outside _, .pinWritten .rst _ => some (.outside false)
  | .outside _, .pinWritten .pwr _ => some (.outside false)
  | .outside _, .opened _ => some (.outside false)
  | .outside _, .closed => some (.outside false)
  | .outside _, .busyRead _ => some (.outside false)
  | .outside _, .delayed _ => some (.outside false)
  | .outside true, .csAsserted => some .begun
  | .begun, .sent _ => some .sentOnce
  | .sentOnce, .csDeasserted => some (.outside false)
  | _, _ => none

/-- The position after a list of events, if it keeps the frame discipline. -/
def frameRun (p : FramePos) : List Event → Option FramePos
  | [] => some p
  | e :: rest =>
    match frameNext p e with
    | some q => frameRun q rest
    | none => none

/-- A trace that keeps the frame discipline and ends outside every frame (R144). -/
def framed (events : List Event) : Bool :=
  match frameRun (.outside false) events with
  | some (.outside _) => true
  | some .begun => false
  | some .sentOnce => false
  | none => false

/-- The bus discipline of R31 and R307: opened at most once, and only before it is closed; closed at most once, and only
when open; no transfer but on the open bus. -/
def busNext : BusState → Event → Option BusState
  | .neverOpened, .opened true => some .opened
  | .neverOpened, .opened false => some .neverOpened
  | .opened, .opened _ => none
  | .closed, .opened _ => none
  | .opened, .closed => some .closed
  | .neverOpened, .closed => none
  | .closed, .closed => none
  | .opened, .sent _ => some .opened
  | .neverOpened, .sent _ => none
  | .closed, .sent _ => none
  | b, .pinWritten _ _ => some b
  | b, .busyRead _ => some b
  | b, .delayed _ => some b
  | b, .csAsserted => some b
  | b, .csDeasserted => some b

/-- The bus after a list of events, if it keeps the bus discipline. -/
def busRun (b : BusState) : List Event → Option BusState
  | [] => some b
  | e :: rest =>
    match busNext b e with
    | some b' => busRun b' rest
    | none => none

/-- An output latch after an event: the last level driven on its pin (R29). -/
def latchAfter (p : Pin) (v : Latch) : Event → Latch
  | .pinWritten q l => if q = p then .driven l else v
  | .opened _ => v
  | .closed => v
  | .busyRead _ => v
  | .delayed _ => v
  | .csAsserted => v
  | .csDeasserted => v
  | .sent _ => v

/-- The bus state that goes with a lifecycle state between operations (R137). -/
def busOfLife : Life → BusState
  | .uninitialized => .neverOpened
  | .poweredOn => .opened
  | .sleeping => .closed

/-- LIFE and BUS as they stand together while no fault has poisoned the session: between operations as R137 says, and open
while an operation waits for the panel, an initialisation in `Uninitialized` and any other operation in `PoweredOn`. -/
def lifeMatchesBus (s : State) : Prop :=
  match s.seq with
  | .idle => s.bus = busOfLife s.life
  | .running (.init _) _ => s.life = .uninitialized ∧ s.bus = .opened
  | .running _ _ => s.life = .poweredOn ∧ s.bus = .opened

/-- SEQ, when an operation is in progress between steps of the machine, stands at a busy-wait of its list (R28, R153). -/
def seqAtBusy (s : State) : Prop :=
  match s.seq with
  | .idle => True
  | .running task k => (taskSteps task s)[k]? = some .busy

/-- The invariant of the machine. -/
structure State.Inv (s : State) : Prop where
  /-- MODE has a value exactly while LIFE is `PoweredOn` (R22). -/
  modeIffOn : s.mode.isSome = true ↔ s.life = .poweredOn
  /-- LIFE and BUS go together (R137). -/
  lifeBus : s.poisoned = false → lifeMatchesBus s
  /-- CS is deasserted between operations, unless POISONED is set (R32). -/
  csIdle : s.poisoned = false → s.cs = .deasserted
  /-- The trace keeps the frame discipline (R144). -/
  framing : s.poisoned = false → framed s.trace = true
  /-- The trace keeps the bus discipline, and BUS is where it ends (R31). -/
  busTrace : busRun .neverOpened s.trace = some s.bus
  /-- The latches hold the last level driven (R29). -/
  rstTrace : s.rst = s.trace.foldl (latchAfter .rst) .u
  dcTrace : s.dc = s.trace.foldl (latchAfter .dc) .u
  pwrTrace : s.pwr = s.trace.foldl (latchAfter .pwr) .u
  /-- While the bus is open, the power-enable and the reset line are high (R152, R156, R280). -/
  onLines : s.poisoned = false → s.bus = .opened → s.pwr = .driven .high ∧ s.rst = .driven .high
  /-- Once SLEEP has closed the bus, the three output lines are low (R166, R280). -/
  offLines : s.poisoned = false → s.bus = .closed →
    s.rst = .driven .low ∧ s.dc = .driven .low ∧ s.pwr = .driven .low
  /-- A fault ends the operation in progress (R251). -/
  poisonedIdle : s.poisoned = true → s.seq = .idle
  /-- An operation in progress waits for the panel (R153). -/
  atBusy : seqAtBusy s
  /-- FAULTS never records the code of `OK` (R25, R250). -/
  noOk : hasFault s.faults .ok = false
  /-- The initialisation sequences hold only the step kinds of R172 (a). -/
  settings : ∀ m, (s.cfg.initSeq m).all Step.isSetting = true

/-- The state after a command frame sent by itself: DC, CS, TRACE, and the reply (R91, log entry 3). -/
def afterCommand (b : Byte) (s : State) : State :=
  { s with
    dc := .driven .low
    cs := .deasserted
    trace := s.trace ++ commandFrame b
    env := (askTransfer s).2.env
    replies := s.replies ++ [.status .ok] }

/-- The state after a one-byte data frame sent by itself (R92, log entry 3). -/
def afterData (b : Byte) (s : State) : State :=
  { s with
    dc := .driven .high
    cs := .deasserted
    trace := s.trace ++ dataFrame [b]
    env := (askTransfer s).2.env
    replies := s.replies ++ [.status .ok] }

/-- The state after a clean refusal: the code in FAULTS and the reply, nothing else (R265). -/
def cleanRefusal (f : Status) (s : State) : State :=
  { s with faults := addFault f s.faults, replies := s.replies ++ [.status f] }

/-- The events of DISPLAY when all goes well and the panel is ready at once (R160). -/
def displayEvents (buf : List Byte) : List Event :=
  commandFrame 0x10 ++ dataFrame (complement buf) ++ commandFrame 0x13 ++ dataFrame buf ++ commandFrame 0x12
    ++ [.delayed 100] ++ readyWait

/-- The events of CLEAR with planes of `n` bytes (R164). -/
def clearEvents (n : Nat) (oldFill newFill : Byte) : List Event :=
  commandFrame 0x10 ++ dataFrame (List.replicate n oldFill) ++ commandFrame 0x13 ++ dataFrame (List.replicate n newFill)
    ++ commandFrame 0x12 ++ [.delayed 100] ++ readyWait

/-- The events of DISPLAY_PARTIAL with a quantized window `q` and the window's bytes `sub` (R162). -/
def displayPartialEvents (q : Window) (sub : List Byte) : List Event :=
  commandFrame 0x50 ++ dataFrame [0xA9] ++ dataFrame [0x07] ++ commandFrame 0x91 ++ commandFrame 0x90
    ++ dataFrame [hi8 q.xs] ++ dataFrame [lo8 q.xs] ++ dataFrame [hi8 (q.xe - 1)] ++ dataFrame [lo8 (q.xe - 1)]
    ++ dataFrame [hi8 q.ys] ++ dataFrame [lo8 q.ys] ++ dataFrame [hi8 (q.ye - 1)] ++ dataFrame [lo8 (q.ye - 1)]
    ++ dataFrame [0x01] ++ commandFrame 0x13 ++ dataFrame sub ++ commandFrame 0x12 ++ [.delayed 100] ++ readyWait

/-- The events of SLEEP when all goes well and the panel is ready at once (R166). -/
def sleepEvents : List Event :=
  commandFrame 0x02 ++ readyWait ++ commandFrame 0x07 ++ dataFrame [0xA5] ++ [.delayed 2000, .closed,
    .pinWritten .rst .low, .pinWritten .dc .low, .pinWritten .pwr .low]

/-- The lifecycle state an operation needs (R168). -/
def needOf : Task → Life
  | .init _ => .uninitialized
  | .display _ => .poweredOn
  | .displayPartial _ _ => .poweredOn
  | .clear => .poweredOn
  | .sleep => .poweredOn

/-- The instruction that asks for an operation (R93). -/
def instrOf : Task → Instr
  | .init .full => .init
  | .init .fast => .initFast
  | .init .part => .initPart
  | .display buf => .display buf
  | .displayPartial buf win => .displayPartial buf win
  | .clear => .clear
  | .sleep => .sleep

/-- Checks 4 and 5 of admission, on the operands (R155). -/
def operandsFit (task : Task) (s : State) : Prop :=
  match task with
  | .init _ => True
  | .display buf => buf.length = planeLen s.w s.h
  | .displayPartial buf win => buf.length = planeLen s.w s.h ∧ windowValid s.w s.h win = true
  | .clear => True
  | .sleep => True

/-- The states in which a request for an operation passes every check of admission (R155). -/
def admitted (task : Task) (s : State) : Prop :=
  s.seq = .idle ∧ s.poisoned = false ∧ s.life = needOf task ∧ operandsFit task s

/-- The level of the reset line and of the power line once an operation's first busy-wait is reached: an initialisation
has raised both (R152, R156), the others leave them. -/
def raisedBy (task : Task) (before : Latch) : Latch :=
  match task with
  | .init _ => .driven .high
  | .display _ => before
  | .displayPartial _ _ => before
  | .clear => before
  | .sleep => before

/-- Where a fault in mid-sequence leaves an operation that had come to `v` (R251, R262): nothing more happens to the lines,
the bus and the trace; only the fault is recorded and replied, and chip-select is a free value. -/
def stoppedBy (f : Status) (v : State) : State :=
  { v with
    seq := .idle
    faults := addFault f v.faults
    poisoned := true
    cs := Config.csAfterFault v.csDraws
    csDraws := v.csDraws + 1
    replies := v.replies ++ [.status f] }

/-- The lines, the bus, chip-select and the trace as they were (R39). -/
def sameWires (s t : State) : Prop :=
  t.rst = s.rst ∧ t.dc = s.dc ∧ t.pwr = s.pwr ∧ t.bus = s.bus ∧ t.cs = s.cs ∧ t.trace = s.trace

/-- The fields that neither a wire symbol nor a panel operation between initialisation and SLEEP writes: LIFE, the
geometry, the reset and power lines, BUS, the parameters, the calls to come, the answers to bus opens. -/
def sameOutside (s t : State) : Prop :=
  t.life = s.life ∧ t.width = s.width ∧ t.height = s.height ∧ t.rst = s.rst ∧ t.pwr = s.pwr ∧ t.bus = s.bus
    ∧ t.cfg = s.cfg ∧ t.inbox = s.inbox ∧ t.bench = s.bench ∧ t.env.opens = s.env.opens

/-- A run finished in good order (R311): the last operation has replied, no fault is recorded, nothing is poisoned. -/
def finishedInGoodOrder (s : State) : Prop := s.seq = .idle ∧ s.faults = 0 ∧ s.poisoned = false

end Sys2Proof.Machine
end

