-- ==== Sys2Proof/Certificates/Slice0/Obligations.lean ====
section
/-! DEFINITION. The statements for the provers. Each docstring names the rule of spec/ it formalises. EPDC has no memory of
its own (R20, R60), so no frame here speaks of bytes of memory. -/

open Sys2Proof Sys2Proof.Machine

/-! ### Construction, the step, decoding -/

/-- R40, R290: the values after construction, those of `State.reset` and those of a construction of any machine. -/
def Obligations.ConstructionSetsEveryPiece : Prop :=
  ∀ s t : State, (t = State.reset ∨ t = s.construct) →
    t.life = .uninitialized ∧ t.mode = none ∧ t.poisoned = false ∧ t.faults = 0 ∧ t.seq = .idle ∧ t.polls = 0
      ∧ t.rst = .u ∧ t.dc = .u ∧ t.pwr = .u ∧ t.bus = .neverOpened ∧ t.cs = .deasserted ∧ t.trace = []

/-- R150, R151, R290: an idle machine takes the next call, a symbol of a component test where there is one (log entry 3),
else the host's next request, and is `exec` of the instruction it decodes to; with no call it waits; with an operation in
progress it goes on with it. -/
def Obligations.StepRunsTheDecodedInstruction : Prop :=
  (∀ s w rest i, s.seq = .idle → s.bench = w :: rest → decode (.symbol w) = .ok i →
      step s = exec i { s with bench := rest })
    ∧ (∀ s r rest i, s.seq = .idle → s.bench = [] → s.inbox = r :: rest → decode (.request r) = .ok i →
      step s = exec i { s with inbox := rest })
    ∧ (∀ s, s.seq = .idle → s.bench = [] → s.inbox = [] → step s = .next s)
    ∧ (∀ s task k, s.seq = .running task k → step s = resumeTask task k s)

/-- R93, R94: words written out from the tables. -/
def Obligations.WordsDecodeAsTheTableSays : Prop :=
  decode (.symbol 0b000000000) = .ok .panelSetting ∧ decode (.symbol 0b000010010) = .ok .displayRefresh
    ∧ decode (.symbol 0b010010000) = .ok .partialWindow ∧ decode (.symbol 0b011100101) = .ok .crossRefE5
    ∧ decode (.symbol 0b110100101) = .ok (.data 0xA5) ∧ decode (.request (emptyRequest 0b0000)) = .ok .init
    ∧ decode (.request (emptyRequest 0b0101)) = .ok .clear ∧ decode (.request (emptyRequest 0b0110)) = .ok .sleep
    ∧ decode (.request (emptyRequest 0b1001)) = .ok (.reservedOpsel 1)

/-- R90, R93: decoding an encoded well-formed instruction gives it back with every operand; what a call decodes to is well
formed; a symbol that decodes is the one its instruction encodes to, and a request keeps its OPSEL. -/
def Obligations.DecodeAndEncodeAgree : Prop :=
  (∀ i, i.wf = true → decode (encode i) = .ok i)
    ∧ (∀ c i, decode c = .ok i → i.wf = true)
    ∧ (∀ w i, decode (.symbol w) = .ok i → encode i = .symbol w)
    ∧ (∀ r i, decode (.request r) = .ok i → ∃ r', encode i = .request r' ∧ r'.opsel = r.opsel)

/-- R94, R99: a command symbol that is refused is exactly one whose byte is none of the 18, and there are 238. -/
def Obligations.OnlyTheEighteenOpcodesDecode : Prop :=
  (∀ b : Byte, decode (.symbol (b.setWidth 9)) = .error (.unlistedOpcode b) ↔
      b ∉ ([0x00, 0x01, 0x02, 0x04, 0x06, 0x07, 0x10, 0x12, 0x13, 0x15, 0x50, 0x60, 0x61, 0x71, 0x90, 0x91, 0xE0, 0xE5]
        : List Byte))
    ∧ ((List.range 256).filter fun n =>
        decide (decode (.symbol ((BitVec.ofNat 8 n).setWidth 9)) = .error (.unlistedOpcode (BitVec.ofNat 8 n)))).length = 238

/-! ### The wire symbols -/

/-- R91, R94: each command symbol, called by itself on an open bus whose transfer completes, sends its one frame. -/
def Obligations.CommandSymbolsSendTheirFrame : Prop :=
  ∀ s : State, s.seq = .idle → s.bus = .opened → (askTransfer s).1 = .completes →
    exec .panelSetting s = .next (afterCommand 0x00 s) ∧ exec .powerSetting s = .next (afterCommand 0x01 s)
      ∧ exec .powerOff s = .next (afterCommand 0x02 s) ∧ exec .powerOn s = .next (afterCommand 0x04 s)
      ∧ exec .boosterSoftStart s = .next (afterCommand 0x06 s) ∧ exec .deepSleep s = .next (afterCommand 0x07 s)
      ∧ exec .oldImageData s = .next (afterCommand 0x10 s) ∧ exec .displayRefresh s = .next (afterCommand 0x12 s)
      ∧ exec .newImageData s = .next (afterCommand 0x13 s) ∧ exec .vcomDc s = .next (afterCommand 0x15 s)
      ∧ exec .vcomDataInterval s = .next (afterCommand 0x50 s) ∧ exec .tconSetting s = .next (afterCommand 0x60 s)
      ∧ exec .resolution s = .next (afterCommand 0x61 s) ∧ exec .statusQuery s = .next (afterCommand 0x71 s)
      ∧ exec .partialWindow s = .next (afterCommand 0x90 s) ∧ exec .partialIn s = .next (afterCommand 0x91 s)
      ∧ exec .crossRefE0 s = .next (afterCommand 0xE0 s) ∧ exec .crossRefE5 s = .next (afterCommand 0xE5 s)

/-- R92, R142: the data symbol sends its one frame. -/
def Obligations.DataSymbolSendsItsFrame : Prop :=
  ∀ (s : State) (b : Byte), s.seq = .idle → s.bus = .opened → (askTransfer s).1 = .completes →
    exec (.data b) s = .next (afterData b s)

/-- R136, R137, R251: a wire symbol whose transfer fails, or on a bus that is not open, ends there with chip-select not
deasserted by an event, poisons the session and replies with the fault (that a symbol called by itself replies is log
entry 3). -/
def Obligations.WireSymbolFailuresPoison : Prop :=
  ∀ (s : State) (i : Instr) (w : Symbol), encode i = .symbol w → s.seq = .idle →
    (s.bus = .opened → (askTransfer s).1 ≠ .completes →
        ∃ t, exec i s = .next t ∧ t.poisoned = true ∧ t.faults = addFault .busIOFailure s.faults
          ∧ t.trace = s.trace ++ [.pinWritten .dc (if w.getLsbD 8 then .high else .low), .csAsserted, .sent []]
          ∧ t.replies = s.replies ++ [.status .busIOFailure] ∧ t.seq = .idle)
      ∧ (s.bus ≠ .opened →
        ∃ t, exec i s = .next t ∧ t.poisoned = true ∧ t.faults = addFault .notOpen s.faults
          ∧ t.trace = s.trace ++ [.pinWritten .dc (if w.getLsbD 8 then .high else .low), .csAsserted]
          ∧ t.replies = s.replies ++ [.status .notOpen] ∧ t.seq = .idle)

/-- 46_wire_opcodes.md, "sending an opcode changes only `DC`, `CS` and `TRACE`": the frame of every wire symbol, on every
path. FAULTS, POISONED, and the counter of free CS levels change only when the fault is raised, which replies. -/
def Obligations.WireSymbolsLeaveTheRestAlone : Prop :=
  ∀ (s t : State) (i : Instr) (w : Symbol), encode i = .symbol w → exec i s = .next t →
    sameOutside s t ∧ t.mode = s.mode ∧ t.seq = s.seq ∧ t.polls = s.polls ∧ t.env.busy = s.env.busy
      ∧ (t.replies = s.replies ++ [.status .ok] →
          t.faults = s.faults ∧ t.poisoned = s.poisoned ∧ t.csDraws = s.csDraws ∧ t.cs = .deasserted)

/-! ### The components -/

/-- R122: a write drives its latch, also to the level it holds, and emits the event; a write of BUSY raises. -/
def Obligations.PinWriteDrivesOneLatch : Prop :=
  ∀ (l : Level) (s : State),
    pinWrite .rst l s = .done { s with rst := .driven l, trace := s.trace ++ [.pinWritten .rst l] }
      ∧ pinWrite .dc l s = .done { s with dc := .driven l, trace := s.trace ++ [.pinWritten .dc l] }
      ∧ pinWrite .pwr l s = .done { s with pwr := .driven l, trace := s.trace ++ [.pinWritten .pwr l] }
      ∧ pinWrite .busy l s = .raised (.invalidPinRole .busy) s

/-- R123: a read of BUSY returns the environment's answer and emits it, and changes nothing else; two reads with nothing
between them return two answers, which may be different levels; a read of an output raises. -/
def Obligations.PinReadSamplesBusyOnly : Prop :=
  ∀ s : State,
    pinRead .busy s = .ok ((askBusy s).1,
        { s with trace := s.trace ++ [.busyRead (askBusy s).1], env := { s.env with busy := (askBusy s).2.env.busy } })
      ∧ (∀ first second later, s.env.busy.script = first :: second :: later →
        ∃ t u, pinRead .busy s = .ok (first, t) ∧ pinRead .busy t = .ok (second, u) ∧ u.env.busy.script = later
          ∧ u.trace = s.trace ++ [.busyRead first, .busyRead second])
      ∧ pinRead .rst s = .error (.invalidPinRole .rst) ∧ pinRead .dc s = .error (.invalidPinRole .dc)
      ∧ pinRead .pwr s = .error (.invalidPinRole .pwr)

/-- R124: a delay emits its event, also `T(0)`, and changes no other state (what the event says of real time is outside the
model, R7). -/
def Obligations.DelayOnlyEmitsItsEvent : Prop :=
  ∀ (s : State) (ms : Nat), delay ms s = .done { s with trace := s.trace ++ [.delayed ms] }

/-- R132, R133: a write needs the open bus; a transfer that completes sends every byte; one that fails sends a proper first
part, `k` bytes long when the environment says so, and raises. The bulk path sends the same. -/
def Obligations.BusWriteSendsAllOrAProperPart : Prop :=
  ∀ (s : State) (bytes : List Byte), bytes ≠ [] →
    (s.bus ≠ .opened → busWrite bytes s = .raised .notOpen s)
      ∧ (s.bus = .opened → (askTransfer s).1 = .completes →
          busWrite bytes s = .done ((askTransfer s).2.emit (.sent bytes)))
      ∧ (∀ k, s.bus = .opened → (askTransfer s).1 = .failsAfter k →
          ∃ part rest, bytes = part ++ rest ∧ rest ≠ [] ∧ (k < bytes.length → part.length = k)
            ∧ busWrite bytes s = .raised .busIOFailure ((askTransfer s).2.emit (.sent part)))
      ∧ busWriteBulk bytes s = busWrite bytes s

/-- R131, R134, R135 (the refusal of an open that is not described and the error of a second close are the spec's decision
D31): opening, closing, chip-select. -/
def Obligations.BusOpensAndClosesOnce : Prop :=
  (∀ (s : State) (b d : Nat), s.bus = .neverOpened →
      (busOpen b d s).1 = (askOpen s).1
        ∧ (busOpen b d s).2 = { s with
            bus := if (askOpen s).1 then .opened else .neverOpened
            trace := s.trace ++ [.opened (askOpen s).1]
            env := { s.env with opens := (askOpen s).2.env.opens } })
    ∧ (∀ s : State, s.seq = .idle → s.poisoned = false → s.life = .uninitialized → s.bus ≠ .neverOpened →
        exec .init s = .refused .openUndescribed ∧ exec .initFast s = .refused .openUndescribed
          ∧ exec .initPart s = .refused .openUndescribed)
    ∧ (∀ s : State, s.bus = .opened → busClose s = .done { s with bus := .closed, trace := s.trace ++ [.closed] })
    ∧ (∀ s : State, s.bus ≠ .opened → busClose s = .raised .notOpen s)
    ∧ (∀ s : State, csAssert s = .done { s with cs := .asserted, trace := s.trace ++ [.csAsserted] }
        ∧ csDeassert s = .done { s with cs := .deasserted, trace := s.trace ++ [.csDeasserted] })

/-- R31: BUS starts at `NeverOpened`, goes to `Open` by a bus open that succeeds, from `Open` to `Closed` by the bus close, and
nowhere else: over every step of the machine from a state of the invariant, with one such event in the trace exactly when BUS
moves; over every step of a list, whichever way it ends (a bus open being on `NeverOpened`, R131); and neither raising a fault nor the end of an operation moves it. Before the open and after the
close every write fails with `NotOpen`. -/
def Obligations.BusMovesOnlyByOpenAndClose : Prop :=
  State.reset.bus = .neverOpened
    ∧ (∀ s t : State, s.Inv → step s = .next t → ∃ events, t.trace = s.trace ++ events ∧
        (t.bus = s.bus ∧ events.count (.opened true) = 0 ∧ events.count .closed = 0
          ∨ s.bus = .neverOpened ∧ t.bus = .opened ∧ events.count (.opened true) = 1 ∧ events.count .closed = 0
          ∨ s.bus = .opened ∧ t.bus = .closed ∧ events.count (.opened true) = 0 ∧ events.count .closed = 1))
    ∧ (∀ (s : State) (f : Status) (emitted : Bool) (task : Task),
        (raise f emitted s).bus = s.bus ∧ (complete task s).bus = s.bus)
    ∧ (∀ (st : Step) (s t : State), (st = .openBus → s.bus = .neverOpened) →
      (takeStep st s = .done t ∨ takeStep st s = .again t ∨ ∃ f, takeStep st s = .raised f t) →
      t.bus = s.bus
        ∨ st = .openBus ∧ s.bus = .neverOpened ∧ (askOpen s).1 = true ∧ t.bus = .opened
        ∨ st = .closeBus ∧ s.bus = .opened ∧ t.bus = .closed)
    ∧ ∀ (s : State) (bytes : List Byte), s.bus ≠ .opened →
      busWrite bytes s = .raised .notOpen s ∧ busWriteBulk bytes s = .raised .notOpen s

/-- R141, R142, R143: the three frames on an open bus whose transfer completes, and where they end when it fails or the bus
is not open. -/
def Obligations.CommandProtocolFrames : Prop :=
  ∀ (s : State) (b : Byte) (bytes : List Byte),
    (s.bus = .opened → (askTransfer s).1 = .completes →
        sendCommand b s = .done { s with
            dc := .driven .low, cs := .deasserted, trace := s.trace ++ commandFrame b, env := (askTransfer s).2.env }
          ∧ sendData b s = .done { s with
            dc := .driven .high, cs := .deasserted, trace := s.trace ++ dataFrame [b], env := (askTransfer s).2.env }
          ∧ sendDataBulk bytes s = .done { s with
            dc := .driven .high, cs := .deasserted, trace := s.trace ++ dataFrame bytes, env := (askTransfer s).2.env })
      ∧ (∀ k, s.bus = .opened → (askTransfer s).1 = .failsAfter k → bytes ≠ [] →
        sendCommand b s = .raised .busIOFailure { s with
            dc := .driven .low, cs := .asserted, env := (askTransfer s).2.env
            trace := s.trace ++ [.pinWritten .dc .low, .csAsserted, .sent []] }
          ∧ sendData b s = .raised .busIOFailure { s with
            dc := .driven .high, cs := .asserted, env := (askTransfer s).2.env
            trace := s.trace ++ [.pinWritten .dc .high, .csAsserted, .sent []] }
          ∧ ∃ part rest, bytes = part ++ rest ∧ rest ≠ [] ∧ sendDataBulk bytes s = .raised .busIOFailure { s with
            dc := .driven .high, cs := .asserted, env := (askTransfer s).2.env
            trace := s.trace ++ [.pinWritten .dc .high, .csAsserted, .sent part] })
      ∧ (s.bus ≠ .opened →
        sendCommand b s = .raised .notOpen { s with
            dc := .driven .low, cs := .asserted, trace := s.trace ++ [.pinWritten .dc .low, .csAsserted] }
          ∧ sendData b s = .raised .notOpen { s with
            dc := .driven .high, cs := .asserted, trace := s.trace ++ [.pinWritten .dc .high, .csAsserted] }
          ∧ sendDataBulk bytes s = .raised .notOpen { s with
            dc := .driven .high, cs := .asserted, trace := s.trace ++ [.pinWritten .dc .high, .csAsserted] })

/-! ### The macros -/

/-- R152, R156: the reset pulse, whatever the latch held; it is used only by the three initialisations, where it stands
straight after the bus open and the power enable (that place of the power enable is the spec's decision D8). -/
def Obligations.ResetPulsesTheLine : Prop :=
  (∀ (s : State) (k : Nat),
      runSteps k resetSteps s = .finished { s with rst := .driven .high, trace := s.trace ++ resetPulse })
    ∧ (∀ (s : State) (m : Mode), [.openBus, .pin .pwr .high] ++ resetSteps <+: taskSteps (.init m) s)
    ∧ ∀ (s : State) (task : Task), .pin .rst .high ∈ taskSteps task s → ∃ m, task = .init m

/-- R153 (the shape of the loop is the spec's decision D9): one turn of the busy-wait on an open bus whose transfer
completes, for a sample that is ready, one that is not, and one that reaches the limit. -/
def Obligations.BusyWaitTurn : Prop :=
  ∀ s : State, s.bus = .opened → (askTransfer s).1 = .completes →
    ∃ env',
      takeStep .busy s = poll { s with polls := 0 }
        ∧ ((askBusy s).1 = .high →
          poll s = .done { s with
            dc := .driven .low, cs := .deasserted, env := env', trace := s.trace ++ readyWait })
        ∧ ((askBusy s).1 = .low → (∀ l, s.cfg.busyPollLimit = some l → s.polls + 1 < l) →
          poll s = .again { s with
            dc := .driven .low, cs := .deasserted, env := env', polls := s.polls + 1
            trace := s.trace ++ notReadyTurn s.cfg.pollDelayMs })
        ∧ (∀ l, (askBusy s).1 = .low → s.cfg.busyPollLimit = some l → l ≤ s.polls + 1 →
          poll s = .raised .busyTimeout { s with
            dc := .driven .low, cs := .deasserted, env := env', polls := s.polls + 1
            trace := s.trace ++ commandFrame 0x71 ++ [.busyRead .low] })

/-- R153, R303: the hang. While every sample is not ready, with no poll limit, an operation that waits never replies: every
number of steps ends in a state that still waits, with LIFE, MODE, the replies and the calls to come as they were and one
more turn of the loop in the trace for each step. -/
def Obligations.UnboundedWaitHangs : Prop :=
  ∀ (s : State) (task : Task) (k n : Nat), s.seq = .running task k → (taskSteps task s)[k]? = some .busy →
    s.cfg.busyPollLimit = none → s.bus = .opened → .openBus ∉ (taskSteps task s).drop k →
    s.env.transfers.always .completes → s.env.busy.always .low →
    ∃ t, core.run n s = .next t ∧ t.seq = s.seq ∧ t.life = s.life ∧ t.mode = s.mode ∧ t.replies = s.replies
      ∧ t.inbox = s.inbox ∧ t.bench = s.bench ∧ t.faults = s.faults ∧ t.polls = s.polls + n
      ∧ t.trace = s.trace ++ (List.replicate n (notReadyTurn s.cfg.pollDelayMs)).flatten

/-- R153, R257 (the limit is counted in polls by the spec's decision D9): with the limit `l` set, the sample that makes
POLLS reach it ends the operation with `BusyTimeout` and poisons, with no delay after that sample. -/
def Obligations.BoundedWaitTimesOut : Prop :=
  ∀ (s : State) (task : Task) (k l n : Nat), s.seq = .running task k → (taskSteps task s)[k]? = some .busy →
    s.cfg.busyPollLimit = some l → s.polls + n + 1 = l → s.bus = .opened → .openBus ∉ (taskSteps task s).drop k →
    s.env.transfers.always .completes → s.env.busy.always .low →
    ∃ t, core.run (n + 1) s = .next t ∧ t.seq = .idle ∧ t.life = s.life ∧ t.mode = s.mode ∧ t.polls = l
      ∧ t.poisoned = true ∧ t.faults = addFault .busyTimeout s.faults
      ∧ t.replies = s.replies ++ [.status .busyTimeout]
      ∧ t.trace = s.trace ++ (List.replicate n (notReadyTurn s.cfg.pollDelayMs)).flatten ++ commandFrame 0x71
          ++ [.busyRead .low]

/-- R153, R160, R164: with `j` more samples that are not ready and then one that is, and no poll limit or one that these do
not reach, DISPLAY and CLEAR, waiting at their last step, reply `OK` after `j + 1` steps of the machine (one step for each
sample is log entry 5, the loop the spec's decision D9). -/
def Obligations.WaitEndsAtTheFirstReadySample : Prop :=
  ∀ (s : State) (task : Task) (j : Nat) (later : List Level), ((∃ buf, task = .display buf) ∨ task = .clear) →
    s.seq = .running task 6 → (∀ l, s.cfg.busyPollLimit = some l → s.polls + j < l) → s.bus = .opened →
    s.env.transfers.always .completes → s.env.busy.script = List.replicate j .low ++ .high :: later →
    ∃ t, core.run (j + 1) s = .next t ∧ t.seq = .idle ∧ t.life = s.life ∧ t.mode = s.mode ∧ t.polls = s.polls + j
      ∧ t.faults = s.faults ∧ t.poisoned = s.poisoned ∧ t.env.busy.script = later
      ∧ t.replies = s.replies ++ [.status .ok]
      ∧ t.trace = s.trace ++ (List.replicate j (notReadyTurn s.cfg.pollDelayMs)).flatten ++ readyWait

/-- R151, R153, R28 (one step of the machine for each sample is log entry 5, the loop the spec's decision D9): how an
operation waits. A request admitted when the first busy sample is not ready, and a poll limit, if there is one, above 1,
leaves SEQ at the operation's first busy-wait, POLLS at 1 and the trace at that sample and its delay. Where that busy-wait
stands in DISPLAY, CLEAR, DISPLAY_PARTIAL, SLEEP and the initialisations. And every operation that waits, with `j` more
samples that are not ready and then one that is, below the limit, goes on after `j + 1` steps of the machine with its
remaining steps, from the state that the busy-wait leaves. -/
def Obligations.OperationsWaitAndGoOn : Prop :=
  (∀ (s : State) (task : Task) (k : Nat) (later : List Level), s.Inv → admitted task s →
      (taskSteps task s)[k]? = some .busy → .busy ∉ (taskSteps task s).take k →
      (∀ m, task = .init m → (askOpen s).1 = true) → s.env.transfers.always .completes →
      s.env.busy.script = .low :: later → (∀ l, s.cfg.busyPollLimit = some l → 1 < l) →
      ∃ env', env'.busy.script = later ∧ env'.transfers.always .completes ∧ exec (instrOf task) s = .next { s with
        seq := .running task k
        polls := 1
        dc := .driven .low
        rst := raisedBy task s.rst
        pwr := raisedBy task s.pwr
        bus := .opened
        cs := .deasserted
        trace := s.trace ++ ((taskSteps task s).take k).flatMap readyEvents ++ notReadyTurn s.cfg.pollDelayMs
        env := env' })
    ∧ (∀ (s : State) (buf : List Byte) (win : Window),
      (taskSteps (.display buf) s)[6]? = some .busy ∧ .busy ∉ (taskSteps (.display buf) s).take 6
        ∧ (taskSteps .clear s)[6]? = some .busy ∧ .busy ∉ (taskSteps .clear s).take 6
        ∧ (taskSteps (.displayPartial buf win) s)[18]? = some .busy
        ∧ .busy ∉ (taskSteps (.displayPartial buf win) s).take 18
        ∧ (taskSteps .sleep s)[1]? = some .busy ∧ .busy ∉ (taskSteps .sleep s).take 1)
    ∧ (∀ (s : State) (m : Mode), initSeqWf s.cfg m s.w s.h (s.cfg.initSeq m) = true →
      ∃ k, (taskSteps (.init m) s)[8 + k]? = some .busy ∧ .busy ∉ (taskSteps (.init m) s).take (8 + k))
    ∧ ∀ (s : State) (task : Task) (k j : Nat) (later : List Level), s.seq = .running task k →
      (taskSteps task s)[k]? = some .busy → (∀ l, s.cfg.busyPollLimit = some l → s.polls + j < l) → s.bus = .opened →
      .openBus ∉ (taskSteps task s).drop k → s.env.transfers.always .completes →
      s.env.busy.script = List.replicate j .low ++ .high :: later →
      ∃ (u : State) (start : Nat), u = { s with
          dc := .driven .low
          cs := .deasserted
          polls := s.polls + j
          trace := s.trace ++ (List.replicate j (notReadyTurn s.cfg.pollDelayMs)).flatten ++ readyWait
          env := u.env }
        ∧ u.env.busy.script = later ∧ u.env.transfers.always .completes
        ∧ core.run (j + 1) s = .next (settle task true start (runSteps (k + 1) ((taskSteps task s).drop (k + 1)) u))

/-! ### Faults -/

/-- R25, R251, R262 (the record FAULTS, the bit POISONED and the free chip-select are the spec's decisions D21, D25 and log
entry 7): what raising a fault does, with and without an event of the operation before it. -/
def Obligations.RaiseRecordsRepliesAndPoisons : Prop :=
  ∀ (f : Status) (s : State),
    raise f false s = { s with seq := .idle, faults := addFault f s.faults, replies := s.replies ++ [.status f] }
      ∧ raise .busOpenFailure true s = raise .busOpenFailure false s
      ∧ (f ≠ .busOpenFailure → raise f true s = { s with
          seq := .idle
          faults := addFault f s.faults
          replies := s.replies ++ [.status f]
          poisoned := true
          cs := Config.csAfterFault s.csDraws
          csDraws := s.csDraws + 1 })
      ∧ (∀ g : Status, hasFault (addFault f s.faults) g = (hasFault s.faults g || decide (g.code = f.code)))

/-- R155, R261, R263: while POISONED is set every host operation but ENCODE is refused with `Poisoned`, whatever LIFE and
the operands are; nothing changes but FAULTS and the reply (the spec's decisions D21, D22, D25). -/
def Obligations.PoisonedRefusesAllButEncode : Prop :=
  ∀ (s : State) (buf : List Byte) (win : Window), s.seq = .idle → s.poisoned = true →
    exec .init s = .next (cleanRefusal .poisoned s) ∧ exec .initFast s = .next (cleanRefusal .poisoned s)
      ∧ exec .initPart s = .next (cleanRefusal .poisoned s) ∧ exec (.display buf) s = .next (cleanRefusal .poisoned s)
      ∧ exec (.displayPartial buf win) s = .next (cleanRefusal .poisoned s)
      ∧ exec .clear s = .next (cleanRefusal .poisoned s) ∧ exec .sleep s = .next (cleanRefusal .poisoned s)

/-- R155, R168, R253: an operation outside the lifecycle state it needs is refused with
`PreconditionViolation(BadState)`, whatever its operands are; no event, no change but FAULTS and the reply. -/
def Obligations.WrongLifecycleIsRefused : Prop :=
  ∀ (s : State) (buf : List Byte) (win : Window), s.seq = .idle → s.poisoned = false →
    (s.life ≠ .uninitialized →
        exec .init s = .next (cleanRefusal (.preconditionViolation .badState) s)
          ∧ exec .initFast s = .next (cleanRefusal (.preconditionViolation .badState) s)
          ∧ exec .initPart s = .next (cleanRefusal (.preconditionViolation .badState) s))
      ∧ (s.life ≠ .poweredOn →
        exec (.display buf) s = .next (cleanRefusal (.preconditionViolation .badState) s)
          ∧ exec (.displayPartial buf win) s = .next (cleanRefusal (.preconditionViolation .badState) s)
          ∧ exec .clear s = .next (cleanRefusal (.preconditionViolation .badState) s)
          ∧ exec .sleep s = .next (cleanRefusal (.preconditionViolation .badState) s))

/-- R254: a buffer whose length is not `N = ceil(W / 8) * H` is refused, whatever the window is. -/
def Obligations.WrongLengthIsRefused : Prop :=
  ∀ (s : State) (buf : List Byte) (win : Window), s.seq = .idle → s.poisoned = false → s.life = .poweredOn →
    buf.length ≠ (s.width.toNat + 7) / 8 * s.height.toNat →
    exec (.display buf) s = .next (cleanRefusal (.preconditionViolation .badLength) s)
      ∧ exec (.displayPartial buf win) s = .next (cleanRefusal (.preconditionViolation .badLength) s)

/-- R161, R255: a window that is empty or outside the panel is refused (the bounds are the spec's decision D13). -/
def Obligations.InvalidWindowIsRefused : Prop :=
  ∀ (s : State) (buf : List Byte) (win : Window), s.seq = .idle → s.poisoned = false → s.life = .poweredOn →
    buf.length = planeLen s.w s.h →
    (win.xe ≤ win.xs ∨ s.width.toNat < win.xe ∨ win.ye ≤ win.ys ∨ s.height.toNat < win.ye) →
    exec (.displayPartial buf win) s = .next (cleanRefusal (.preconditionViolation .badWindow) s)

/-- R100, R155, R259: a reserved OPSEL is refused with `InvalidOp` and the OPSEL, also when poisoned (the spec's decision
D29). -/
def Obligations.ReservedOpselIsInvalidOp : Prop :=
  ∀ (s : State) (low : BitVec 3), s.seq = .idle →
    exec (.reservedOpsel low) s = .next (cleanRefusal (.invalidOp (BitVec.ofNat 4 (8 + low.toNat))) s)

/-- R131, R156, R252: an initialisation whose bus open fails emits `OPEN=false` and nothing else, changes no line and no
lifecycle state, does not poison, and replies `BusOpenFailure` (the spec's decision D28). -/
def Obligations.BusOpenFailureIsClean : Prop :=
  ∀ s : State, s.seq = .idle → s.poisoned = false → s.life = .uninitialized → s.bus = .neverOpened →
    (askOpen s).1 = false → (∀ m, .openBus ∉ s.cfg.initSeq m) →
    ∃ t, exec .init s = .next t ∧ exec .initFast s = .next t ∧ exec .initPart s = .next t
      ∧ t = { s with
        trace := s.trace ++ [.opened false]
        faults := addFault .busOpenFailure s.faults
        replies := s.replies ++ [.status .busOpenFailure]
        env := { s.env with opens := t.env.opens } }

/-- R136, R251, R256, R257, R262 (the spec's decision D21): a fault in mid-sequence stops the operation at its step. For every
operation and every split of its steps into those before the fault, the step that raises and those after it: the steps before
have happened, none after starts, and the next state is where the raising step came to, with the fault recorded and replied,
POISONED set, chip-select free, and LIFE and MODE not written. The same for an operation in progress, at the sample it waits
for or at a later step. (`BusOpenFailure` is not in mid-sequence, R252; it is the statement before this one.) Last, DISPLAY
whose first transfer fails, written out. -/
def Obligations.FaultStopsTheOperationAtItsStep : Prop :=
  (∀ (s : State) (task : Task) (before after : List Step) (st : Step) (f : Status) (u v : State), s.Inv →
      admitted task s → taskSteps task s = before ++ st :: after → runSteps 0 before s = .finished u →
      takeStep st u = .raised f v → f ≠ .busOpenFailure →
      exec (instrOf task) s = .next (stoppedBy f v) ∧ v.life = s.life ∧ v.mode = s.mode ∧ v.faults = s.faults
        ∧ v.replies = s.replies ∧ ∃ events, v.trace = u.trace ++ events)
    ∧ (∀ (s : State) (task : Task) (k : Nat) (f : Status) (v : State), s.Inv → s.seq = .running task k →
      poll s = .raised f v →
      step s = .next (stoppedBy f v) ∧ v.life = s.life ∧ v.mode = s.mode ∧ v.faults = s.faults ∧ v.replies = s.replies)
    ∧ (∀ (s : State) (task : Task) (k : Nat) (before after : List Step) (st : Step) (f : Status) (w u v : State), s.Inv →
      s.seq = .running task k → poll s = .done w → (taskSteps task s).drop (k + 1) = before ++ st :: after →
      runSteps (k + 1) before w = .finished u → takeStep st u = .raised f v →
      step s = .next (stoppedBy f v) ∧ v.life = s.life ∧ v.mode = s.mode ∧ v.faults = s.faults
        ∧ v.replies = s.replies ∧ ∃ events, v.trace = u.trace ++ events)
    ∧ ∀ (s : State) (buf : List Byte) (k : Nat), s.seq = .idle → s.poisoned = false → s.life = .poweredOn →
      s.bus = .opened → buf.length = planeLen s.w s.h → (askTransfer s).1 = .failsAfter k →
      ∃ t, exec (.display buf) s = .next t ∧ sameOutside s t ∧ t.mode = s.mode ∧ t.poisoned = true ∧ t.seq = .idle
        ∧ t.faults = addFault .busIOFailure s.faults ∧ t.replies = s.replies ++ [.status .busIOFailure]
        ∧ t.trace = s.trace ++ [.pinWritten .dc .low, .csAsserted, .sent []]

/-! ### The host operations when all goes well -/

/-- R156, R158, R159, R172: the three initialisations, for every sequence that R172 allows, in an environment where all
goes well (the order of power-enable and the default sequences are the spec's decisions D6, D8). -/
def Obligations.InitialisationCompletes : Prop :=
  ∀ (s : State) (i : Instr) (m : Mode), (i = .init ∧ m = .full ∨ i = .initFast ∧ m = .fast ∨ i = .initPart ∧ m = .part) →
    s.seq = .idle → s.poisoned = false → s.life = .uninitialized → s.bus = .neverOpened → s.env.ready →
    initSeqWf s.cfg m s.w s.h (s.cfg.initSeq m) = true →
    ∃ t dc' env', exec i s = .next t ∧ env'.ready
      ∧ t = { s with
        life := .poweredOn
        mode := some m
        bus := .opened
        rst := .driven .high
        pwr := .driven .high
        dc := .driven dc'
        cs := .deasserted
        polls := 0
        trace := s.trace ++ [.opened true, .pinWritten .pwr .high] ++ resetPulse ++ (s.cfg.initSeq m).flatMap readyEvents
        replies := s.replies ++ [.status .ok]
        env := env' }

/-- R160: DISPLAY of a buffer of the right length. -/
def Obligations.DisplayCompletes : Prop :=
  ∀ (s : State) (buf : List Byte), s.seq = .idle → s.poisoned = false → s.life = .poweredOn → s.bus = .opened →
    s.env.ready → buf.length = planeLen s.w s.h →
    ∃ env', exec (.display buf) s = .next { s with
        dc := .driven .low
        cs := .deasserted
        polls := 0
        trace := s.trace ++ displayEvents buf
        replies := s.replies ++ [.status .ok]
        env := env' } ∧ env'.ready

/-- R162, R103: DISPLAY_PARTIAL of a buffer of the right length and a valid window, in every mode; MODE becomes Partial
(the readings are the spec's decisions D11, D12). -/
def Obligations.DisplayPartialCompletes : Prop :=
  ∀ (s : State) (buf : List Byte) (win : Window), s.seq = .idle → s.poisoned = false → s.life = .poweredOn →
    s.bus = .opened → s.env.ready → buf.length = planeLen s.w s.h →
    win.xs < win.xe → win.xe ≤ s.w → win.ys < win.ye → win.ye ≤ s.h →
    ∃ env', exec (.displayPartial buf win) s = .next { s with
        mode := some .part
        dc := .driven .low
        cs := .deasserted
        polls := 0
        trace := s.trace ++ displayPartialEvents (quantize win) (windowPlane s.w buf (quantize win))
        replies := s.replies ++ [.status .ok]
        env := env' } ∧ env'.ready

/-- R164: CLEAR sends two planes of the fill bytes (the bytes and the settle are the spec's decision D15). -/
def Obligations.ClearCompletes : Prop :=
  ∀ s : State, s.seq = .idle → s.poisoned = false → s.life = .poweredOn → s.bus = .opened → s.env.ready →
    ∃ env', exec .clear s = .next { s with
        dc := .driven .low
        cs := .deasserted
        polls := 0
        trace := s.trace ++ clearEvents (planeLen s.w s.h) s.cfg.clearOldFill s.cfg.clearNewFill
        replies := s.replies ++ [.status .ok]
        env := env' } ∧ env'.ready

/-- R166: SLEEP (the order of the release is the spec's decision D8). -/
def Obligations.SleepCompletes : Prop :=
  ∀ s : State, s.seq = .idle → s.poisoned = false → s.life = .poweredOn → s.bus = .opened → s.env.ready →
    ∃ env', exec .sleep s = .next { s with
        life := .sleeping
        mode := none
        bus := .closed
        rst := .driven .low
        dc := .driven .low
        pwr := .driven .low
        cs := .deasserted
        polls := 0
        trace := s.trace ++ sleepEvents
        replies := s.replies ++ [.status .ok]
        env := env' } ∧ env'.ready

/-- R190, R192, R195: ENCODE answers in every lifecycle state and when poisoned, changes nothing but the reply, and its
buffer always has `N` bytes; a size that is neither the panel's nor its transpose gives the white buffer and the warning
(that the white buffer is not inverted again is the spec's decision D24). -/
def Obligations.EncodeAnswersInEveryState : Prop :=
  ∀ (s : State) (img : Image), s.seq = .idle → img.pix.length = img.iw * img.ih →
    ∃ warn out, exec (.encode img) s = .next { s with replies := s.replies ++ [.encoded warn out] }
      ∧ out.length = planeLen s.w s.h
      ∧ (warn = true ↔ ¬(img.iw = s.w ∧ img.ih = s.h) ∧ ¬(img.iw = s.h ∧ img.ih = s.w))
      ∧ (warn = true → ∀ b ∈ out, b = 0x00)

/-- What the host operations leave alone, on every path: DISPLAY, CLEAR and DISPLAY_PARTIAL write no line but DC, and
neither LIFE nor BUS; DISPLAY and CLEAR leave MODE; SLEEP and the initialisations leave the geometry, the parameters and the
calls to come; RESERVED_OPSEL and ENCODE send nothing (R160, R162, R164, R166, R190, R265). -/
def Obligations.HostOperationsLeaveTheRestAlone : Prop :=
  (∀ (s t : State) (buf : List Byte), exec (.display buf) s = .next t → sameOutside s t ∧ t.mode = s.mode)
    ∧ (∀ s t : State, exec .clear s = .next t → sameOutside s t ∧ t.mode = s.mode)
    ∧ (∀ (s t : State) (buf : List Byte) (win : Window), exec (.displayPartial buf win) s = .next t →
        sameOutside s t ∧ (t.mode = s.mode ∨ t.mode = some .part))
    ∧ (∀ s t : State, exec .sleep s = .next t →
        t.width = s.width ∧ t.height = s.height ∧ t.cfg = s.cfg ∧ t.inbox = s.inbox ∧ t.bench = s.bench
          ∧ t.env.opens = s.env.opens
          ∧ (t.replies ≠ s.replies ++ [.status .ok] →
            t.life = s.life ∧ t.mode = s.mode ∧ t.rst = s.rst ∧ t.pwr = s.pwr ∧ t.bus = s.bus))
    ∧ (∀ (s t : State) (i : Instr), i = .init ∨ i = .initFast ∨ i = .initPart → exec i s = .next t →
        t.width = s.width ∧ t.height = s.height ∧ t.cfg = s.cfg ∧ t.inbox = s.inbox ∧ t.bench = s.bench
          ∧ (t.replies ≠ s.replies ++ [.status .ok] → t.life = s.life ∧ t.mode = s.mode))
    ∧ (∀ (s t : State) (low : BitVec 3), exec (.reservedOpsel low) s = .next t →
        t = { s with faults := t.faults, replies := t.replies })
    ∧ (∀ (s t : State) (img : Image), exec (.encode img) s = .next t → t = { s with replies := t.replies })

/-- R25, R251: FAULTS, POISONED and the counter of free chip-select levels change only when the operation ends with a fault
in its reply: over every instruction, and over every step of the machine, an operation in progress among them (FAULTS and
POISONED are the spec's decisions D21, D25). -/
def Obligations.FaultRecordsChangeOnlyWithAFault : Prop :=
  (∀ (s t : State) (i : Instr), exec i s = .next t → (∀ f, f ≠ .ok → t.replies ≠ s.replies ++ [.status f]) →
      t.faults = s.faults ∧ t.poisoned = s.poisoned ∧ t.csDraws = s.csDraws)
    ∧ ∀ s t : State, step s = .next t → (∀ f, f ≠ .ok → t.replies ≠ s.replies ++ [.status f]) →
      t.faults = s.faults ∧ t.poisoned = s.poisoned ∧ t.csDraws = s.csDraws

/-- R39, R297, R300 (the spec's decision D26 and its ruling U9, "the host touching the lines"): the host's one move is a
request. No instruction has a meaning while an operation is in progress. No request is a wire symbol. And while no test of a
component has a symbol to hand over (log entry 3), which no step brings about, a step moves a line, the bus, chip-select or
the trace only as the work of an operation: one in progress, or one that it takes and admits. -/
def Obligations.HostHasNoMoveButRequests : Prop :=
  (∀ (s : State) (i : Instr) (task : Task) (k : Nat), s.seq = .running task k → exec i s = .refused .requestWhileRunning)
    ∧ (∀ (r : Request) (i : Instr) (w : Symbol), decode (.request r) = .ok i → encode i ≠ .symbol w)
    ∧ ∀ s t : State, s.bench = [] → step s = .next t →
      t.bench = []
        ∧ (sameWires s t
          ∨ (∃ task k, s.seq = .running task k)
          ∨ ∃ r rest task, s.inbox = r :: rest ∧ decode (.request r) = .ok (instrOf task)
            ∧ admitted task { s with inbox := rest })

/-- R191: an image that does not hold `iw * ih` samples is no request, and given to the meaning it faults. -/
def Obligations.ImagesHoldTheirSamples : Prop :=
  ∀ (s : State) (img : Image), s.seq = .idle → img.pix.length ≠ img.iw * img.ih →
    decode (encode (.encode img)) = .error .imageShape ∧ exec (.encode img) s = .fault .sampleOutOfRange

/-! ### Windows, bytes, pixels -/

/-- R211, R213: what Quantize gives, on every window. -/
def Obligations.QuantizeWidensToByteBoundaries : Prop :=
  ∀ win : Window,
    (win.xs % 8 = 0 → win.xe % 8 = 0 → quantize win = win)
      ∧ (¬(win.xs % 8 = 0 ∧ win.xe % 8 = 0) →
          (quantize win).xs = win.xs - win.xs % 8
            ∧ (win.xe % 8 = 0 → (quantize win).xe = win.xe)
            ∧ (win.xe % 8 ≠ 0 → (quantize win).xe = win.xe - win.xe % 8 + 8))
      ∧ (quantize win).ys = win.ys ∧ (quantize win).ye = win.ye

/-- R214, R216 (the spec's inferences from R211): alignment, containment, idempotence, and the ranges of a valid window. -/
def Obligations.QuantizedWindowFitsThePanel : Prop :=
  ∀ (win : Window) (w h : Nat),
    (quantize win).xs % 8 = 0 ∧ (quantize win).xe % 8 = 0 ∧ quantize (quantize win) = quantize win
      ∧ (quantize win).xs ≤ win.xs ∧ win.xs ≤ (quantize win).xs + 7
      ∧ win.xe ≤ (quantize win).xe ∧ (quantize win).xe ≤ win.xe + 7
      ∧ quantize win = { win with xs := 8 * (win.xs / 8), xe := 8 * ((win.xe + 7) / 8) }
      ∧ (windowValid w h win = true → w ≤ 65535 → h ≤ 65535 →
          (quantize win).xs < (quantize win).xe ∧ 8 ≤ (quantize win).xe ∧ (quantize win).xe ≤ 8 * strideOf w
            ∧ 1 ≤ windowBytes (quantize win) ∧ 1 ≤ windowRows (quantize win)
            ∧ (quantize win).xs ≤ 65528 ∧ (quantize win).xe - 1 ≤ 65535
            ∧ (quantize win).ys ≤ 65534 ∧ (quantize win).ye - 1 ≤ 65534)

/-- R79 (b), R162 (the index bound is the spec's inference): the window's bytes are read inside the buffer, row by row, each
complemented. -/
def Obligations.WindowPlaneHoldsTheComplementedBytes : Prop :=
  ∀ (w h : Nat) (buf : List Byte) (win : Window), windowValid w h win = true → buf.length = planeLen w h →
    (windowPlane w buf (quantize win)).length = windowBytes (quantize win) * windowRows (quantize win)
      ∧ ∀ j i, j < windowRows (quantize win) → i < windowBytes (quantize win) →
        ∃ b, buf[((quantize win).ys + j) * strideOf w + (quantize win).xs / 8 + i]? = some b
          ∧ (windowPlane w buf (quantize win))[j * windowBytes (quantize win) + i]? = some (~~~b)

/-- R95, and for the payloads R103 and R104 (the latter the spec's inference): the two bytes of a 16-bit value, high byte first
where one is sent, each byte a data step (the spec's decision D10). -/
def Obligations.HighAndLowByteMakeTheValue : Prop :=
  (∀ v : Nat, v ≤ 65535 →
      (hi8 v).toNat = v / 256 ∧ (lo8 v).toNat = v % 256 ∧ 256 * (hi8 v).toNat + (lo8 v).toNat = v)
    ∧ (∀ q : Window, setting .partialWindow (windowPayload q) =
      [.cmd .partialWindow, .dat (hi8 q.xs), .dat (lo8 q.xs), .dat (hi8 (q.xe - 1)), .dat (lo8 (q.xe - 1)), .dat (hi8 q.ys),
        .dat (lo8 q.ys), .dat (hi8 (q.ye - 1)), .dat (lo8 (q.ye - 1)), .dat 0x01])
    ∧ ∀ w h : Nat, setting .resolution (resolutionPayload w h) =
      [.cmd .resolution, .dat (hi8 w), .dat (lo8 w), .dat (hi8 h), .dat (lo8 h)]

/-- R198, R217 (e): the complement of a plane. -/
def Obligations.ComplementIsInvolutive : Prop :=
  ∀ plane : List Byte, complement (complement plane) = plane ∧ (complement plane).length = plane.length
    ∧ ∀ (i : Nat) (b : Byte), plane[i]? = some b → ∃ c, (complement plane)[i]? = some c ∧ c.toNat = 255 - b.toNat

/-- R61, R64, R65, R193, R196, R197: the buffer of an image of the panel's size, pixel by pixel: 0 (white) exactly where the
sample is at or above the threshold, and 1 in the pad bits (bit order, pad bits and threshold are the spec's decisions D17,
D18). -/
def Obligations.EncodedPixelsFollowTheThreshold : Prop :=
  ∀ (threshold w h : Nat) (dir : RotDir) (img : Image), img.wf = true → img.iw = w → img.ih = h →
    ∃ out, encodeImage threshold dir w h img = (false, out)
      ∧ (∀ x y v, x < w → y < h → img.pix[y * w + x]? = some v → pixelBit w out x y = some (decide (v.toNat < threshold)))
      ∧ (∀ x y, w ≤ x → x < 8 * strideOf w → y < h → pixelBit w out x y = some true)

/-- R194, R196, R65, R197: the buffer of an image of the transposed size, turned by 90 degrees in either direction, and 1 in
the pad bits (the direction is a parameter by the spec's decision D19; pad bits and threshold are D17, D18). -/
def Obligations.TransposedImagesAreRotated : Prop :=
  ∀ (threshold w h : Nat) (img : Image), img.wf = true → img.iw = h → img.ih = w → w ≠ h →
    ∃ ccw cw, encodeImage threshold .counterClockwise w h img = (false, ccw)
      ∧ encodeImage threshold .clockwise w h img = (false, cw)
      ∧ (∀ x y v, x < w → y < h → img.pix[x * h + (h - 1 - y)]? = some v →
          pixelBit w ccw x y = some (decide (v.toNat < threshold)))
      ∧ (∀ x y v, x < w → y < h → img.pix[(w - 1 - x) * h + y]? = some v →
          pixelBit w cw x y = some (decide (v.toNat < threshold)))
      ∧ (∀ x y, w ≤ x → x < 8 * strideOf w → y < h → pixelBit w ccw x y = some true ∧ pixelBit w cw x y = some true)

/-- R200 (the spec's inference): ENCODE and then DISPLAY of its buffer on a controller that is powered on, in an environment
where all goes well: the plane under 0x13 has the bit 0 exactly where the image is at or above the threshold, and the plane
under 0x10 is its complement. -/
def Obligations.EncodeThenDisplaySendsTheImage : Prop :=
  ∀ (s : State) (img : Image), s.seq = .idle → s.poisoned = false → s.life = .poweredOn → s.bus = .opened →
    s.env.ready → img.wf = true → img.iw = s.w → img.ih = s.h →
    ∃ t u out, exec (.encode img) s = .next t ∧ t.replies = s.replies ++ [.encoded false out]
      ∧ exec (.display out) t = .next u ∧ u.replies = s.replies ++ [.encoded false out, .status .ok]
      ∧ u.trace = s.trace ++ displayEvents out
      ∧ ∀ x y v, x < s.w → y < s.h → img.pix[y * s.w + x]? = some v →
        pixelBit s.w out x y = some (decide (v.toNat < s.cfg.threshold))
          ∧ pixelBit s.w (complement out) x y = some (decide (s.cfg.threshold ≤ v.toNat))

/-! ### Sequences and traces -/

/-- R157, R172 (the default is the spec's decision D6): the default sequences satisfy R172 for every geometry and every
open byte. -/
def Obligations.DefaultSequencesSatisfyTheConstraints : Prop :=
  ∀ (w h : Nat) (full fast part : Booster) (e0f e5f e0p e5p : Byte) (p b d : Nat),
    (defaultParams w h full fast part e0f e5f e0p e5p p b d).wf w h = true

/-- R172 (a), (f), R223: in every sequence that satisfies R172 there is one POWER_ON, and the busy-wait follows at once. -/
def Obligations.PowerOnIsFollowedByTheBusyWait : Prop :=
  ∀ (p : Params) (m : Mode) (w h : Nat) (l : List Step), initSeqWf p m w h l = true →
    ∃ before after, l = before ++ [.cmd .powerOn, .busy] ++ after ∧ .cmd .powerOn ∉ before ∧ .cmd .powerOn ∉ after
      ∧ .openBus ∉ l ∧ .closeBus ∉ l

/-- R170 (the spec's inference): the symbols of DISPLAY, CLEAR, DISPLAY_PARTIAL and SLEEP with a panel ready at the first
sample, from any level in force. -/
def Obligations.SymbolCountsOfTheOperations : Prop :=
  ∀ (dc : Latch) (buf sub : List Byte) (q : Window) (n : Nat) (oldFill newFill : Byte),
    (symbolsFrom dc (displayEvents buf)).length = 3 + 2 * buf.length + 1
      ∧ (symbolsFrom dc (clearEvents n oldFill newFill)).length = 3 + 2 * n + 1
      ∧ (symbolsFrom dc (displayPartialEvents q sub)).length = 16 + sub.length + 1
      ∧ (symbolsFrom dc sleepEvents).length = 3 + 1

/-- R145, R140: frames give their own symbols, whatever the level in force was. -/
def Obligations.FramesGiveTheirSymbols : Prop :=
  ∀ (dc : Latch) (b : Byte) (bytes : List Byte) (rest : List Event),
    symbolsFrom dc (commandFrame b ++ rest) = (.driven .low, b) :: symbolsFrom (.driven .low) rest
      ∧ symbolsFrom dc (dataFrame bytes ++ rest)
          = bytes.map (fun c => (.driven .high, c)) ++ symbolsFrom (.driven .high) rest

/-! ### The whole machine -/

/-- R23: the geometry is constant, and the host reads it in every state; no step and no construction changes it. The
parameters are constant too (R37, R77). -/
def Obligations.GeometryIsConstantAndReadable : Prop :=
  (∀ s t : State, step s = .next t →
      t.width = s.width ∧ t.height = s.height ∧ t.cfg = s.cfg ∧ readWidth t = readWidth s ∧ readHeight t = readHeight s)
    ∧ (∀ s : State, readWidth s = s.width.toNat ∧ readHeight s = s.height.toNat
        ∧ s.construct.width = s.width ∧ s.construct.height = s.height ∧ s.construct.cfg = s.cfg)

/-- R24, R25, R36: no step clears POISONED or removes a code from FAULTS, and the trace and the replies only grow, the
replies by at most one (POISONED and FAULTS are the spec's decisions D21, D25). -/
def Obligations.RecordsOnlyGrow : Prop :=
  ∀ s t : State, step s = .next t →
    (s.poisoned = true → t.poisoned = true)
      ∧ (∀ f, hasFault s.faults f = true → hasFault t.faults f = true)
      ∧ (∃ events, t.trace = s.trace ++ events)
      ∧ (t.replies = s.replies ∨ ∃ r, t.replies = s.replies ++ [r])

/-- R291, R168: no step leads back to `Uninitialized`, and none out of `Sleeping`; construction does. -/
def Obligations.LifecycleOnlyMovesForward : Prop :=
  (∀ s t : State, step s = .next t → s.life ≠ .uninitialized → t.life ≠ .uninitialized)
    ∧ (∀ s t : State, s.Inv → step s = .next t → s.life = .sleeping → t.life = .sleeping)
    ∧ ∀ s : State, s.construct.life = .uninitialized

/-- R307: once SLEEP has closed the bus, no step sends a byte, opens or closes the bus. -/
def Obligations.NothingIsSentAfterSleep : Prop :=
  ∀ s t : State, s.Inv → s.bus = .closed → step s = .next t →
    t.bus = .closed ∧ ∃ events, t.trace = s.trace ++ events
      ∧ ∀ e ∈ events, (∀ bytes, e ≠ .sent bytes) ∧ (∀ ok, e ≠ .opened ok) ∧ e ≠ .closed

/-- The invariant holds after construction (of the reference instance). -/
def Obligations.InvariantHoldsAtReset : Prop := State.reset.Inv

/-- Every step keeps the invariant: MODE goes with LIFE (R22), BUS with LIFE (R137), CS is deasserted (R32), the trace keeps
the frame discipline (R144) and the bus discipline (R31), the latches hold the last level driven (R29). -/
def Obligations.EveryStepKeepsTheInvariant : Prop :=
  ∀ s t : State, s.Inv → step s = .next t → t.Inv

/-- From a state of the invariant a step stops only by refusing a call that is no instruction (R99, R191): no host
operation and no symbol reaches a stop of the model. -/
def Obligations.OnlyUndecodableCallsStop : Prop :=
  ∀ s : State, s.Inv →
    (∀ f, step s ≠ .fault f) ∧ (∀ r, step s = .refused r → ∃ e, r = .undecodable e)

/-- R102, R150, R311: the canonical session, initialise, display, sleep, in an environment where all goes well: three steps,
three replies `OK`, the whole trace, and a run finished in good order. -/
def Obligations.CanonicalSessionFinishesInGoodOrder : Prop :=
  ∀ (s : State) (buf : List Byte), s.seq = .idle → s.poisoned = false → s.faults = 0 → s.life = .uninitialized →
    s.bus = .neverOpened → s.env.ready → initSeqWf s.cfg .full s.w s.h s.cfg.initFull = true →
    buf.length = planeLen s.w s.h → s.bench = [] →
    s.inbox = [emptyRequest 0, { emptyRequest 3 with buf := buf }, emptyRequest 6] →
    ∃ t, core.run 3 s = .next t ∧ finishedInGoodOrder t ∧ t.life = .sleeping ∧ t.bus = .closed ∧ t.inbox = []
      ∧ t.replies = s.replies ++ [.status .ok, .status .ok, .status .ok]
      ∧ t.trace = s.trace ++ [.opened true, .pinWritten .pwr .high] ++ resetPulse ++ s.cfg.initFull.flatMap readyEvents
          ++ displayEvents buf ++ sleepEvents
end

