-- ==== Sys2Proof/Laws/State.lean ====
section
/-! SUPPORT. One lemma for each field under each named update of the state, true by unfolding. -/

namespace Sys2Proof.Machine

@[simp] theorem emit_life (s : State) (e : Event) : (s.emit e).life = s.life := rfl
@[simp] theorem emit_mode (s : State) (e : Event) : (s.emit e).mode = s.mode := rfl
@[simp] theorem emit_width (s : State) (e : Event) : (s.emit e).width = s.width := rfl
@[simp] theorem emit_height (s : State) (e : Event) : (s.emit e).height = s.height := rfl
@[simp] theorem emit_poisoned (s : State) (e : Event) : (s.emit e).poisoned = s.poisoned := rfl
@[simp] theorem emit_faults (s : State) (e : Event) : (s.emit e).faults = s.faults := rfl
@[simp] theorem emit_seq (s : State) (e : Event) : (s.emit e).seq = s.seq := rfl
@[simp] theorem emit_polls (s : State) (e : Event) : (s.emit e).polls = s.polls := rfl
@[simp] theorem emit_rst (s : State) (e : Event) : (s.emit e).rst = s.rst := rfl
@[simp] theorem emit_dc (s : State) (e : Event) : (s.emit e).dc = s.dc := rfl
@[simp] theorem emit_pwr (s : State) (e : Event) : (s.emit e).pwr = s.pwr := rfl
@[simp] theorem emit_bus (s : State) (e : Event) : (s.emit e).bus = s.bus := rfl
@[simp] theorem emit_cs (s : State) (e : Event) : (s.emit e).cs = s.cs := rfl
@[simp] theorem emit_trace (s : State) (e : Event) : (s.emit e).trace = s.trace ++ [e] := rfl
@[simp] theorem emit_inbox (s : State) (e : Event) : (s.emit e).inbox = s.inbox := rfl
@[simp] theorem emit_bench (s : State) (e : Event) : (s.emit e).bench = s.bench := rfl
@[simp] theorem emit_replies (s : State) (e : Event) : (s.emit e).replies = s.replies := rfl
@[simp] theorem emit_cfg (s : State) (e : Event) : (s.emit e).cfg = s.cfg := rfl
@[simp] theorem emit_env (s : State) (e : Event) : (s.emit e).env = s.env := rfl
@[simp] theorem emit_csDraws (s : State) (e : Event) : (s.emit e).csDraws = s.csDraws := rfl

@[simp] theorem answer_life (s : State) (r : Reply) : (s.answer r).life = s.life := rfl
@[simp] theorem answer_mode (s : State) (r : Reply) : (s.answer r).mode = s.mode := rfl
@[simp] theorem answer_width (s : State) (r : Reply) : (s.answer r).width = s.width := rfl
@[simp] theorem answer_height (s : State) (r : Reply) : (s.answer r).height = s.height := rfl
@[simp] theorem answer_poisoned (s : State) (r : Reply) : (s.answer r).poisoned = s.poisoned := rfl
@[simp] theorem answer_faults (s : State) (r : Reply) : (s.answer r).faults = s.faults := rfl
@[simp] theorem answer_seq (s : State) (r : Reply) : (s.answer r).seq = s.seq := rfl
@[simp] theorem answer_polls (s : State) (r : Reply) : (s.answer r).polls = s.polls := rfl
@[simp] theorem answer_rst (s : State) (r : Reply) : (s.answer r).rst = s.rst := rfl
@[simp] theorem answer_dc (s : State) (r : Reply) : (s.answer r).dc = s.dc := rfl
@[simp] theorem answer_pwr (s : State) (r : Reply) : (s.answer r).pwr = s.pwr := rfl
@[simp] theorem answer_bus (s : State) (r : Reply) : (s.answer r).bus = s.bus := rfl
@[simp] theorem answer_cs (s : State) (r : Reply) : (s.answer r).cs = s.cs := rfl
@[simp] theorem answer_trace (s : State) (r : Reply) : (s.answer r).trace = s.trace := rfl
@[simp] theorem answer_inbox (s : State) (r : Reply) : (s.answer r).inbox = s.inbox := rfl
@[simp] theorem answer_bench (s : State) (r : Reply) : (s.answer r).bench = s.bench := rfl
@[simp] theorem answer_replies (s : State) (r : Reply) : (s.answer r).replies = s.replies ++ [r] := rfl
@[simp] theorem answer_cfg (s : State) (r : Reply) : (s.answer r).cfg = s.cfg := rfl
@[simp] theorem answer_env (s : State) (r : Reply) : (s.answer r).env = s.env := rfl
@[simp] theorem answer_csDraws (s : State) (r : Reply) : (s.answer r).csDraws = s.csDraws := rfl

@[simp] theorem poison_life (s : State) : (poison s).life = s.life := rfl
@[simp] theorem poison_mode (s : State) : (poison s).mode = s.mode := rfl
@[simp] theorem poison_width (s : State) : (poison s).width = s.width := rfl
@[simp] theorem poison_height (s : State) : (poison s).height = s.height := rfl
@[simp] theorem poison_poisoned (s : State) : (poison s).poisoned = true := rfl
@[simp] theorem poison_faults (s : State) : (poison s).faults = s.faults := rfl
@[simp] theorem poison_seq (s : State) : (poison s).seq = s.seq := rfl
@[simp] theorem poison_polls (s : State) : (poison s).polls = s.polls := rfl
@[simp] theorem poison_rst (s : State) : (poison s).rst = s.rst := rfl
@[simp] theorem poison_dc (s : State) : (poison s).dc = s.dc := rfl
@[simp] theorem poison_pwr (s : State) : (poison s).pwr = s.pwr := rfl
@[simp] theorem poison_bus (s : State) : (poison s).bus = s.bus := rfl
@[simp] theorem poison_cs (s : State) : (poison s).cs = Config.csAfterFault s.csDraws := rfl
@[simp] theorem poison_trace (s : State) : (poison s).trace = s.trace := rfl
@[simp] theorem poison_inbox (s : State) : (poison s).inbox = s.inbox := rfl
@[simp] theorem poison_bench (s : State) : (poison s).bench = s.bench := rfl
@[simp] theorem poison_replies (s : State) : (poison s).replies = s.replies := rfl
@[simp] theorem poison_cfg (s : State) : (poison s).cfg = s.cfg := rfl
@[simp] theorem poison_env (s : State) : (poison s).env = s.env := rfl
@[simp] theorem poison_csDraws (s : State) : (poison s).csDraws = s.csDraws + 1 := rfl

@[simp] theorem askOpen_life (s : State) : (askOpen s).2.life = s.life := rfl
@[simp] theorem askOpen_mode (s : State) : (askOpen s).2.mode = s.mode := rfl
@[simp] theorem askOpen_width (s : State) : (askOpen s).2.width = s.width := rfl
@[simp] theorem askOpen_height (s : State) : (askOpen s).2.height = s.height := rfl
@[simp] theorem askOpen_poisoned (s : State) : (askOpen s).2.poisoned = s.poisoned := rfl
@[simp] theorem askOpen_faults (s : State) : (askOpen s).2.faults = s.faults := rfl
@[simp] theorem askOpen_seq (s : State) : (askOpen s).2.seq = s.seq := rfl
@[simp] theorem askOpen_polls (s : State) : (askOpen s).2.polls = s.polls := rfl
@[simp] theorem askOpen_rst (s : State) : (askOpen s).2.rst = s.rst := rfl
@[simp] theorem askOpen_dc (s : State) : (askOpen s).2.dc = s.dc := rfl
@[simp] theorem askOpen_pwr (s : State) : (askOpen s).2.pwr = s.pwr := rfl
@[simp] theorem askOpen_bus (s : State) : (askOpen s).2.bus = s.bus := rfl
@[simp] theorem askOpen_cs (s : State) : (askOpen s).2.cs = s.cs := rfl
@[simp] theorem askOpen_trace (s : State) : (askOpen s).2.trace = s.trace := rfl
@[simp] theorem askOpen_inbox (s : State) : (askOpen s).2.inbox = s.inbox := rfl
@[simp] theorem askOpen_bench (s : State) : (askOpen s).2.bench = s.bench := rfl
@[simp] theorem askOpen_replies (s : State) : (askOpen s).2.replies = s.replies := rfl
@[simp] theorem askOpen_cfg (s : State) : (askOpen s).2.cfg = s.cfg := rfl
@[simp] theorem askOpen_csDraws (s : State) : (askOpen s).2.csDraws = s.csDraws := rfl
@[simp] theorem askOpen_env_transfers (s : State) : (askOpen s).2.env.transfers = s.env.transfers := rfl
@[simp] theorem askOpen_env_busy (s : State) : (askOpen s).2.env.busy = s.env.busy := rfl

@[simp] theorem askTransfer_life (s : State) : (askTransfer s).2.life = s.life := rfl
@[simp] theorem askTransfer_mode (s : State) : (askTransfer s).2.mode = s.mode := rfl
@[simp] theorem askTransfer_width (s : State) : (askTransfer s).2.width = s.width := rfl
@[simp] theorem askTransfer_height (s : State) : (askTransfer s).2.height = s.height := rfl
@[simp] theorem askTransfer_poisoned (s : State) : (askTransfer s).2.poisoned = s.poisoned := rfl
@[simp] theorem askTransfer_faults (s : State) : (askTransfer s).2.faults = s.faults := rfl
@[simp] theorem askTransfer_seq (s : State) : (askTransfer s).2.seq = s.seq := rfl
@[simp] theorem askTransfer_polls (s : State) : (askTransfer s).2.polls = s.polls := rfl
@[simp] theorem askTransfer_rst (s : State) : (askTransfer s).2.rst = s.rst := rfl
@[simp] theorem askTransfer_dc (s : State) : (askTransfer s).2.dc = s.dc := rfl
@[simp] theorem askTransfer_pwr (s : State) : (askTransfer s).2.pwr = s.pwr := rfl
@[simp] theorem askTransfer_bus (s : State) : (askTransfer s).2.bus = s.bus := rfl
@[simp] theorem askTransfer_cs (s : State) : (askTransfer s).2.cs = s.cs := rfl
@[simp] theorem askTransfer_trace (s : State) : (askTransfer s).2.trace = s.trace := rfl
@[simp] theorem askTransfer_inbox (s : State) : (askTransfer s).2.inbox = s.inbox := rfl
@[simp] theorem askTransfer_bench (s : State) : (askTransfer s).2.bench = s.bench := rfl
@[simp] theorem askTransfer_replies (s : State) : (askTransfer s).2.replies = s.replies := rfl
@[simp] theorem askTransfer_cfg (s : State) : (askTransfer s).2.cfg = s.cfg := rfl
@[simp] theorem askTransfer_csDraws (s : State) : (askTransfer s).2.csDraws = s.csDraws := rfl
@[simp] theorem askTransfer_env_opens (s : State) : (askTransfer s).2.env.opens = s.env.opens := rfl
@[simp] theorem askTransfer_env_busy (s : State) : (askTransfer s).2.env.busy = s.env.busy := rfl

@[simp] theorem askBusy_life (s : State) : (askBusy s).2.life = s.life := rfl
@[simp] theorem askBusy_mode (s : State) : (askBusy s).2.mode = s.mode := rfl
@[simp] theorem askBusy_width (s : State) : (askBusy s).2.width = s.width := rfl
@[simp] theorem askBusy_height (s : State) : (askBusy s).2.height = s.height := rfl
@[simp] theorem askBusy_poisoned (s : State) : (askBusy s).2.poisoned = s.poisoned := rfl
@[simp] theorem askBusy_faults (s : State) : (askBusy s).2.faults = s.faults := rfl
@[simp] theorem askBusy_seq (s : State) : (askBusy s).2.seq = s.seq := rfl
@[simp] theorem askBusy_polls (s : State) : (askBusy s).2.polls = s.polls := rfl
@[simp] theorem askBusy_rst (s : State) : (askBusy s).2.rst = s.rst := rfl
@[simp] theorem askBusy_dc (s : State) : (askBusy s).2.dc = s.dc := rfl
@[simp] theorem askBusy_pwr (s : State) : (askBusy s).2.pwr = s.pwr := rfl
@[simp] theorem askBusy_bus (s : State) : (askBusy s).2.bus = s.bus := rfl
@[simp] theorem askBusy_cs (s : State) : (askBusy s).2.cs = s.cs := rfl
@[simp] theorem askBusy_trace (s : State) : (askBusy s).2.trace = s.trace := rfl
@[simp] theorem askBusy_inbox (s : State) : (askBusy s).2.inbox = s.inbox := rfl
@[simp] theorem askBusy_bench (s : State) : (askBusy s).2.bench = s.bench := rfl
@[simp] theorem askBusy_replies (s : State) : (askBusy s).2.replies = s.replies := rfl
@[simp] theorem askBusy_cfg (s : State) : (askBusy s).2.cfg = s.cfg := rfl
@[simp] theorem askBusy_csDraws (s : State) : (askBusy s).2.csDraws = s.csDraws := rfl
@[simp] theorem askBusy_env_opens (s : State) : (askBusy s).2.env.opens = s.env.opens := rfl
@[simp] theorem askBusy_env_transfers (s : State) : (askBusy s).2.env.transfers = s.env.transfers := rfl

end Sys2Proof.Machine
end

