-- ==== Sys2Proof/Laws/Ops.lean ====
section
/-! SUPPORT. What each shared operation can do, said once: the frame, one step, raising, and what every step leaves alone. -/

namespace Sys2Proof.Machine

/-- A done turn goes on with the next primitive. -/
@[simp] theorem andThen_done (s : State) (next : State → Turn) : (Turn.done s).andThen next = next s := rfl

@[simp] theorem andThen_again (s : State) (next : State → Turn) : (Turn.again s).andThen next = .again s := rfl

@[simp] theorem andThen_raised (f : Status) (s : State) (next : State → Turn) :
    (Turn.raised f s).andThen next = .raised f s := rfl

/-- Everything a frame can do (R136, R141 to R143): complete, fail after a part of its bytes, or find the bus not open. -/
theorem sendFrame_busWrite (l : Level) (bytes : List Byte) (s : State) :
    sendFrame l (busWrite bytes) s =
      if s.bus = .opened then
        match (askTransfer s).1 with
        | .completes => .done { s with
            dc := .driven l, cs := .deasserted, env := (askTransfer s).2.env
            trace := s.trace ++ [.pinWritten .dc l, .csAsserted, .sent bytes, .csDeasserted] }
        | .failsAfter k => .raised .busIOFailure { s with
            dc := .driven l, cs := .asserted, env := (askTransfer s).2.env
            trace := s.trace ++ [.pinWritten .dc l, .csAsserted, .sent (sentPart k bytes)] }
      else .raised .notOpen { s with
            dc := .driven l, cs := .asserted, trace := s.trace ++ [.pinWritten .dc l, .csAsserted] } := by
  by_cases hb : s.bus = .opened
  · rcases ht : s.env.transfers.take Config.transferAnswer with ⟨r, a⟩
    cases r <;>
      simp [sendFrame, pinWrite, csAssert, busWrite, csDeassert, hb, askTransfer, ht, State.emit]
  · simp [sendFrame, pinWrite, csAssert, busWrite, hb, State.emit]

/-- The part of a failed transfer that left is a proper first part of its bytes (R132). -/
theorem sentPart_proper (k : Nat) (bytes : List Byte) (h : bytes ≠ []) :
    ∃ rest, bytes = sentPart k bytes ++ rest ∧ rest ≠ [] := by
  refine ⟨bytes.drop (min k (bytes.length - 1)), (List.take_append_drop _ _).symm, ?_⟩
  have : 0 < bytes.length := List.length_pos_iff.mpr h
  simp only [ne_eq, List.drop_eq_nil_iff, not_le]
  omega

/-- A failed transfer of one byte is known to have sent none (R132). -/
@[simp] theorem sentPart_one (k : Nat) (b : Byte) : sentPart k [b] = [] := by simp [sentPart]

/-- The three senders are frames. -/
theorem sendCommand_eq (b : Byte) (s : State) : sendCommand b s = sendFrame .low (busWrite [b]) s := rfl
theorem sendData_eq (b : Byte) (s : State) : sendData b s = sendFrame .high (busWrite [b]) s := rfl
theorem sendDataBulk_eq (bytes : List Byte) (s : State) :
    sendDataBulk bytes s = sendFrame .high (busWrite bytes) s := rfl

/-- The state a turn ends in, whichever way it ends. -/
def Turn.state : Turn → State
  | .done s => s
  | .again s => s
  | .raised _ s => s

/-- The state a run of steps ends in, whichever way it ends. -/
def Run.state : Run → State
  | .finished s => s
  | .waiting _ s => s
  | .raised _ s => s

/-- What no step touches: LIFE, MODE, the geometry, POISONED, FAULTS, SEQ, the calls, the replies, the parameters, the
counter of free values; and the trace is only added to. -/
structure Moved (s t : State) : Prop where
  life : t.life = s.life
  mode : t.mode = s.mode
  width : t.width = s.width
  height : t.height = s.height
  poisoned : t.poisoned = s.poisoned
  faults : t.faults = s.faults
  seq : t.seq = s.seq
  inbox : t.inbox = s.inbox
  bench : t.bench = s.bench
  replies : t.replies = s.replies
  cfg : t.cfg = s.cfg
  csDraws : t.csDraws = s.csDraws
  trace : ∃ events, t.trace = s.trace ++ events

theorem Moved.refl (s : State) : Moved s s :=
  ⟨rfl, rfl, rfl, rfl, rfl, rfl, rfl, rfl, rfl, rfl, rfl, rfl, [], by simp⟩

theorem Moved.trans {s t u : State} (a : Moved s t) (b : Moved t u) : Moved s u := by
  obtain ⟨ea, ha⟩ := a.trace
  obtain ⟨eb, hb⟩ := b.trace
  exact ⟨b.life.trans a.life, b.mode.trans a.mode, b.width.trans a.width, b.height.trans a.height,
    b.poisoned.trans a.poisoned, b.faults.trans a.faults, b.seq.trans a.seq, b.inbox.trans a.inbox, b.bench.trans a.bench,
    b.replies.trans a.replies, b.cfg.trans a.cfg, b.csDraws.trans a.csDraws, ea ++ eb, by simp [hb, ha]⟩

/-- A frame moves only lines, environment and trace. -/
theorem sendFrame_moved (l : Level) (bytes : List Byte) (s : State) :
    Moved s (sendFrame l (busWrite bytes) s).state := by
  rw [sendFrame_busWrite]
  split
  · split
    · exact ⟨rfl, rfl, rfl, rfl, rfl, rfl, rfl, rfl, rfl, rfl, rfl, rfl, _, rfl⟩
    · exact ⟨rfl, rfl, rfl, rfl, rfl, rfl, rfl, rfl, rfl, rfl, rfl, rfl, _, rfl⟩
  · exact ⟨rfl, rfl, rfl, rfl, rfl, rfl, rfl, rfl, rfl, rfl, rfl, rfl, _, rfl⟩

/-- What follows the sample, and the sample itself, move only lines, counter, environment and trace. -/
theorem afterSample_moved (l : Level) (s : State) : Moved s (afterSample l s).state := by
  cases l with
  | high => exact ⟨rfl, rfl, rfl, rfl, rfl, rfl, rfl, rfl, rfl, rfl, rfl, rfl, _, rfl⟩
  | low =>
    simp only [afterSample]
    split
    · exact ⟨rfl, rfl, rfl, rfl, rfl, rfl, rfl, rfl, rfl, rfl, rfl, rfl, [], by simp [Turn.state]⟩
    · exact ⟨rfl, rfl, rfl, rfl, rfl, rfl, rfl, rfl, rfl, rfl, rfl, rfl, _, rfl⟩

/-- The query of the busy-wait, said with the frame: what `poll` does (R153). -/
theorem poll_eq (s : State) :
    poll s = (sendFrame .low (busWrite [0x71]) s).andThen fun t =>
      afterSample (askBusy t).1 ((askBusy t).2.emit (.busyRead (askBusy t).1)) := rfl

theorem poll_moved (s : State) : Moved s (poll s).state := by
  rw [poll_eq]
  have h := sendFrame_moved .low [0x71] s
  rcases hf : sendFrame .low (busWrite [0x71]) s with t | t | ⟨f, t⟩
  · rw [hf] at h
    have sampled : Moved t ((askBusy t).2.emit (.busyRead (askBusy t).1)) :=
      ⟨rfl, rfl, rfl, rfl, rfl, rfl, rfl, rfl, rfl, rfl, rfl, rfl, _, rfl⟩
    exact h.trans (sampled.trans (afterSample_moved _ _))
  · rw [hf] at h; exact h
  · rw [hf] at h; exact h

theorem pinWrite_moved (p : Pin) (l : Level) (s : State) : Moved s (pinWrite p l s).state := by
  cases p
  case busy => exact Moved.refl s
  all_goals exact ⟨rfl, rfl, rfl, rfl, rfl, rfl, rfl, rfl, rfl, rfl, rfl, rfl, _, rfl⟩

/-- Opening the bus, said with its two outcomes (R131, R156). -/
theorem takeStep_openBus (s : State) :
    takeStep .openBus s =
      if (askOpen s).1 = true then
        .done { s with bus := .opened, trace := s.trace ++ [.opened true], env := (askOpen s).2.env }
      else .raised .busOpenFailure { s with trace := s.trace ++ [.opened false], env := (askOpen s).2.env } := by
  rcases h : s.env.opens.take Config.openAnswer with ⟨ok, a⟩
  cases ok <;> simp [takeStep, busOpen, askOpen, h, State.emit]

/-- Closing the bus (R134). -/
theorem takeStep_closeBus (s : State) :
    takeStep .closeBus s =
      if s.bus = .opened then .done { s with bus := .closed, trace := s.trace ++ [.closed] } else .raised .notOpen s := rfl

/-- The busy-wait starts from no polls (R153). -/
theorem takeStep_busy (s : State) : takeStep .busy s = poll { s with polls := 0 } := rfl

/-- No step touches more than lines, POLLS, the bus, the environment and the trace. -/
theorem takeStep_moved (st : Step) (s : State) : Moved s (takeStep st s).state := by
  cases st with
  | openBus =>
    rw [takeStep_openBus]
    split <;> exact ⟨rfl, rfl, rfl, rfl, rfl, rfl, rfl, rfl, rfl, rfl, rfl, rfl, _, rfl⟩
  | pin p l => exact pinWrite_moved p l s
  | wait ms => exact ⟨rfl, rfl, rfl, rfl, rfl, rfl, rfl, rfl, rfl, rfl, rfl, rfl, _, rfl⟩
  | cmd op => exact sendFrame_moved .low [op.byte] s
  | dat b => exact sendFrame_moved .high [b] s
  | bulk bytes => exact sendFrame_moved .high bytes s
  | busy =>
    have h := poll_moved { s with polls := 0 }
    exact ⟨h.life, h.mode, h.width, h.height, h.poisoned, h.faults, h.seq, h.inbox, h.bench, h.replies, h.cfg, h.csDraws,
      h.trace⟩
  | closeBus =>
    rw [takeStep_closeBus]
    split
    · exact ⟨rfl, rfl, rfl, rfl, rfl, rfl, rfl, rfl, rfl, rfl, rfl, rfl, _, rfl⟩
    · exact Moved.refl s

/-- One run of steps, unfolded at its first step. -/
theorem runSteps_cons (k : Nat) (st : Step) (rest : List Step) (s : State) :
    runSteps k (st :: rest) s =
      match takeStep st s with
      | .done s' => runSteps (k + 1) rest s'
      | .again s' => .waiting k s'
      | .raised f s' => .raised f s' := rfl

@[simp] theorem runSteps_nil (k : Nat) (s : State) : runSteps k [] s = .finished s := rfl

/-- The same of a run of steps. -/
theorem runSteps_moved (l : List Step) (k : Nat) (s : State) : Moved s (runSteps k l s).state := by
  induction l generalizing k s with
  | nil => exact Moved.refl s
  | cons st rest ih =>
    have h := takeStep_moved st s
    rw [runSteps_cons]
    rcases hs : takeStep st s with t | t | ⟨f, t⟩ <;> rw [hs] at h
    · exact h.trans (ih (k + 1) t)
    · exact h
    · exact h

/-- The same of a run that goes on with a busy-wait under way. -/
theorem resumeSteps_moved (l : List Step) (k : Nat) (s : State) : Moved s (resumeSteps k l s).state := by
  unfold resumeSteps
  split
  · have h := poll_moved s
    rcases hp : poll s with t | t | ⟨f, t⟩ <;> rw [hp] at h
    · exact h.trans (runSteps_moved _ _ _)
    · exact h
    · exact h
  · exact runSteps_moved _ _ _

/-- A wait is left only at a busy-wait. -/
theorem takeStep_again {st : Step} {s t : State} (h : takeStep st s = .again t) : st = .busy := by
  have frame : ∀ l bytes, sendFrame l (busWrite bytes) s ≠ .again t := by
    intro l bytes
    rw [sendFrame_busWrite]
    split
    · split <;> simp
    · simp
  cases st with
  | openBus => rw [takeStep_openBus] at h; split at h <;> simp at h
  | pin p l => cases p <;> simp [takeStep, pinWrite] at h
  | wait ms => simp [takeStep, delay] at h
  | cmd op => exact absurd h (frame .low [op.byte])
  | dat b => exact absurd h (frame .high [b])
  | bulk bytes => exact absurd h (frame .high bytes)
  | busy => rfl
  | closeBus => rw [takeStep_closeBus] at h; split at h <;> simp at h

/-- A run of steps waits only at a busy-wait of its list. -/
theorem runSteps_waiting {l : List Step} {k j : Nat} {s t : State} (h : runSteps k l s = .waiting j t) :
    k ≤ j ∧ l[j - k]? = some .busy := by
  induction l generalizing k s with
  | nil => simp at h
  | cons st rest ih =>
    rw [runSteps_cons] at h
    rcases hs : takeStep st s with u | u | ⟨f, u⟩ <;> rw [hs] at h
    · obtain ⟨hk, hb⟩ := ih h
      refine ⟨by omega, ?_⟩
      rw [show j - k = (j - (k + 1)) + 1 by omega]
      simpa using hb
    · obtain ⟨rfl, -⟩ : k = j ∧ u = t := by simpa using h
      simp [takeStep_again hs]
    · simp at h

end Sys2Proof.Machine
end

