-- ==== Sys2Proof/Laws/Lines.lean ====
section
/-! SUPPORT. What steps do to the trace's disciplines (R31, R144), to the lines (R29) and to a ready environment (R16). -/

namespace Sys2Proof.Machine

theorem frameRun_append (p : FramePos) (xs ys : List Event) :
    frameRun p (xs ++ ys) = (frameRun p xs).bind fun q => frameRun q ys := by
  induction xs generalizing p with
  | nil => rfl
  | cons e rest ih => cases h : frameNext p e <;> simp [frameRun, h, ih]

theorem busRun_append (b : BusState) (xs ys : List Event) :
    busRun b (xs ++ ys) = (busRun b xs).bind fun c => busRun c ys := by
  induction xs generalizing b with
  | nil => rfl
  | cons e rest ih => cases h : busNext b e <;> simp [busRun, h, ih]

/-- A framed trace stays framed when a list follows that is framed from any position outside. -/
theorem framed_append {t es : List Event} (ht : framed t = true)
    (hes : ∀ b, ∃ c, frameRun (.outside b) es = some (.outside c)) : framed (t ++ es) = true := by
  unfold framed at ht ⊢
  rw [frameRun_append]
  split at ht
  · next b h =>
    obtain ⟨c, hc⟩ := hes b
    simp [h, hc]
  all_goals simp at ht

/-- The trace discipline of the bus, and the latches as the trace drove them. -/
structure LinesOk (s : State) : Prop where
  bus : busRun .neverOpened s.trace = some s.bus
  rst : s.rst = s.trace.foldl (latchAfter .rst) .u
  dc : s.dc = s.trace.foldl (latchAfter .dc) .u
  pwr : s.pwr = s.trace.foldl (latchAfter .pwr) .u

/-- Lines that agree with a trace agree with a longer one when the new events explain the new lines. -/
theorem LinesOk.extend {s t : State} (h : LinesOk s) (es : List Event) (ht : t.trace = s.trace ++ es)
    (hb : busRun s.bus es = some t.bus) (hr : t.rst = es.foldl (latchAfter .rst) s.rst)
    (hd : t.dc = es.foldl (latchAfter .dc) s.dc) (hp : t.pwr = es.foldl (latchAfter .pwr) s.pwr) : LinesOk t :=
  ⟨by rw [ht, busRun_append, h.bus]; simpa using hb, by rw [ht, List.foldl_append, ← h.rst, hr],
    by rw [ht, List.foldl_append, ← h.dc, hd], by rw [ht, List.foldl_append, ← h.pwr, hp]⟩

/-- Chip-select deasserted and every frame complete. -/
structure Clean (s : State) : Prop where
  cs : s.cs = .deasserted
  framing : framed s.trace = true

/-- How a turn leaves the disciplines: the lines always, the frames unless it raised, and on a quiet step the bus, the reset
line and the power line as they were. -/
structure TurnOk (s : State) (r : Turn) : Prop where
  lines : LinesOk s → LinesOk r.state
  clean : Clean s → ∀ t, r = .done t ∨ r = .again t → Clean t
  grows : ∀ t, r = .done t → s.trace.length < t.trace.length
  real : ∀ f t, r = .raised f t → f ≠ .ok

theorem sendFrame_ok (l : Level) (bytes : List Byte) (s : State) : TurnOk s (sendFrame l (busWrite bytes) s) := by
  rw [sendFrame_busWrite]
  split
  · next hb =>
    split
    · refine ⟨fun h => h.extend _ rfl ?_ ?_ ?_ ?_, ?_, ?_, ?_⟩
      · simp [busRun, busNext, hb, Turn.state]
      · simp [latchAfter, Turn.state]
      · simp [latchAfter, Turn.state]
      · simp [latchAfter, Turn.state]
      · rintro h t (ht | ht)
        · obtain rfl := Turn.done.inj ht
          exact ⟨rfl, framed_append h.framing fun b => ⟨false, by cases b <;> rfl⟩⟩
        · cases ht
      · intro t ht
        obtain rfl := Turn.done.inj ht
        simp
      · simp
    · refine ⟨fun h => h.extend _ rfl ?_ ?_ ?_ ?_, ?_, ?_, ?_⟩
      · simp [busRun, busNext, hb, Turn.state]
      · simp [latchAfter, Turn.state]
      · simp [latchAfter, Turn.state]
      · simp [latchAfter, Turn.state]
      · rintro h t (ht | ht) <;> cases ht
      · rintro t ht; cases ht
      · rintro f t ht; cases ht; simp
  · refine ⟨fun h => h.extend _ rfl ?_ ?_ ?_ ?_, ?_, ?_, ?_⟩
    · cases s.bus <;> simp [busRun, busNext, Turn.state]
    · simp [latchAfter, Turn.state]
    · simp [latchAfter, Turn.state]
    · simp [latchAfter, Turn.state]
    · rintro h t (ht | ht) <;> cases ht
    · rintro t ht; cases ht
    · rintro f t ht; cases ht; simp

/-- A step that only adds events which are neither frames nor bus events and drive no pin. -/
theorem plain_event_ok (s t : State) (e : Event) (ht : t.trace = s.trace ++ [e]) (hb : t.bus = s.bus) (hr : t.rst = s.rst)
    (hd : t.dc = s.dc) (hp : t.pwr = s.pwr) (he : (∃ ms, e = .delayed ms) ∨ ∃ l, e = .busyRead l) :
    (LinesOk s → LinesOk t) ∧ (Clean s → t.cs = s.cs → Clean t) := by
  rcases he with ⟨ms, rfl⟩ | ⟨l, rfl⟩
  all_goals
    refine ⟨fun h => h.extend _ ht ?_ ?_ ?_ ?_, fun h hc => ⟨hc.trans h.cs, ?_⟩⟩
    · cases hs : s.bus <;> simp [busRun, busNext, hb, hs]
    · simp [latchAfter, hr]
    · simp [latchAfter, hd]
    · simp [latchAfter, hp]
    · rw [ht]
      exact framed_append h.framing fun b => ⟨false, rfl⟩

theorem delay_ok (ms : Nat) (s : State) : TurnOk s (delay ms s) := by
  obtain ⟨hl, hc⟩ := plain_event_ok s (s.emit (.delayed ms)) (.delayed ms) rfl rfl rfl rfl rfl (.inl ⟨ms, rfl⟩)
  refine ⟨hl, ?_, ?_, by simp [delay]⟩
  · rintro h t (ht | ht) <;> cases ht
    exact hc h rfl
  · rintro t ht; cases ht; simp

theorem afterSample_ok (l : Level) (s : State) :
    (LinesOk s → LinesOk (afterSample l s).state)
      ∧ (Clean s → ∀ t, afterSample l s = .done t ∨ afterSample l s = .again t → Clean t)
      ∧ (∀ f t, afterSample l s = .raised f t → f ≠ .ok) := by
  cases l with
  | high => exact ⟨(delay_ok _ s).lines, (delay_ok _ s).clean, (delay_ok _ s).real⟩
  | low =>
    simp only [afterSample]
    split
    · refine ⟨fun h => ⟨h.bus, h.rst, h.dc, h.pwr⟩, ?_, ?_⟩
      · rintro h t (ht | ht) <;> cases ht
      · rintro f t ht; cases ht; simp
    · obtain ⟨hl, hc⟩ := plain_event_ok s (State.emit { s with polls := s.polls + 1 } (.delayed s.cfg.pollDelayMs))
        (.delayed s.cfg.pollDelayMs) rfl rfl rfl rfl rfl (.inl ⟨_, rfl⟩)
      refine ⟨hl, ?_, by simp⟩
      rintro h t (ht | ht) <;> cases ht
      exact hc h rfl

theorem poll_ok (s : State) : TurnOk s (poll s) := by
  have hf := sendFrame_ok .low [0x71] s
  rw [poll_eq]
  rcases hs : sendFrame .low (busWrite [0x71]) s with t | t | ⟨f, t⟩ <;> rw [hs] at hf
  · obtain ⟨hl, hc⟩ := plain_event_ok t ((askBusy t).2.emit (.busyRead (askBusy t).1)) _ rfl rfl rfl rfl rfl (.inr ⟨_, rfl⟩)
    obtain ⟨al, ac, ar⟩ := afterSample_ok (askBusy t).1 ((askBusy t).2.emit (.busyRead (askBusy t).1))
    refine ⟨fun h => al (hl (hf.lines h)), fun h => ac (hc (hf.clean h t (.inl rfl)) rfl), fun u hu => ?_, ar⟩
    have h1 := hf.grows t rfl
    obtain ⟨es, he⟩ := (afterSample_moved (askBusy t).1 ((askBusy t).2.emit (.busyRead (askBusy t).1))).trace
    simp only [andThen_done] at hu
    rw [hu] at he
    simp only [Turn.state, emit_trace, askBusy_trace] at he
    rw [he]
    simp
    omega
  · refine ⟨hf.lines, hf.clean, by simp, by simp⟩
  · refine ⟨hf.lines, by simp, by simp, ?_⟩
    intro g u hu
    simp only [andThen_raised, Turn.raised.injEq] at hu
    exact hf.real g u (by simpa using hu)

theorem pinWrite_ok (p : Pin) (l : Level) (s : State) : TurnOk s (pinWrite p l s) := by
  cases p
  case busy =>
    exact ⟨id, by simp [pinWrite], by simp [pinWrite], by simp [pinWrite]⟩
  all_goals
    refine ⟨fun h => h.extend _ rfl ?_ ?_ ?_ ?_, ?_, ?_, by simp [pinWrite]⟩
    · cases hb : s.bus <;> simp [busRun, busNext, hb, Turn.state, pinWrite]
    · simp [latchAfter, Turn.state, pinWrite]
    · simp [latchAfter, Turn.state, pinWrite]
    · simp [latchAfter, Turn.state, pinWrite]
    · rintro h t (ht | ht)
      · obtain rfl := Turn.done.inj ht
        exact ⟨h.cs, framed_append h.framing fun b => ⟨_, rfl⟩⟩
      · simp [pinWrite] at ht
    · intro t ht
      obtain rfl := Turn.done.inj ht
      simp

/-- Every step keeps the disciplines; a bus open needs a bus that is `NeverOpened` (R131). -/
theorem takeStep_ok (st : Step) (s : State) (ho : st = .openBus → s.bus = .neverOpened) : TurnOk s (takeStep st s) := by
  cases st with
  | openBus =>
    rw [takeStep_openBus]
    split
    · refine ⟨fun h => h.extend _ rfl ?_ rfl rfl rfl, ?_, ?_, by simp⟩
      · simp [busRun, busNext, ho rfl, Turn.state]
      · rintro h t (ht | ht) <;> cases ht
        exact ⟨h.cs, framed_append h.framing fun b => ⟨_, rfl⟩⟩
      · rintro t ht; cases ht; simp
    · refine ⟨fun h => h.extend _ rfl ?_ rfl rfl rfl, by simp, by simp, ?_⟩
      · simp [busRun, busNext, ho rfl, Turn.state]
      · rintro f t ht; cases ht; simp
  | pin p l => exact pinWrite_ok p l s
  | wait ms => exact delay_ok ms s
  | cmd op => exact sendFrame_ok .low [op.byte] s
  | dat b => exact sendFrame_ok .high [b] s
  | bulk bytes => exact sendFrame_ok .high bytes s
  | busy =>
    have h := poll_ok { s with polls := 0 }
    exact ⟨fun g => h.lines ⟨g.bus, g.rst, g.dc, g.pwr⟩, fun g => h.clean ⟨g.cs, g.framing⟩, h.grows, h.real⟩
  | closeBus =>
    rw [takeStep_closeBus]
    split
    · next hb =>
      refine ⟨fun h => h.extend _ rfl ?_ rfl rfl rfl, ?_, ?_, by simp⟩
      · simp [busRun, busNext, hb, Turn.state]
      · rintro h t (ht | ht) <;> cases ht
        exact ⟨h.cs, framed_append h.framing fun b => ⟨_, rfl⟩⟩
      · rintro t ht; cases ht; simp
    · refine ⟨id, by simp, by simp, ?_⟩
      rintro f t ht; cases ht; simp

/-- How a run of steps leaves the disciplines. -/
structure RunOk (s : State) (r : Run) : Prop where
  lines : LinesOk s → LinesOk r.state
  clean : Clean s → ∀ t, (r = .finished t ∨ ∃ k, r = .waiting k t) → Clean t
  real : ∀ f t, r = .raised f t → f ≠ .ok

/-- A run of steps without a bus open keeps the disciplines. -/
theorem runSteps_ok (l : List Step) (k : Nat) (s : State) (ho : .openBus ∉ l) : RunOk s (runSteps k l s) := by
  induction l generalizing k s with
  | nil =>
    refine ⟨id, ?_, by simp⟩
    rintro h t (ht | ⟨j, ht⟩) <;> cases ht
    exact h
  | cons st rest ih =>
    have h := takeStep_ok st s (by rintro rfl; simp at ho)
    rw [runSteps_cons]
    rcases hs : takeStep st s with t | t | ⟨f, t⟩ <;> rw [hs] at h
    · have hr := ih (k + 1) t (fun hm => ho (List.mem_cons_of_mem _ hm))
      exact ⟨fun g => hr.lines (h.lines g), fun g => hr.clean (h.clean g t (.inl rfl)), hr.real⟩
    · refine ⟨h.lines, ?_, by simp⟩
      rintro g u (hu | ⟨j, hu⟩) <;> cases hu
      exact h.clean g t (.inr rfl)
    · refine ⟨h.lines, ?_, ?_⟩
      · rintro g u (hu | ⟨j, hu⟩) <;> cases hu
      · rintro g u hu; cases hu; exact h.real f t rfl

/-- The steps that leave the bus and the reset and power lines alone. -/
def isQuiet : Step → Bool
  | .cmd _ => true
  | .dat _ => true
  | .wait _ => true
  | .bulk _ => true
  | .busy => true
  | .openBus => false
  | .pin _ _ => false
  | .closeBus => false

/-- Bus, reset and power line, and the answers to bus opens, as they were. -/
structure SameLines (s t : State) : Prop where
  bus : t.bus = s.bus
  rst : t.rst = s.rst
  pwr : t.pwr = s.pwr
  opens : t.env.opens = s.env.opens

theorem SameLines.trans {s t u : State} (a : SameLines s t) (b : SameLines t u) : SameLines s u :=
  ⟨b.bus.trans a.bus, b.rst.trans a.rst, b.pwr.trans a.pwr, b.opens.trans a.opens⟩

theorem sendFrame_quiet (l : Level) (bytes : List Byte) (s : State) :
    SameLines s (sendFrame l (busWrite bytes) s).state := by
  rw [sendFrame_busWrite]
  split
  · split <;> exact ⟨rfl, rfl, rfl, rfl⟩
  · exact ⟨rfl, rfl, rfl, rfl⟩

theorem poll_quiet (s : State) : SameLines s (poll s).state := by
  have h := sendFrame_quiet .low [0x71] s
  rw [poll_eq]
  rcases hs : sendFrame .low (busWrite [0x71]) s with t | t | ⟨f, t⟩ <;> rw [hs] at h
  · refine h.trans ?_
    cases hl : (askBusy t).1 with
    | high => simp only [andThen_done, hl]; exact ⟨rfl, rfl, rfl, rfl⟩
    | low =>
      simp only [andThen_done, hl, afterSample]
      split <;> exact ⟨rfl, rfl, rfl, rfl⟩
  · exact h
  · exact h

theorem takeStep_quiet {st : Step} (hq : isQuiet st = true) (s : State) : SameLines s (takeStep st s).state := by
  cases st with
  | cmd op => exact sendFrame_quiet .low [op.byte] s
  | dat b => exact sendFrame_quiet .high [b] s
  | bulk bytes => exact sendFrame_quiet .high bytes s
  | wait ms => exact ⟨rfl, rfl, rfl, rfl⟩
  | busy =>
    have h := poll_quiet { s with polls := 0 }
    exact ⟨h.bus, h.rst, h.pwr, h.opens⟩
  | openBus => simp [isQuiet] at hq
  | pin p l => simp [isQuiet] at hq
  | closeBus => simp [isQuiet] at hq

theorem runSteps_quiet (l : List Step) (hq : l.all isQuiet = true) (k : Nat) (s : State) :
    SameLines s (runSteps k l s).state := by
  induction l generalizing k s with
  | nil => exact ⟨rfl, rfl, rfl, rfl⟩
  | cons st rest ih =>
    simp only [List.all_cons, Bool.and_eq_true] at hq
    have h := takeStep_quiet hq.1 s
    rw [runSteps_cons]
    rcases hs : takeStep st s with t | t | ⟨f, t⟩ <;> rw [hs] at h
    · exact h.trans (ih hq.2 (k + 1) t)
    · exact h
    · exact h

theorem quiet_no_open {l : List Step} (hq : l.all isQuiet = true) : .openBus ∉ l := by
  intro hm
  have := List.all_eq_true.mp hq _ hm
  simp [isQuiet] at this

theorem setting_quiet {l : List Step} (h : l.all Step.isSetting = true) : l.all isQuiet = true := by
  rw [List.all_eq_true] at h ⊢
  intro st hst
  have := h st hst
  cases st <;> simp_all [Step.isSetting, isQuiet]

/-! ### A ready environment -/

theorem take_always {α : Type} {free : Nat → α} {a : Answers α} {x : α} (h : a.always x) :
    (a.take free).1 = x ∧ (a.take free).2.always x := by
  obtain ⟨hs, hr⟩ := h
  cases hscript : a.script with
  | nil => simp [Answers.take, hscript, hr, Answers.always]
  | cons y ys =>
    have hy : y = x := hs y (by simp [hscript])
    refine ⟨by simp [Answers.take, hscript, hy], ?_, by simp [Answers.take, hscript, hr]⟩
    intro z hz
    simp only [Answers.take, hscript] at hz
    exact hs z (by simp [hscript, hz])

theorem askTransfer_always {s : State} (h : s.env.transfers.always .completes) :
    (askTransfer s).1 = .completes ∧ (askTransfer s).2.env.transfers.always .completes :=
  take_always h

/-- A frame when every transfer completes. -/
theorem sendFrame_ready (l : Level) (bytes : List Byte) (s : State) (hb : s.bus = .opened)
    (he : s.env.transfers.always .completes) :
    ∃ tr, tr.always .completes ∧ sendFrame l (busWrite bytes) s = .done { s with
      dc := .driven l, cs := .deasserted, env := { s.env with transfers := tr }
      trace := s.trace ++ [.pinWritten .dc l, .csAsserted, .sent bytes, .csDeasserted] } := by
  obtain ⟨h1, h2⟩ := askTransfer_always he
  refine ⟨_, h2, ?_⟩
  rw [sendFrame_busWrite, if_pos hb, h1]
  rfl

/-- One turn of the busy-wait when the transfer completes (R153). -/
theorem poll_completes (s : State) (hb : s.bus = .opened) (he : s.env.transfers.always .completes) :
    ∃ tr, tr.always .completes ∧ poll s = afterSample (askBusy s).1 { s with
      dc := .driven .low, cs := .deasserted
      env := { s.env with transfers := tr, busy := (askBusy s).2.env.busy }
      trace := s.trace ++ commandFrame 0x71 ++ [.busyRead (askBusy s).1] } := by
  obtain ⟨tr, ht, h⟩ := sendFrame_ready .low [0x71] s hb he
  refine ⟨tr, ht, ?_⟩
  rw [poll_eq, h]
  simp [askBusy, State.emit, commandFrame]

/-- A busy-wait on a panel that is ready at once (R153). -/
theorem poll_ready (s : State) (hb : s.bus = .opened) (he : s.env.ready) :
    ∃ env', env'.ready ∧ poll s = .done { s with
      dc := .driven .low, cs := .deasserted, env := env', trace := s.trace ++ readyWait } := by
  obtain ⟨ho, ht, hbusy⟩ := he
  obtain ⟨tr, htr, h⟩ := poll_completes s hb ht
  obtain ⟨h1, h2⟩ := take_always (free := Config.busyAnswer) hbusy
  refine ⟨{ opens := s.env.opens, transfers := tr, busy := (s.env.busy.take Config.busyAnswer).2 }, ⟨ho, htr, h2⟩, ?_⟩
  rw [h, show (askBusy s).1 = .high from h1]
  simp [afterSample, delay, State.emit, readyWait, askBusy, Config.tReady]

/-- What a step leaves in a ready environment, on the open bus: the lines, CS, POLLS, BUS and the trace. -/
def readyStep (s : State) (st : Step) : State :=
  let s := { s with trace := s.trace ++ readyEvents st }
  match st with
  | .openBus => { s with bus := .opened }
  | .pin .rst l => { s with rst := .driven l }
  | .pin .dc l => { s with dc := .driven l }
  | .pin .pwr l => { s with pwr := .driven l }
  | .pin .busy _ => s
  | .wait _ => s
  | .cmd _ => { s with dc := .driven .low, cs := .deasserted }
  | .dat _ => { s with dc := .driven .high, cs := .deasserted }
  | .bulk _ => { s with dc := .driven .high, cs := .deasserted }
  | .busy => { s with dc := .driven .low, cs := .deasserted, polls := 0 }
  | .closeBus => { s with bus := .closed }

/-- The result of a quiet step in a ready environment. -/
theorem takeStep_ready {st : Step} (hq : isQuiet st = true) (s : State) (hb : s.bus = .opened) (he : s.env.ready) :
    ∃ env', env'.ready ∧ takeStep st s = .done { readyStep s st with env := env' } := by
  obtain ⟨ho, ht, hbusy⟩ := he
  cases st with
  | openBus => simp [isQuiet] at hq
  | pin p l => simp [isQuiet] at hq
  | closeBus => simp [isQuiet] at hq
  | wait ms => exact ⟨s.env, ⟨ho, ht, hbusy⟩, rfl⟩
  | cmd op =>
    obtain ⟨tr, htr, h⟩ := sendFrame_ready .low [op.byte] s hb ht
    exact ⟨{ s.env with transfers := tr }, ⟨ho, htr, hbusy⟩, h⟩
  | dat b =>
    obtain ⟨tr, htr, h⟩ := sendFrame_ready .high [b] s hb ht
    exact ⟨{ s.env with transfers := tr }, ⟨ho, htr, hbusy⟩, h⟩
  | bulk bytes =>
    obtain ⟨tr, htr, h⟩ := sendFrame_ready .high bytes s hb ht
    exact ⟨{ s.env with transfers := tr }, ⟨ho, htr, hbusy⟩, h⟩
  | busy =>
    obtain ⟨env', henv, h⟩ := poll_ready { s with polls := 0 } hb ⟨ho, ht, hbusy⟩
    exact ⟨env', henv, h⟩

/-- Quiet steps one after another in a ready environment. -/
theorem runSteps_ready (l : List Step) (hq : l.all isQuiet = true) (k : Nat) (s : State) (hb : s.bus = .opened)
    (he : s.env.ready) : ∃ env', env'.ready ∧ runSteps k l s = .finished { l.foldl readyStep s with env := env' } := by
  induction l generalizing k s with
  | nil => exact ⟨s.env, he, rfl⟩
  | cons st rest ih =>
    simp only [List.all_cons, Bool.and_eq_true] at hq
    obtain ⟨e1, h1, hs⟩ := takeStep_ready hq.1 s hb he
    have hbus : (readyStep s st).bus = .opened := by cases st <;> simp_all [readyStep, isQuiet]
    obtain ⟨e2, h2, hr⟩ := ih hq.2 (k + 1) { readyStep s st with env := e1 } hbus h1
    refine ⟨e2, h2, ?_⟩
    rw [runSteps_cons, hs]
    simp only [hr, List.foldl_cons, Run.finished.injEq]
    have key : ∀ (m : List Step) (u : State) (e : Environment),
        m.foldl readyStep { u with env := e } = { m.foldl readyStep u with env := e } := by
      intro m
      induction m with
      | nil => intros; rfl
      | cons a m ihm =>
        intro u e
        rw [List.foldl_cons, List.foldl_cons, ← ihm]
        cases a with
        | pin p l => cases p <;> rfl
        | _ => rfl
    rw [key]

end Sys2Proof.Machine
end

