-- ==== Sys2Proof/Laws/PerInstr.lean ====
section
/-! SUPPORT. One statement for each instruction as syntax: its encoding has the fixed bits of its row of
spec/opcode_table.json (R90, R93, R94, R100), the row's match and mask written out from the table. -/

namespace Sys2Proof.Laws.FixedBits

/-- The encoding as the table numbers its bits: a 9-bit wire symbol, or the 4-bit operation select. -/
def word : Call → Nat × Nat
  | .symbol w => (9, w.toNat)
  | .request r => (4, r.opsel.toNat)

/-- Width, mask and match of the instruction's row. -/
def row : Instr → Nat × Nat × Nat
  | .panelSetting => (9, 0x1FF, 0x000)
  | .powerSetting => (9, 0x1FF, 0x001)
  | .powerOff => (9, 0x1FF, 0x002)
  | .powerOn => (9, 0x1FF, 0x004)
  | .boosterSoftStart => (9, 0x1FF, 0x006)
  | .deepSleep => (9, 0x1FF, 0x007)
  | .oldImageData => (9, 0x1FF, 0x010)
  | .displayRefresh => (9, 0x1FF, 0x012)
  | .newImageData => (9, 0x1FF, 0x013)
  | .vcomDc => (9, 0x1FF, 0x015)
  | .vcomDataInterval => (9, 0x1FF, 0x050)
  | .tconSetting => (9, 0x1FF, 0x060)
  | .resolution => (9, 0x1FF, 0x061)
  | .statusQuery => (9, 0x1FF, 0x071)
  | .partialWindow => (9, 0x1FF, 0x090)
  | .partialIn => (9, 0x1FF, 0x091)
  | .crossRefE0 => (9, 0x1FF, 0x0E0)
  | .crossRefE5 => (9, 0x1FF, 0x0E5)
  | .data _ => (9, 0x100, 0x100)
  | .init => (4, 0xF, 0x0)
  | .initFast => (4, 0xF, 0x1)
  | .initPart => (4, 0xF, 0x2)
  | .display _ => (4, 0xF, 0x3)
  | .displayPartial _ _ => (4, 0xF, 0x4)
  | .clear => (4, 0xF, 0x5)
  | .sleep => (4, 0xF, 0x6)
  | .encode _ => (4, 0xF, 0x7)
  | .reservedOpsel _ => (4, 0x8, 0x8)

/-- The encoding has the row's width and, under the row's mask, the row's fixed bits. -/
def Statement (i : Instr) : Prop :=
  (word (encode i)).1 = (row i).1 ∧ (word (encode i)).2 &&& (row i).2.1 = (row i).2.2

/-- A data symbol has bit 8 set, whatever its byte. -/
theorem dataSymbol_bits (b : Byte) : (dataSymbol b).toNat &&& 0x100 = 0x100 := by
  have h : ∀ n : Fin 256, (dataSymbol (BitVec.ofFin n)).toNat &&& 0x100 = 0x100 := by decide +kernel
  exact h b.toFin

/-- A reserved operation select has bit 3 set, whatever its low bits. -/
theorem reserved_bits (low : BitVec 3) : (0x8 ||| low.setWidth 4 : Opsel).toNat &&& 0x8 = 0x8 := by
  have h : ∀ n : Fin 8, (0x8 ||| (BitVec.ofFin n : BitVec 3).setWidth 4 : Opsel).toNat &&& 0x8 = 0x8 := by decide +kernel
  exact h low.toFin

theorem panelSetting : Statement .panelSetting := ⟨rfl, rfl⟩
theorem powerSetting : Statement .powerSetting := ⟨rfl, rfl⟩
theorem powerOff : Statement .powerOff := ⟨rfl, rfl⟩
theorem powerOn : Statement .powerOn := ⟨rfl, rfl⟩
theorem boosterSoftStart : Statement .boosterSoftStart := ⟨rfl, rfl⟩
theorem deepSleep : Statement .deepSleep := ⟨rfl, rfl⟩
theorem oldImageData : Statement .oldImageData := ⟨rfl, rfl⟩
theorem displayRefresh : Statement .displayRefresh := ⟨rfl, rfl⟩
theorem newImageData : Statement .newImageData := ⟨rfl, rfl⟩
theorem vcomDc : Statement .vcomDc := ⟨rfl, rfl⟩
theorem vcomDataInterval : Statement .vcomDataInterval := ⟨rfl, rfl⟩
theorem tconSetting : Statement .tconSetting := ⟨rfl, rfl⟩
theorem resolution : Statement .resolution := ⟨rfl, rfl⟩
theorem statusQuery : Statement .statusQuery := ⟨rfl, rfl⟩
theorem partialWindow : Statement .partialWindow := ⟨rfl, rfl⟩
theorem partialIn : Statement .partialIn := ⟨rfl, rfl⟩
theorem crossRefE0 : Statement .crossRefE0 := ⟨rfl, rfl⟩
theorem crossRefE5 : Statement .crossRefE5 := ⟨rfl, rfl⟩
theorem data (b : Byte) : Statement (.data b) := ⟨rfl, dataSymbol_bits b⟩
theorem init : Statement .init := ⟨rfl, rfl⟩
theorem initFast : Statement .initFast := ⟨rfl, rfl⟩
theorem initPart : Statement .initPart := ⟨rfl, rfl⟩
theorem display (buf : List Byte) : Statement (.display buf) :=
  ⟨rfl, show (0x3 : Opsel).toNat &&& 0xF = 0x3 by decide⟩
theorem displayPartial (buf : List Byte) (win : Window) : Statement (.displayPartial buf win) :=
  ⟨rfl, show (0x4 : Opsel).toNat &&& 0xF = 0x4 by decide⟩
theorem clear : Statement .clear := ⟨rfl, rfl⟩
theorem sleep : Statement .sleep := ⟨rfl, rfl⟩
theorem encode (img : Image) : Statement (.encode img) :=
  ⟨rfl, show (0x7 : Opsel).toNat &&& 0xF = 0x7 by decide⟩
theorem reservedOpsel (low : BitVec 3) : Statement (.reservedOpsel low) := ⟨rfl, reserved_bits low⟩

end Sys2Proof.Laws.FixedBits
end

