-- ==== Sys2Proof/Laws/Task.lean ====
section
/-! SUPPORT. What a host operation can do, said once: admission, the step lists, how a run of steps ends, one step of the
machine. -/

namespace Sys2Proof.Machine

theorem whenIdle_idle {s : State} (h : s.seq = .idle) (m : Host.Outcome State Fault Refusal) : whenIdle s m = m := by
  simp [whenIdle, h]

theorem whenIdle_next {s t : State} {m : Host.Outcome State Fault Refusal} (h : whenIdle s m = .next t) :
    s.seq = .idle ∧ m = .next t := by
  unfold whenIdle at h
  split at h
  · exact ⟨by assumption, h⟩
  · cases h

/-- Admission with no failing check starts the operation (R155). -/
theorem admit_pass {s : State} (hs : s.seq = .idle) {checks : List (Bool × Status)} {task : Task}
    (h : firstFailure checks = none) : admitTask checks task s = startTask task s := by
  simp [admitTask, whenIdle_idle hs, h]

/-- Admission with a failing check is a clean refusal (R155, R265). -/
theorem admit_fail {s : State} (hs : s.seq = .idle) {checks : List (Bool × Status)} {task : Task} {f : Status}
    (h : firstFailure checks = some f) : admitTask checks task s = .next (cleanRefusal f s) := by
  simp [admitTask, whenIdle_idle hs, h, raise, poisons, cleanRefusal, State.answer, hs]

theorem lifeChecks_poisoned {s : State} (h : s.poisoned = true) (need : Life) (more : List (Bool × Status)) :
    firstFailure (lifeChecks need s ++ more) = some .poisoned := by
  simp [lifeChecks, firstFailure, h]

theorem lifeChecks_wrong {s : State} (h : s.poisoned = false) {need : Life} (hl : s.life ≠ need)
    (more : List (Bool × Status)) :
    firstFailure (lifeChecks need s ++ more) = some (.preconditionViolation .badState) := by
  simp [lifeChecks, firstFailure, h, hl]

theorem lifeChecks_pass {s : State} (h : s.poisoned = false) {need : Life} (hl : s.life = need)
    (more : List (Bool × Status)) : firstFailure (lifeChecks need s ++ more) = firstFailure more := by
  simp [lifeChecks, firstFailure, h, hl]

/-- Checks that all hold, the two of LIFE first. -/
theorem lifeChecks_none {s : State} {need : Life} {more : List (Bool × Status)}
    (h : firstFailure (lifeChecks need s ++ more) = none) : s.poisoned = false ∧ s.life = need := by
  cases hp : s.poisoned <;> by_cases hl : s.life = need <;> simp_all [lifeChecks, firstFailure]

/-- A check never fails with `OK`. -/
theorem firstFailure_mem {checks : List (Bool × Status)} {f : Status} (h : firstFailure checks = some f) :
    ∃ good, (good, f) ∈ checks := by
  induction checks with
  | nil => simp [firstFailure] at h
  | cons c rest ih =>
    obtain ⟨good, g⟩ := c
    cases good with
    | true =>
      obtain ⟨b, hb⟩ := ih (by simpa [firstFailure] using h)
      exact ⟨b, List.mem_cons_of_mem _ hb⟩
    | false =>
      obtain rfl : g = f := by simpa [firstFailure] using h
      exact ⟨false, List.mem_cons_self⟩

/-- Everything a meaning can do when it gives a next state: send one frame, refuse cleanly, start an operation whose
checks of LIFE and POISONED hold, or reply from ENCODE. -/
theorem exec_cases {i : Instr} {s t : State} (h : exec i s = .next t) :
    s.seq = .idle ∧
      ((∃ l b, t = settleCall s.trace.length (sendFrame l (busWrite [b]) s)) ∨
        (∃ f, f ≠ .ok ∧ t = raise f false s) ∨
        (∃ task, s.poisoned = false ∧ s.life = needOf task ∧ startTask task s = .next t) ∨
        ∃ warn out, t = s.answer (.encoded warn out)) := by
  have wire : ∀ l b, whenIdle s (.next (settleCall s.trace.length (sendFrame l (busWrite [b]) s))) = .next t →
      s.seq = .idle ∧ ∃ l b, t = settleCall s.trace.length (sendFrame l (busWrite [b]) s) := by
    intro l b hw
    obtain ⟨hs, ht⟩ := whenIdle_next hw
    exact ⟨hs, l, b, (Host.Outcome.next.inj ht).symm⟩
  have task : ∀ (task : Task) more, (∀ c ∈ more, c.2 ≠ .ok) → admitTask (lifeChecks (needOf task) s ++ more) task s = .next t →
      s.seq = .idle ∧ ((∃ f, f ≠ .ok ∧ t = raise f false s) ∨
        ∃ task, s.poisoned = false ∧ s.life = needOf task ∧ startTask task s = .next t) := by
    intro task more hm ha
    obtain ⟨hs, ht⟩ := whenIdle_next ha
    refine ⟨hs, ?_⟩
    split at ht
    · next f hf =>
      refine .inl ⟨f, ?_, (Host.Outcome.next.inj ht).symm⟩
      obtain ⟨b, hb⟩ := firstFailure_mem hf
      rcases List.mem_append.mp hb with hb | hb
      · simp only [lifeChecks, List.mem_cons, List.not_mem_nil, or_false, Prod.mk.injEq] at hb
        rcases hb with ⟨-, rfl⟩ | ⟨-, rfl⟩ <;> simp
      · exact hm _ hb
    · next hf =>
      obtain ⟨hp, hl⟩ := lifeChecks_none hf
      exact .inr ⟨task, hp, hl, ht⟩
  cases i
  case encode img =>
    obtain ⟨hs, ht⟩ := whenIdle_next h
    split at ht
    · exact ⟨hs, .inr (.inr (.inr ⟨_, _, (Host.Outcome.next.inj ht).symm⟩))⟩
    · simp at ht
  case reservedOpsel low =>
    obtain ⟨hs, ht⟩ := whenIdle_next h
    exact ⟨hs, .inr (.inl ⟨_, by simp, (Host.Outcome.next.inj ht).symm⟩)⟩
  case init =>
    obtain ⟨hs, ht⟩ := task (.init .full) [] (by simp) h
    exact ⟨hs, ht.elim (fun a => .inr (.inl a)) fun a => .inr (.inr (.inl a))⟩
  case initFast =>
    obtain ⟨hs, ht⟩ := task (.init .fast) [] (by simp) h
    exact ⟨hs, ht.elim (fun a => .inr (.inl a)) fun a => .inr (.inr (.inl a))⟩
  case initPart =>
    obtain ⟨hs, ht⟩ := task (.init .part) [] (by simp) h
    exact ⟨hs, ht.elim (fun a => .inr (.inl a)) fun a => .inr (.inr (.inl a))⟩
  case display buf =>
    obtain ⟨hs, ht⟩ := task (.display buf) (lengthCheck buf s) (by simp [lengthCheck]) h
    exact ⟨hs, ht.elim (fun a => .inr (.inl a)) fun a => .inr (.inr (.inl a))⟩
  case displayPartial buf win =>
    obtain ⟨hs, ht⟩ := task (.displayPartial buf win) (lengthCheck buf s ++ windowCheck win s)
      (by simp [lengthCheck, windowCheck]) (by rw [← List.append_assoc]; exact h)
    exact ⟨hs, ht.elim (fun a => .inr (.inl a)) fun a => .inr (.inr (.inl a))⟩
  case clear =>
    obtain ⟨hs, ht⟩ := task .clear [] (by simp) h
    exact ⟨hs, ht.elim (fun a => .inr (.inl a)) fun a => .inr (.inr (.inl a))⟩
  case sleep =>
    obtain ⟨hs, ht⟩ := task .sleep [] (by simp) h
    exact ⟨hs, ht.elim (fun a => .inr (.inl a)) fun a => .inr (.inr (.inl a))⟩
  all_goals
    obtain ⟨hs, ht⟩ := wire _ _ h
    exact ⟨hs, .inl ht⟩

/-- Everything a step of the machine can do when it gives a next state. -/
theorem step_cases {s t : State} (h : step s = .next t) :
    (s.seq = .idle ∧ s.bench = [] ∧ s.inbox = [] ∧ t = s) ∨
      (∃ w rest i, s.seq = .idle ∧ s.bench = w :: rest ∧ decode (.symbol w) = .ok i
        ∧ exec i { s with bench := rest } = .next t) ∨
      (∃ r rest i, s.seq = .idle ∧ s.bench = [] ∧ s.inbox = r :: rest ∧ decode (.request r) = .ok i
        ∧ exec i { s with inbox := rest } = .next t) ∨
      ∃ task k, s.seq = .running task k ∧ resumeTask task k s = .next t := by
  unfold step at h
  split at h
  · next task k hs => exact .inr (.inr (.inr ⟨task, k, hs, h⟩))
  · next hs =>
    cases hb : s.bench with
    | cons w rest =>
      simp only [fetch, hb] at h
      cases hd : decode (.symbol w) with
      | ok i => rw [hd] at h; exact .inr (.inl ⟨w, rest, i, hs, rfl, hd, h⟩)
      | error e => rw [hd] at h; simp at h
    | nil =>
      cases hi : s.inbox with
      | nil =>
        simp only [fetch, hb, hi, Host.Outcome.next.injEq] at h
        exact .inl ⟨hs, rfl, rfl, h.symm⟩
      | cons r rest =>
        simp only [fetch, hb, hi] at h
        cases hd : decode (.request r) with
        | ok i => rw [hd] at h; exact .inr (.inr (.inl ⟨r, rest, i, hs, rfl, rfl, hd, h⟩))
        | error e => rw [hd] at h; simp at h

/-- An operation that starts is a run of its steps (R151). -/
theorem startTask_next {task : Task} {s t : State} (h : startTask task s = .next t) :
    openDescribed (taskSteps task s) s = true ∧
      t = settle task false s.trace.length (runSteps 0 (taskSteps task s) s) := by
  unfold startTask at h
  split at h
  · next ho => exact ⟨ho, (Host.Outcome.next.inj h).symm⟩
  · simp at h

/-- The same of an operation that goes on. -/
theorem resumeTask_next {task : Task} {k : Nat} {s t : State} (h : resumeTask task k s = .next t) :
    openDescribed ((taskSteps task s).drop k) s = true ∧
      t = settle task true s.trace.length (resumeSteps k ((taskSteps task s).drop k) s) := by
  unfold resumeTask at h
  split at h
  · next ho => exact ⟨ho, (Host.Outcome.next.inj h).symm⟩
  · simp at h

/-- The step list of an operation depends on the geometry and the parameters alone (R77). -/
theorem taskSteps_congr (task : Task) {s t : State} (hw : t.width = s.width) (hh : t.height = s.height)
    (hc : t.cfg = s.cfg) : taskSteps task t = taskSteps task s := by
  cases task <;> simp [taskSteps, hw, hh, hc, State.w, State.h]

theorem drop_of_getElem? {l : List Step} {k : Nat} {st : Step} (h : l[k]? = some st) : l.drop k = st :: l.drop (k + 1) := by
  obtain ⟨hk, rfl⟩ := List.getElem?_eq_some_iff.mp h
  exact List.drop_eq_getElem_cons hk

/-- An operation waiting at a busy-wait polls once more and goes on (R153). -/
theorem resumeTask_busy {s : State} {task : Task} {k : Nat} (hk : (taskSteps task s)[k]? = some .busy)
    (ho : .openBus ∉ (taskSteps task s).drop k) :
    resumeTask task k s = .next (settle task true s.trace.length (match poll s with
      | .done s' => runSteps (k + 1) ((taskSteps task s).drop (k + 1)) s'
      | .again s' => .waiting k s'
      | .raised f s' => .raised f s')) := by
  have h : openDescribed ((taskSteps task s).drop k) s = true := by
    rw [drop_of_getElem? hk] at ho ⊢
    simp only [openDescribed, List.contains_eq_mem, Bool.not_eq_eq_eq_not, Bool.not_true, decide_eq_false_iff_not]
    exact ho
  rw [resumeTask, if_pos h, drop_of_getElem? hk]
  rfl

/-- A run of steps in two parts. -/
theorem runSteps_append (a b : List Step) (k : Nat) (s : State) :
    runSteps k (a ++ b) s = match runSteps k a s with
      | .finished t => runSteps (k + a.length) b t
      | .waiting j t => .waiting j t
      | .raised f t => .raised f t := by
  induction a generalizing k s with
  | nil => simp
  | cons st rest ih =>
    rw [List.cons_append, runSteps_cons, runSteps_cons]
    rcases takeStep st s with t | t | ⟨f, t⟩
    · simp only [ih, List.length_cons, show k + 1 + rest.length = k + (rest.length + 1) by omega]
    · rfl
    · rfl

/-- A turn of the busy-wait raises what a frame raises, or `BusyTimeout` (R153). -/
theorem poll_busOpenFailure (s t : State) : poll s ≠ .raised .busOpenFailure t := by
  intro h
  rw [poll_eq, sendFrame_busWrite] at h
  split at h
  · split at h
    · simp only [andThen_done] at h
      unfold afterSample at h
      split at h
      · simp [delay] at h
      · dsimp only at h; split at h <;> simp at h
    · simp at h
  · simp at h

/-- Only opening the bus raises `BusOpenFailure` (R252). -/
theorem takeStep_busOpenFailure {st : Step} {s t : State} (h : takeStep st s = .raised .busOpenFailure t) :
    st = .openBus := by
  have frame : ∀ l bytes, sendFrame l (busWrite bytes) s ≠ .raised .busOpenFailure t := by
    intro l bytes
    rw [sendFrame_busWrite]
    split
    · split <;> simp
    · simp
  cases st with
  | openBus => rfl
  | pin p l => cases p <;> simp [takeStep, pinWrite] at h
  | wait ms => simp [takeStep, delay] at h
  | cmd op => exact absurd h (frame .low [op.byte])
  | dat b => exact absurd h (frame .high [b])
  | bulk bytes => exact absurd h (frame .high bytes)
  | busy => exact absurd h (poll_busOpenFailure _ t)
  | closeBus => rw [takeStep_closeBus] at h; split at h <;> simp at h

/-- So a run of steps with no bus open never raises it. -/
theorem runSteps_busOpenFailure {l : List Step} {k : Nat} {s t : State} (ho : .openBus ∉ l) :
    runSteps k l s ≠ .raised .busOpenFailure t := by
  induction l generalizing k s with
  | nil => simp
  | cons st rest ih =>
    rw [runSteps_cons]
    rcases hs : takeStep st s with u | u | ⟨f, u⟩
    · exact ih fun hm => ho (List.mem_cons_of_mem _ hm)
    · simp
    · simp only [ne_eq, Run.raised.injEq, not_and]
      rintro rfl
      exact absurd (takeStep_busOpenFailure hs) (by rintro rfl; simp at ho)

/-- A frame adds to the trace, however it ends. -/
theorem sendFrame_grows (l : Level) (bytes : List Byte) (s : State) :
    s.trace.length < (sendFrame l (busWrite bytes) s).state.trace.length := by
  rw [sendFrame_busWrite]
  split
  · split <;> simp [Turn.state]
  · simp [Turn.state]

/-- A run of steps whose first step is a command adds to the trace, however it ends. -/
theorem runSteps_grows (op : Opcode) (rest : List Step) (k : Nat) (s : State) :
    s.trace.length < (runSteps k (.cmd op :: rest) s).state.trace.length := by
  have h := sendFrame_grows .low [op.byte] s
  rw [runSteps_cons, show takeStep (.cmd op) s = sendFrame .low (busWrite [op.byte]) s from rfl]
  rcases hs : sendFrame .low (busWrite [op.byte]) s with u | u | ⟨f, u⟩ <;> rw [hs] at h
  · obtain ⟨es, he⟩ := (runSteps_moved rest (k + 1) u).trace
    simp only [he, List.length_append]
    exact Nat.lt_of_lt_of_le h (Nat.le_add_right _ _)
  · exact h
  · exact h

/-- The first steps of an initialisation, when the bus opens (R156). -/
theorem runSteps_init (m : Mode) (s : State) (ho : (askOpen s).1 = true) (k : Nat) :
    runSteps k (initSteps m s.cfg) s = runSteps (k + 8) (s.cfg.initSeq m) { s with
      bus := .opened
      rst := .driven .high
      pwr := .driven .high
      env := { s.env with opens := (askOpen s).2.env.opens }
      trace := s.trace ++ [.opened true, .pinWritten .pwr .high] ++ resetPulse } := by
  simp only [initSteps, resetSteps, runSteps_cons, takeStep_openBus, ho, if_true, List.cons_append, List.nil_append]
  simp [takeStep, pinWrite, delay, State.emit, resetPulse, Config.tRstA, Config.tRstB, Config.tRstC, askOpen]

/-- The step lists of DISPLAY, DISPLAY_PARTIAL and CLEAR start with a command and are quiet. -/
theorem taskSteps_quiet {task : Task} (h : (∃ buf, task = .display buf) ∨ (∃ buf win, task = .displayPartial buf win) ∨
    task = .clear) (s : State) :
    (taskSteps task s).all isQuiet = true ∧ ∃ op rest, taskSteps task s = .cmd op :: rest := by
  rcases h with ⟨buf, rfl⟩ | ⟨buf, win, rfl⟩ | rfl
  · exact ⟨by simp [taskSteps, displaySteps, refreshSteps, isQuiet], _, _, rfl⟩
  · exact ⟨by simp [taskSteps, displayPartialSteps, refreshSteps, isQuiet, setting, windowPayload], _, _, rfl⟩
  · exact ⟨by simp [taskSteps, clearSteps, refreshSteps, isQuiet], _, _, rfl⟩

/-- Only an initialisation opens the bus, and then first (R156, R172 (a)). -/
theorem openBus_notMem_tail (task : Task) {s : State} (hset : ∀ m, (s.cfg.initSeq m).all Step.isSetting = true) :
    .openBus ∉ (taskSteps task s).drop 1 ∧ ((taskSteps task s).head? = some .openBus → ∃ m, task = .init m) := by
  cases task with
  | init m =>
    have := quiet_no_open (setting_quiet (hset m))
    exact ⟨by simp [taskSteps, initSteps, resetSteps, this], fun _ => ⟨m, rfl⟩⟩
  | sleep => simp [taskSteps, sleepSteps, setting]
  | display buf => simp [taskSteps, displaySteps, refreshSteps]
  | displayPartial buf win => simp [taskSteps, displayPartialSteps, refreshSteps, setting, windowPayload]
  | clear => simp [taskSteps, clearSteps, refreshSteps]

/-- An operation waiting in a state of the invariant opens no bus from there on (R131, R153). -/
theorem waiting_noOpen {s : State} (hi : s.Inv) {task : Task} {k : Nat} (hs : s.seq = .running task k) :
    (taskSteps task s)[k]? = some .busy ∧ .openBus ∉ (taskSteps task s).drop k := by
  have hk : (taskSteps task s)[k]? = some .busy := by simpa [seqAtBusy, hs] using hi.atBusy
  have hno := openBus_notMem_tail task hi.settings
  refine ⟨hk, fun hm => ?_⟩
  rcases Nat.eq_zero_or_pos k with rfl | hpos
  · rw [drop_of_getElem? hk, List.mem_cons] at hm
    exact hm.elim (by simp) hno.1
  · obtain ⟨j, rfl⟩ : ∃ j, k = 1 + j := ⟨k - 1, by omega⟩
    rw [← List.drop_drop] at hm
    exact hno.1 (List.mem_of_mem_drop hm)

/-- Everything a step can do while an operation waits: one more sample, then what follows it (R151, R153). -/
theorem step_running {s : State} (hi : s.Inv) {task : Task} {k : Nat} (hs : s.seq = .running task k) :
    step s = .next (settle task true s.trace.length (match poll s with
      | .done s' => runSteps (k + 1) ((taskSteps task s).drop (k + 1)) s'
      | .again s' => .waiting k s'
      | .raised f s' => .raised f s')) := by
  obtain ⟨hk, ho⟩ := waiting_noOpen hi hs
  simp only [step, hs]
  exact resumeTask_busy hk ho

/-- A request that passes admission is the run of its steps (R151, R155). -/
theorem exec_admitted {s : State} (hi : s.Inv) {task : Task} (ha : admitted task s) :
    exec (instrOf task) s = .next (settle task false s.trace.length (runSteps 0 (taskSteps task s) s)) := by
  obtain ⟨hs, hp, hl, hf⟩ := ha
  have ho : openDescribed (taskSteps task s) s = true := by
    have hno := openBus_notMem_tail task hi.settings
    have hbus : (∃ m, task = .init m) → s.bus = .neverOpened := by
      rintro ⟨m, rfl⟩
      simpa [lifeMatchesBus, hs, hl, needOf, busOfLife] using hi.lifeBus hp
    cases hq : taskSteps task s with
    | nil => rfl
    | cons st rest =>
      rw [hq] at hno
      cases st with
      | openBus => simpa [openDescribed, hbus (hno.2 rfl)] using hno.1
      | _ => simpa [openDescribed] using hno.1
  have start : startTask task s = .next (settle task false s.trace.length (runSteps 0 (taskSteps task s) s)) := by
    rw [startTask, if_pos ho]
  rw [← start]
  cases task with
  | init m => cases m <;> exact admit_pass hs (lifeChecks_pass hp hl [])
  | display buf =>
    exact admit_pass hs ((lifeChecks_pass hp hl _).trans (by simpa [lengthCheck, firstFailure, operandsFit] using hf))
  | displayPartial buf win =>
    refine admit_pass hs ?_
    rw [List.append_assoc, lifeChecks_pass hp (need := .poweredOn) hl]
    simp [lengthCheck, windowCheck, firstFailure, hf.1, hf.2]
  | clear => exact admit_pass hs (lifeChecks_pass hp hl [])
  | sleep => exact admit_pass hs (lifeChecks_pass hp hl [])

/-- Raising a fault in mid-sequence (R251, R262). -/
theorem raise_stoppedBy {f : Status} (hf : f ≠ .busOpenFailure) (v : State) : raise f true v = stoppedBy f v := by
  cases f <;> simp_all [raise, poisons, State.answer, poison, stoppedBy]

/-- Several steps of the machine, unfolded at the first. -/
theorem run_succ (n : Nat) {s t : State} (h : step s = .next t) : core.run (n + 1) s = core.run n t := by
  have h' : core.step s = .next t := h
  simp only [Host.Core.run, h']

end Sys2Proof.Machine
end

