-- ==== Sys2Proof/Tests/Slice0.lean ====
section
/-! SUPPORT. Tests with expected results from spec/ (95_test_vectors.md unless another file is named), the well-formedness
smoke tests, and for each statement with hypotheses a witness that meets them. -/

namespace Sys2Proof.Tests

open Sys2Proof Sys2Proof.Machine

/-! ### Helpers -/

/-- The shorthands `C`, `D`, `B` of R15, written out here. -/
def C (b : Byte) : List Event := [.pinWritten .dc .low, .csAsserted, .sent [b], .csDeasserted]
def D (b : Byte) : List Event := [.pinWritten .dc .high, .csAsserted, .sent [b], .csDeasserted]
def B (bytes : List Byte) : List Event := [.pinWritten .dc .high, .csAsserted, .sent bytes, .csDeasserted]

/-- `RST*` of R152 and `RB` of R153 with a panel that is ready at once. -/
def rstPulse : List Event :=
  [.pinWritten .rst .high, .delayed 20, .pinWritten .rst .low, .delayed 2, .pinWritten .rst .high, .delayed 20]
def RB : List Event := C 0x71 ++ [.busyRead .high, .delayed 20]

/-- Parameters of the small instance of section 3, with bytes that tell every open parameter apart, and a poll delay of 7. -/
def smallParams (w h : Nat) : Params :=
  defaultParams w h ⟨0xF0, 0xF1, 0xF2, 0xF3⟩ ⟨0xA0, 0xA1, 0xA2, 0xA3⟩ ⟨0xB0, 0xB1, 0xB2, 0xB3⟩ 0xC0 0xC5 0xD0 0xD5 7 1 2

/-- An environment that answers `x` to every question of a kind after its script. -/
def answers {α : Type} (script : List α) (x : α) : Answers α := { script := script, rest := some x, drawn := 0 }
def good : Environment := { opens := answers [] true, transfers := answers [] .completes, busy := answers [] .high }

/-- A freshly constructed controller of a small panel, and one that is powered on, with every latch known. -/
def off (w h : BitVec 16) : State :=
  { State.reset with width := w, height := h, cfg := smallParams w.toNat h.toNat, env := good }
def on (w h : BitVec 16) : State :=
  { off w h with life := .poweredOn, mode := some .full, bus := .opened, rst := .driven .high, dc := .driven .low,
                 pwr := .driven .high,
                 trace := [.opened true, .pinWritten .pwr .high] ++ rstPulse ++ C 0x04 ++ RB }
def asleep : State :=
  { on 16 2 with life := .sleeping, mode := none, bus := .closed, rst := .driven .low, dc := .driven .low,
                 pwr := .driven .low,
                 trace := (on 16 2).trace ++ [.closed, .pinWritten .rst .low, .pinWritten .dc .low, .pinWritten .pwr .low] }
/-- CLEAR, waiting for the panel at its last step. -/
def waiting : State := { on 16 2 with seq := .running .clear 6, env := { good with busy := answers [.low, .high] .low } }
def hung : State := { waiting with env := { good with busy := answers [] .low } }
def limited : State := { hung with cfg := { (smallParams 16 2) with busyPollLimit := some 3 } }

def nextOf : Host.Outcome State Fault Refusal → Option State
  | .next s => some s
  | .fault _ => none
  | .refused _ => none
/-- The events, the replies and the lifecycle fields after an instruction from `s`. -/
def eventsOf (s : State) (o : Host.Outcome State Fault Refusal) : Option (List Event) :=
  (nextOf o).map fun t => t.trace.drop s.trace.length
def repliesOf (o : Host.Outcome State Fault Refusal) : Option (List Reply) := (nextOf o).map (·.replies)
def lifeOf (o : Host.Outcome State Fault Refusal) : Option (Life × Option Mode × BusState × Bool) :=
  (nextOf o).map fun t => (t.life, t.mode, t.bus, t.poisoned)
def turnEvents (s : State) : Turn → List Event × Option Status
  | .done t => (t.trace.drop s.trace.length, none)
  | .again t => (t.trace.drop s.trace.length, none)
  | .raised f t => (t.trace.drop s.trace.length, some f)

/-! ### Well-formedness: for each check a term that it refuses -/

theorem test_wf_image_short : (Instr.encode { iw := 2, ih := 2, pix := [0, 0, 0] }).wf = false := by decide
theorem test_wf_image_full : (Instr.encode { iw := 2, ih := 2, pix := [0, 0, 0, 0] }).wf = true := by decide
theorem test_wf_geometry : geometryWf 0 480 = false ∧ geometryWf 800 0 = false ∧ geometryWf 1 65535 = true := by decide
theorem test_wf_default : (smallParams 16 2).wf 16 2 = true := by decide +kernel

/-- R172 (a): no bus open; (b): no refresh; (c): no wrong payload, no stray data; (d), (e): no setting left out. -/
theorem test_wf_init_kind : initSeqWf (smallParams 16 2) .full 16 2 (.openBus :: (smallParams 16 2).initFull) = false := by
  decide +kernel
theorem test_wf_init_opcode :
    initSeqWf (smallParams 16 2) .full 16 2 ((smallParams 16 2).initFull ++ [.cmd .displayRefresh]) = false := by
  decide +kernel
theorem test_wf_init_payload :
    initSeqWf (smallParams 16 2) .full 16 2 ((smallParams 16 2).initFull ++ [.cmd .vcomDc, .dat 0x01]) = false
      ∧ initSeqWf (smallParams 16 2) .full 16 2 (.dat 0x00 :: (smallParams 16 2).initFull) = false := by decide +kernel
theorem test_wf_init_missing :
    initSeqWf (smallParams 16 2) .full 16 2 ((smallParams 16 2).initFull.drop 5) = false
      ∧ initSeqWf (smallParams 16 2) .fast 16 2 (defaultInitFull 16 2 (smallParams 16 2).btstFast) = false := by
  decide +kernel
/-- R236: Full has no cross-reference opcode; R172 (f): one POWER_ON, with a busy-wait after it. -/
theorem test_wf_init_cross : initSeqWf (smallParams 16 2) .full 16 2 (smallParams 16 2).initFast = false := by
  decide +kernel
theorem test_wf_init_power :
    initSeqWf (smallParams 16 2) .full 16 2 ((smallParams 16 2).initFull ++ [.cmd .powerOn, .busy]) = false
      ∧ initSeqWf (smallParams 16 2) .full 16 2 (smallParams 16 2).initFull.dropLast = false := by decide +kernel
theorem test_wf_limit : ({ smallParams 16 2 with busyPollLimit := some 0 } : Params).wf 16 2 = false := by decide +kernel
theorem test_wf_fill : ({ smallParams 16 2 with clearNewFill := 0x01 } : Params).wf 16 2 = false := by decide +kernel

/-! ### Decoding: each row's word written out from 30_encoding.md R94, R90, R93, R100 -/

theorem test_decode_wire_low :
    decode (.symbol 0b000000000) = .ok .panelSetting ∧ decode (.symbol 0b000000001) = .ok .powerSetting
      ∧ decode (.symbol 0b000000010) = .ok .powerOff ∧ decode (.symbol 0b000000100) = .ok .powerOn
      ∧ decode (.symbol 0b000000110) = .ok .boosterSoftStart ∧ decode (.symbol 0b000000111) = .ok .deepSleep := by decide
theorem test_decode_wire_mid :
    decode (.symbol 0b000010000) = .ok .oldImageData ∧ decode (.symbol 0b000010010) = .ok .displayRefresh
      ∧ decode (.symbol 0b000010011) = .ok .newImageData ∧ decode (.symbol 0b000010101) = .ok .vcomDc
      ∧ decode (.symbol 0b001010000) = .ok .vcomDataInterval ∧ decode (.symbol 0b001100000) = .ok .tconSetting := by decide
theorem test_decode_wire_high :
    decode (.symbol 0b001100001) = .ok .resolution ∧ decode (.symbol 0b001110001) = .ok .statusQuery
      ∧ decode (.symbol 0b010010000) = .ok .partialWindow ∧ decode (.symbol 0b010010001) = .ok .partialIn
      ∧ decode (.symbol 0b011100000) = .ok .crossRefE0 ∧ decode (.symbol 0b011100101) = .ok .crossRefE5 := by decide
theorem test_decode_data :
    decode (.symbol 0b100000100) = .ok (.data 0x04) ∧ decode (.symbol 0b111111111) = .ok (.data 0xFF) := by decide
theorem test_decode_unlisted :
    decode (.symbol 0b000000011) = .error (.unlistedOpcode 0x03)
      ∧ decode (.symbol 0b011111111) = .error (.unlistedOpcode 0xFF) := by decide
def req (opsel : Opsel) : Request :=
  { opsel := opsel, buf := [0x12], win := ⟨1, 2, 3, 4⟩, img := { iw := 1, ih := 1, pix := [0x80] } }
theorem test_decode_requests :
    decode (.request (req 0b0000)) = .ok .init ∧ decode (.request (req 0b0001)) = .ok .initFast
      ∧ decode (.request (req 0b0010)) = .ok .initPart ∧ decode (.request (req 0b0011)) = .ok (.display [0x12])
      ∧ decode (.request (req 0b0100)) = .ok (.displayPartial [0x12] ⟨1, 2, 3, 4⟩)
      ∧ decode (.request (req 0b0101)) = .ok .clear ∧ decode (.request (req 0b0110)) = .ok .sleep
      ∧ decode (.request (req 0b0111)) = .ok (.encode { iw := 1, ih := 1, pix := [0x80] })
      ∧ decode (.request (req 0b1000)) = .ok (.reservedOpsel 0b000)
      ∧ decode (.request (req 0b1111)) = .ok (.reservedOpsel 0b111) := by decide
theorem test_table_words :
    decodeTableWord 8 0x6 = some .sleep ∧ decodeTableWord 9 0x0E5 = some .crossRefE5
      ∧ decodeTableWord 16 0x0E5 = some .crossRefE5 ∧ decodeTableWord 16 0x1A5 = some (.data 0xA5)
      ∧ decodeTableWord 8 0x9 = some (.reservedOpsel 1) := by decide

/-! ### Components (V1 to V28) -/

theorem test_pins :
    turnEvents (off 16 2) (pinWrite .rst .high (off 16 2)) = ([.pinWritten .rst .high], none)
      ∧ turnEvents (on 16 2) (pinWrite .dc .low (on 16 2)) = ([.pinWritten .dc .low], none)
      ∧ turnEvents (on 16 2) (pinWrite .busy .high (on 16 2)) = ([], some (.invalidPinRole .busy)) := by decide +kernel
theorem test_bus_write :
    turnEvents (on 16 2) (busWrite [0x04] (on 16 2)) = ([.sent [0x04]], none)
      ∧ turnEvents (off 16 2) (busWrite [0x04] (off 16 2)) = ([], some .notOpen)
      ∧ turnEvents asleep (busWrite [0x04] asleep) = ([], some .notOpen) := by decide +kernel
def failing (k : Nat) : State := { on 16 2 with env := { good with transfers := answers [.failsAfter k] .completes } }
theorem test_bus_failure :
    turnEvents (failing 0) (busWrite [0x04] (failing 0)) = ([.sent []], some .busIOFailure)
      ∧ turnEvents (failing 2) (busWriteBulk [0xAA, 0xBB, 0xCC] (failing 2)) = ([.sent [0xAA, 0xBB]], some .busIOFailure) := by
  decide +kernel
theorem test_bus_close :
    turnEvents (on 16 2) (busClose (on 16 2)) = ([.closed], none) ∧ turnEvents asleep (busClose asleep) = ([], some .notOpen) := by
  decide +kernel
theorem test_frames :
    turnEvents (on 16 2) (sendCommand 0x12 (on 16 2)) = (C 0x12, none)
      ∧ turnEvents (on 16 2) (sendDataBulk [0xFF, 0x00] (on 16 2)) = (B [0xFF, 0x00], none)
      ∧ turnEvents (failing 0) (sendCommand 0x04 (failing 0)) =
          ([.pinWritten .dc .low, .csAsserted, .sent []], some .busIOFailure)
      ∧ turnEvents asleep (sendCommand 0x04 asleep) = ([.pinWritten .dc .low, .csAsserted], some .notOpen) := by
  decide +kernel

/-! ### The busy-wait (V30 to V37) -/

theorem test_wait_not_ready :
    eventsOf waiting (step waiting) = some (C 0x71 ++ [.busyRead .low, .delayed 7])
      ∧ (nextOf (step waiting)).map (·.seq) = some (.running .clear 6) := by decide +kernel
def limitedAtTwo : State := { limited with polls := 2 }
theorem test_wait_timeout :
    eventsOf limitedAtTwo (step limitedAtTwo) = some (C 0x71 ++ [.busyRead .low])
      ∧ repliesOf (step limitedAtTwo) = some [.status .busyTimeout] := by decide +kernel

/-! ### Quantize (V40 to V48) and the payload of 0x90 (V52, V55) -/

theorem test_quantize :
    quantize ⟨3, 20, 0, 10⟩ = ⟨0, 24, 0, 10⟩ ∧ quantize ⟨8, 16, 0, 1⟩ = ⟨8, 16, 0, 1⟩
      ∧ quantize ⟨0, 1, 0, 1⟩ = ⟨0, 8, 0, 1⟩ ∧ quantize ⟨7, 8, 5, 6⟩ = ⟨0, 8, 5, 6⟩
      ∧ quantize ⟨9, 9, 4, 2⟩ = ⟨8, 16, 4, 2⟩ ∧ quantize ⟨65535, 65536, 0, 1⟩ = ⟨65528, 65536, 0, 1⟩ := by decide +kernel
theorem test_window_payload :
    windowPayload (quantize ⟨799, 800, 479, 480⟩) = [0x03, 0x18, 0x03, 0x1F, 0x01, 0xDF, 0x01, 0xDF, 0x01]
      ∧ windowPayload (quantize ⟨256, 300, 255, 257⟩) = [0x01, 0x00, 0x01, 0x2F, 0x00, 0xFF, 0x01, 0x00, 0x01] := by
  decide +kernel

/-! ### Host operations (V73 to V95) -/

theorem test_init :
    eventsOf (off 16 2) (exec .init (off 16 2)) = some ([.opened true, .pinWritten .pwr .high] ++ rstPulse
        ++ C 0x06 ++ D 0xF0 ++ D 0xF1 ++ D 0xF2 ++ D 0xF3 ++ C 0x01 ++ D 0x07 ++ D 0x07 ++ D 0x3F ++ D 0x3F
        ++ C 0x00 ++ D 0x1F ++ C 0x61 ++ D 0x00 ++ D 0x10 ++ D 0x00 ++ D 0x02 ++ C 0x15 ++ D 0x00
        ++ C 0x50 ++ D 0x10 ++ D 0x07 ++ C 0x60 ++ D 0x22 ++ C 0x04 ++ RB)
      ∧ lifeOf (exec .init (off 16 2)) = some (.poweredOn, some .full, .opened, false) := by decide +kernel
def refusedOpen : State := { off 16 2 with env := { good with opens := answers [false] true } }
theorem test_init_open_refused :
    eventsOf refusedOpen (exec .init refusedOpen) = some [.opened false]
      ∧ lifeOf (exec .init refusedOpen) = some (.uninitialized, none, .neverOpened, false)
      ∧ repliesOf (exec .init refusedOpen) = some [.status .busOpenFailure] := by decide +kernel
theorem test_initFast :
    eventsOf (off 16 2) (exec .initFast (off 16 2)) = some ([.opened true, .pinWritten .pwr .high] ++ rstPulse
        ++ C 0x06 ++ D 0xA0 ++ D 0xA1 ++ D 0xA2 ++ D 0xA3 ++ C 0x01 ++ D 0x07 ++ D 0x07 ++ D 0x3F ++ D 0x3F
        ++ C 0x00 ++ D 0x1F ++ C 0x50 ++ D 0x10 ++ D 0x07 ++ C 0xE0 ++ D 0xC0 ++ C 0xE5 ++ D 0xC5 ++ C 0x04 ++ RB)
      ∧ lifeOf (exec .initFast (off 16 2)) = some (.poweredOn, some .fast, .opened, false) := by decide +kernel
theorem test_initPart :
    eventsOf (off 16 2) (exec .initPart (off 16 2)) = some ([.opened true, .pinWritten .pwr .high] ++ rstPulse
        ++ C 0x06 ++ D 0xB0 ++ D 0xB1 ++ D 0xB2 ++ D 0xB3 ++ C 0x01 ++ D 0x07 ++ D 0x07 ++ D 0x3F ++ D 0x3F
        ++ C 0x00 ++ D 0x1F ++ C 0x50 ++ D 0xA9 ++ D 0x07 ++ C 0xE0 ++ D 0xD0 ++ C 0xE5 ++ D 0xD5 ++ C 0x04 ++ RB)
      ∧ lifeOf (exec .initPart (off 16 2)) = some (.poweredOn, some .part, .opened, false) := by decide +kernel
theorem test_display :
    eventsOf (on 16 2) (exec (.display [0x00, 0x00, 0xFF, 0x00]) (on 16 2)) = some (C 0x10 ++ B [0xFF, 0xFF, 0x00, 0xFF]
        ++ C 0x13 ++ B [0x00, 0x00, 0xFF, 0x00] ++ C 0x12 ++ [.delayed 100] ++ RB) := by decide +kernel
/-- P4: the fourth transfer fails after two bytes. -/
def failingFourth : State :=
  { on 16 2 with env := { good with transfers := answers [.completes, .completes, .completes, .failsAfter 2] .completes } }
theorem test_display_fails :
    eventsOf failingFourth (exec (.display [0x00, 0x00, 0xFF, 0x00]) failingFourth) = some (C 0x10
        ++ B [0xFF, 0xFF, 0x00, 0xFF] ++ C 0x13 ++ [.pinWritten .dc .high, .csAsserted, .sent [0x00, 0x00]])
      ∧ lifeOf (exec (.display [0x00, 0x00, 0xFF, 0x00]) failingFourth) = some (.poweredOn, some .full, .opened, true) := by
  decide +kernel
/-- P6. -/
theorem test_displayPartial :
    eventsOf (on 24 3) (exec (.displayPartial [1, 2, 3, 4, 5, 6, 7, 8, 9] ⟨9, 15, 1, 3⟩) (on 24 3)) =
      some (C 0x50 ++ D 0xA9 ++ D 0x07 ++ C 0x91 ++ C 0x90 ++ D 0x00 ++ D 0x08 ++ D 0x00 ++ D 0x0F ++ D 0x00 ++ D 0x01
        ++ D 0x00 ++ D 0x02 ++ D 0x01 ++ C 0x13 ++ B [0xFA, 0xF7] ++ C 0x12 ++ [.delayed 100] ++ RB)
      ∧ lifeOf (exec (.displayPartial [1, 2, 3, 4, 5, 6, 7, 8, 9] ⟨9, 15, 1, 3⟩) (on 24 3)) =
          some (.poweredOn, some .part, .opened, false) := by decide +kernel
/-- V84, V85: the length is tested before the window. -/
theorem test_displayPartial_refused :
    repliesOf (exec (.displayPartial [0x12, 0x34, 0x56, 0x78] ⟨0, 17, 0, 2⟩) (on 16 2)) =
        some [.status (.preconditionViolation .badWindow)]
      ∧ repliesOf (exec (.displayPartial [0x12, 0x34, 0x56] ⟨0, 17, 0, 2⟩) (on 16 2)) =
        some [.status (.preconditionViolation .badLength)] := by decide +kernel
theorem test_clear :
    eventsOf (on 16 2) (exec .clear (on 16 2)) = some (C 0x10 ++ B [0xFF, 0xFF, 0xFF, 0xFF] ++ C 0x13
        ++ B [0x00, 0x00, 0x00, 0x00] ++ C 0x12 ++ [.delayed 100] ++ RB) := by decide +kernel
theorem test_sleep :
    eventsOf (on 16 2) (exec .sleep (on 16 2)) = some (C 0x02 ++ RB ++ C 0x07 ++ D 0xA5 ++ [.delayed 2000, .closed,
        .pinWritten .rst .low, .pinWritten .dc .low, .pinWritten .pwr .low])
      ∧ lifeOf (exec .sleep (on 16 2)) = some (.sleeping, none, .closed, false) := by decide +kernel
theorem test_sleep_twice :
    eventsOf asleep (exec .sleep asleep) = some []
      ∧ repliesOf (exec .sleep asleep) = some [.status (.preconditionViolation .badState)] := by decide +kernel
/-- V61 and V62, V63: the threshold, the pad bits, the two directions of rotation. -/
theorem test_encode :
    encodeImage 128 .counterClockwise 10 2 ⟨10, 2, [127, 128, 127, 128, 127, 128, 127, 128, 127, 128, 127, 128, 127, 128, 127,
        128, 127, 128, 127, 128]⟩ = (false, [0xAA, 0xBF, 0xAA, 0xBF])
      ∧ encodeImage 128 .counterClockwise 3 2 ⟨2, 3, [255, 0, 0, 0, 255, 255]⟩ = (false, [0xDF, 0x5F])
      ∧ encodeImage 128 .clockwise 3 2 ⟨2, 3, [255, 0, 0, 0, 255, 255]⟩ = (false, [0x5F, 0x7F])
      ∧ encodeImage 128 .counterClockwise 2 2 ⟨2, 2, [255, 0, 0, 0]⟩ = (false, [0x7F, 0xFF]) := by decide +kernel
/-- V67: a rejected size, whose pad bits are 0. -/
theorem test_encode_rejected :
    repliesOf (exec (.encode ⟨0, 0, []⟩) (on 10 2)) = some [.encoded true [0x00, 0x00, 0x00, 0x00]] := by decide +kernel
def poisonedOn : State := { on 16 2 with poisoned := true }
/-- V93: the operation select is tested before poisoning. -/
theorem test_reservedOpsel :
    repliesOf (exec (.reservedOpsel 1) poisonedOn) = some [.status (.invalidOp 0x9)]
      ∧ (nextOf (exec (.reservedOpsel 1) poisonedOn)).map (·.faults) = some 0b010000000 := by decide +kernel

/-! ### Wire symbols (46_wire_opcodes.md): the frame of each, on the open bus -/

theorem test_wire_low :
    eventsOf (on 16 2) (exec .panelSetting (on 16 2)) = some (C 0x00)
      ∧ eventsOf (on 16 2) (exec .powerSetting (on 16 2)) = some (C 0x01)
      ∧ eventsOf (on 16 2) (exec .powerOff (on 16 2)) = some (C 0x02)
      ∧ eventsOf (on 16 2) (exec .powerOn (on 16 2)) = some (C 0x04)
      ∧ eventsOf (on 16 2) (exec .boosterSoftStart (on 16 2)) = some (C 0x06)
      ∧ eventsOf (on 16 2) (exec .deepSleep (on 16 2)) = some (C 0x07) := by decide +kernel
theorem test_wire_mid :
    eventsOf (on 16 2) (exec .oldImageData (on 16 2)) = some (C 0x10)
      ∧ eventsOf (on 16 2) (exec .displayRefresh (on 16 2)) = some (C 0x12)
      ∧ eventsOf (on 16 2) (exec .newImageData (on 16 2)) = some (C 0x13)
      ∧ eventsOf (on 16 2) (exec .vcomDc (on 16 2)) = some (C 0x15)
      ∧ eventsOf (on 16 2) (exec .vcomDataInterval (on 16 2)) = some (C 0x50)
      ∧ eventsOf (on 16 2) (exec .tconSetting (on 16 2)) = some (C 0x60) := by decide +kernel
theorem test_wire_high :
    eventsOf (on 16 2) (exec .resolution (on 16 2)) = some (C 0x61)
      ∧ eventsOf (on 16 2) (exec .statusQuery (on 16 2)) = some (C 0x71)
      ∧ eventsOf (on 16 2) (exec .partialWindow (on 16 2)) = some (C 0x90)
      ∧ eventsOf (on 16 2) (exec .partialIn (on 16 2)) = some (C 0x91)
      ∧ eventsOf (on 16 2) (exec .crossRefE0 (on 16 2)) = some (C 0xE0)
      ∧ eventsOf (on 16 2) (exec .crossRefE5 (on 16 2)) = some (C 0xE5) := by decide +kernel
/-- V28: a data byte equal to an opcode is still data. -/
theorem test_wire_data : eventsOf (on 16 2) (exec (.data 0x00) (on 16 2)) = some (D 0x00) := by decide +kernel

/-! ### Fetching from reset -/

/-- From reset the machine waits; a request placed by `withFetchWord` is taken by the next step, and its reply is given. -/
theorem test_reset_waits : step State.reset = .next State.reset := rfl
theorem test_fetch_from_reset :
    repliesOf (step (State.reset.withFetchWord 8 0x6)) = some [.status (.preconditionViolation .badState)]
      ∧ repliesOf (step (State.reset.withFetchWord 16 0x004)) = some [.status .notOpen] := by decide +kernel

/-- R39: a component test's symbol is taken before the host's request; the host's inbox is as it was. -/
theorem test_bench :
    eventsOf (on 16 2) (step { on 16 2 with bench := [0x004], inbox := [emptyRequest 5] }) = some (C 0x04)
      ∧ (nextOf (step { on 16 2 with bench := [0x004], inbox := [emptyRequest 5] })).map (·.inbox) = some [emptyRequest 5] := by
  decide +kernel

/-! ### Witnesses: for each statement with hypotheses, a state and operands that meet all of them, clause by clause -/

theorem good_ready : good.ready := ⟨⟨by simp [good, answers], rfl⟩, ⟨by simp [good, answers], rfl⟩, ⟨by simp [good, answers], rfl⟩⟩

def withInbox (s : State) (requests : List Request) : State := { s with inbox := requests }
def image : Image := { iw := 16, ih := 2, pix := List.replicate 32 0xFF }
def tall : Image := { iw := 2, ih := 16, pix := List.replicate 32 0x7F }

theorem witness_ConstructionSetsEveryPiece :
    State.reset = State.reset ∧ asleep.construct = asleep.construct ∧ asleep.life = .sleeping
      ∧ asleep.construct.life = .uninitialized :=
  ⟨rfl, rfl, rfl, rfl⟩
/-- A test of the Command Protocol with one symbol to hand over. -/
def benchOn : State := { on 16 2 with bench := [0x004] }
theorem witness_StepRunsTheDecodedInstruction :
    (on 16 2).seq = .idle ∧ (withInbox (on 16 2) [emptyRequest 5]).inbox = emptyRequest 5 :: []
      ∧ decode (.request (emptyRequest 5)) = .ok .clear ∧ (on 16 2).bench = [] ∧ (on 16 2).inbox = []
      ∧ benchOn.seq = .idle ∧ benchOn.bench = 0x004 :: [] ∧ decode (.symbol 0x004) = .ok .powerOn
      ∧ waiting.seq = .running .clear 6 := by decide +kernel
theorem witness_DecodeAndEncodeAgree :
    (Instr.encode image).wf = true ∧ (Instr.data 0xFF).wf = true ∧ (Instr.reservedOpsel 7).wf = true
      ∧ decode (.symbol 0b111111111) = .ok (.data 0xFF) ∧ decode (.symbol 0b011100101) = .ok .crossRefE5
      ∧ decode (.request (req 0b1111)) = .ok (.reservedOpsel 7) := by decide +kernel
theorem witness_CommandSymbolsSendTheirFrame :
    (on 16 2).seq = .idle ∧ (on 16 2).bus = .opened ∧ (askTransfer (on 16 2)).1 = .completes := by decide +kernel
theorem witness_DataSymbolSendsItsFrame :
    (on 16 2).seq = .idle ∧ (on 16 2).bus = .opened ∧ (askTransfer (on 16 2)).1 = .completes := by decide +kernel
theorem witness_WireSymbolFailuresPoison :
    encode .powerOn = .symbol 0x004 ∧ encode (.data 0xFF) = .symbol 0x1FF
      ∧ (failing 0).seq = .idle ∧ (failing 0).bus = .opened ∧ (askTransfer (failing 0)).1 ≠ .completes
      ∧ asleep.seq = .idle ∧ asleep.bus ≠ .opened ∧ (off 16 2).seq = .idle ∧ (off 16 2).bus ≠ .opened := by decide +kernel
theorem witness_WireSymbolsLeaveTheRestAlone :
    encode .powerOn = .symbol 0x004 ∧ exec .powerOn (on 16 2) = .next (afterCommand 0x04 (on 16 2))
      ∧ (afterCommand 0x04 (on 16 2)).replies = (on 16 2).replies ++ [.status .ok] :=
  ⟨by decide, rfl, rfl⟩
theorem witness_PinReadSamplesBusyOnly : waiting.env.busy.script = .low :: .high :: [] := by decide +kernel
theorem witness_BusWriteSendsAllOrAProperPart :
    ([0xAA, 0xBB] : List Byte) ≠ [] ∧ asleep.bus ≠ .opened
      ∧ (on 16 2).bus = .opened ∧ (askTransfer (on 16 2)).1 = .completes
      ∧ (failing 0).bus = .opened ∧ (askTransfer (failing 0)).1 = .failsAfter 0 ∧ 0 < [0xAA, 0xBB].length
      ∧ (failing 1).bus = .opened ∧ (askTransfer (failing 1)).1 = .failsAfter 1 ∧ 1 < [0xAA, 0xBB].length
      ∧ (failing 2).bus = .opened ∧ (askTransfer (failing 2)).1 = .failsAfter 2 ∧ ¬ 2 < [0xAA, 0xBB].length := by decide +kernel
def opened : State := { off 16 2 with bus := .opened }
theorem witness_BusOpensAndClosesOnce :
    (off 16 2).bus = .neverOpened ∧ opened.seq = .idle ∧ opened.poisoned = false ∧ opened.life = .uninitialized
      ∧ opened.bus ≠ .neverOpened ∧ opened.bus = .opened ∧ asleep.bus ≠ .opened ∧ (off 16 2).bus ≠ .opened := by decide +kernel
theorem witness_BusMovesOnlyByOpenAndClose :
    (off 16 2).bus = .neverOpened
      ∧ takeStep .openBus (off 16 2) = .done { off 16 2 with
          bus := .opened, trace := [.opened true], env := { good with opens := { script := [], rest := some true, drawn := 1 } } }
      ∧ (askOpen (off 16 2)).1 = true
      ∧ takeStep .closeBus (on 16 2) = .done { on 16 2 with bus := .closed, trace := (on 16 2).trace ++ [.closed] }
      ∧ takeStep (.wait 0) (on 16 2) = .done ((on 16 2).emit (.delayed 0))
      ∧ asleep.bus ≠ .opened ∧ (off 16 2).bus ≠ .opened := by decide +kernel
theorem witness_CommandProtocolFrames :
    (on 16 2).bus = .opened ∧ (askTransfer (on 16 2)).1 = .completes
      ∧ (failing 3).bus = .opened ∧ (askTransfer (failing 3)).1 = .failsAfter 3 ∧ ([0x00] : List Byte) ≠ []
      ∧ asleep.bus ≠ .opened ∧ (off 16 2).bus ≠ .opened := by decide +kernel
theorem witness_ResetPulsesTheLine : Step.pin .rst .high ∈ taskSteps (.init .part) (off 16 2) := by decide +kernel
/-- The three clauses, the second and the third at the two sides of the limit 3. -/
def limitedAtOne : State := { limited with polls := 1 }
theorem witness_BusyWaitTurn :
    (on 16 2).bus = .opened ∧ (askTransfer (on 16 2)).1 = .completes ∧ (askBusy (on 16 2)).1 = .high
      ∧ limitedAtOne.bus = .opened ∧ (askTransfer limitedAtOne).1 = .completes ∧ (askBusy limitedAtOne).1 = .low
      ∧ limitedAtOne.cfg.busyPollLimit = some 3 ∧ limitedAtOne.polls + 1 < 3
      ∧ hung.bus = .opened ∧ (askTransfer hung).1 = .completes ∧ (askBusy hung).1 = .low ∧ hung.cfg.busyPollLimit = none
      ∧ limitedAtTwo.bus = .opened ∧ (askTransfer limitedAtTwo).1 = .completes ∧ (askBusy limitedAtTwo).1 = .low
      ∧ limitedAtTwo.cfg.busyPollLimit = some 3 ∧ 3 ≤ limitedAtTwo.polls + 1 := by decide +kernel

theorem transfers_good : good.transfers.always .completes := good_ready.2.1
theorem busy_low : (answers [] Level.low).always .low := ⟨by simp [answers], rfl⟩

theorem witness_UnboundedWaitHangs :
    (hung.seq = .running .clear 6 ∧ (taskSteps .clear hung)[6]? = some .busy ∧ hung.cfg.busyPollLimit = none
      ∧ hung.bus = .opened ∧ .openBus ∉ (taskSteps .clear hung).drop 6)
      ∧ hung.env.transfers.always .completes ∧ hung.env.busy.always .low :=
  ⟨by decide +kernel, transfers_good, busy_low⟩
theorem witness_BoundedWaitTimesOut :
    (limited.seq = .running .clear 6 ∧ (taskSteps .clear limited)[6]? = some .busy ∧ limited.cfg.busyPollLimit = some 3
      ∧ limited.polls + 2 + 1 = 3 ∧ limitedAtTwo.polls + 0 + 1 = 3 ∧ limited.bus = .opened
      ∧ .openBus ∉ (taskSteps .clear limited).drop 6)
      ∧ limited.env.transfers.always .completes ∧ limited.env.busy.always .low :=
  ⟨by decide +kernel, transfers_good, busy_low⟩
/-- Without a limit, and with the limit 2, just above the one sample that is not ready. -/
def waitingBelowLimit : State := { waiting with cfg := { (smallParams 16 2) with busyPollLimit := some 2 } }
theorem witness_WaitEndsAtTheFirstReadySample :
    (waiting.seq = .running .clear 6 ∧ waiting.cfg.busyPollLimit = none ∧ waiting.bus = .opened
      ∧ waiting.env.busy.script = List.replicate 1 .low ++ .high :: []
      ∧ waitingBelowLimit.seq = .running .clear 6 ∧ waitingBelowLimit.cfg.busyPollLimit = some 2
      ∧ waitingBelowLimit.polls + 1 < 2 ∧ waitingBelowLimit.bus = .opened
      ∧ waitingBelowLimit.env.busy.script = List.replicate 1 .low ++ .high :: [])
      ∧ waiting.env.transfers.always .completes ∧ waitingBelowLimit.env.transfers.always .completes :=
  ⟨by decide +kernel, transfers_good, transfers_good⟩
/-- SLEEP, waiting after POWER_OFF. -/
def goingToSleep : State := { waiting with seq := .running .sleep 1 }
theorem witness_RaiseRecordsRepliesAndPoisons : Status.busIOFailure ≠ .busOpenFailure := by decide
theorem witness_PoisonedRefusesAllButEncode : poisonedOn.seq = .idle ∧ poisonedOn.poisoned = true := by decide +kernel
theorem witness_WrongLifecycleIsRefused :
    (on 16 2).seq = .idle ∧ (on 16 2).poisoned = false ∧ (on 16 2).life ≠ .uninitialized
      ∧ (off 16 2).seq = .idle ∧ (off 16 2).poisoned = false ∧ (off 16 2).life ≠ .poweredOn
      ∧ asleep.seq = .idle ∧ asleep.poisoned = false ∧ asleep.life ≠ .uninitialized ∧ asleep.life ≠ .poweredOn := by
  decide +kernel
/-- `N - 1` and `N + 1` bytes, `N = 4`. -/
theorem witness_WrongLengthIsRefused :
    (on 16 2).seq = .idle ∧ (on 16 2).poisoned = false ∧ (on 16 2).life = .poweredOn
      ∧ ([0, 0, 0] : List Byte).length ≠ ((on 16 2).width.toNat + 7) / 8 * (on 16 2).height.toNat
      ∧ ([0, 0, 0, 0, 0] : List Byte).length ≠ ((on 16 2).width.toNat + 7) / 8 * (on 16 2).height.toNat := by decide +kernel
/-- Each way a window is invalid, at the boundary. -/
theorem witness_InvalidWindowIsRefused :
    (on 16 2).seq = .idle ∧ (on 16 2).poisoned = false ∧ (on 16 2).life = .poweredOn
      ∧ ([0, 0, 0, 0] : List Byte).length = planeLen (on 16 2).w (on 16 2).h
      ∧ (⟨4, 4, 0, 1⟩ : Window).xe ≤ (⟨4, 4, 0, 1⟩ : Window).xs ∧ (on 16 2).width.toNat < (⟨0, 17, 0, 2⟩ : Window).xe
      ∧ (⟨0, 16, 1, 1⟩ : Window).ye ≤ (⟨0, 16, 1, 1⟩ : Window).ys ∧ (on 16 2).height.toNat < (⟨0, 16, 0, 3⟩ : Window).ye := by
  decide +kernel
theorem witness_ReservedOpselIsInvalidOp : (on 16 2).seq = .idle ∧ poisonedOn.seq = .idle := by decide +kernel
theorem witness_BusOpenFailureIsClean :
    (refusedOpen.seq = .idle ∧ refusedOpen.poisoned = false ∧ refusedOpen.life = .uninitialized
      ∧ refusedOpen.bus = .neverOpened ∧ (askOpen refusedOpen).1 = false)
      ∧ ∀ m, .openBus ∉ refusedOpen.cfg.initSeq m :=
  ⟨by decide +kernel, fun m => by cases m <;> decide +kernel⟩
theorem witness_InitialisationCompletes :
    ((off 16 2).seq = .idle ∧ (off 16 2).poisoned = false ∧ (off 16 2).life = .uninitialized
      ∧ (off 16 2).bus = .neverOpened)
      ∧ (off 16 2).env.ready
      ∧ ∀ m, initSeqWf (off 16 2).cfg m (off 16 2).w (off 16 2).h ((off 16 2).cfg.initSeq m) = true :=
  ⟨by decide +kernel, good_ready, fun m => by cases m <;> decide +kernel⟩
theorem witness_DisplayCompletes :
    ((on 16 2).seq = .idle ∧ (on 16 2).poisoned = false ∧ (on 16 2).life = .poweredOn ∧ (on 16 2).bus = .opened
      ∧ ([0, 0, 0xFF, 0] : List Byte).length = planeLen (on 16 2).w (on 16 2).h) ∧ (on 16 2).env.ready :=
  ⟨by decide +kernel, good_ready⟩
/-- The whole panel, and one pixel in its last corner. -/
theorem witness_DisplayPartialCompletes :
    ((on 16 2).seq = .idle ∧ (on 16 2).poisoned = false ∧ (on 16 2).life = .poweredOn ∧ (on 16 2).bus = .opened
      ∧ ([0, 0, 0xFF, 0] : List Byte).length = planeLen (on 16 2).w (on 16 2).h
      ∧ 0 < 16 ∧ 16 ≤ (on 16 2).w ∧ 0 < 2 ∧ 2 ≤ (on 16 2).h ∧ 15 < 16 ∧ 1 < 2) ∧ (on 16 2).env.ready :=
  ⟨by decide +kernel, good_ready⟩
theorem witness_ClearCompletes :
    ((on 16 2).seq = .idle ∧ (on 16 2).poisoned = false ∧ (on 16 2).life = .poweredOn ∧ (on 16 2).bus = .opened)
      ∧ (on 16 2).env.ready :=
  ⟨by decide +kernel, good_ready⟩
theorem witness_SleepCompletes :
    ((on 16 2).seq = .idle ∧ (on 16 2).poisoned = false ∧ (on 16 2).life = .poweredOn ∧ (on 16 2).bus = .opened)
      ∧ (on 16 2).env.ready :=
  ⟨by decide +kernel, good_ready⟩
/-- Matching, transposed and rejected sizes; the rejected one is also the empty image. -/
theorem witness_EncodeAnswersInEveryState :
    poisonedOn.seq = .idle ∧ image.pix.length = image.iw * image.ih ∧ tall.pix.length = tall.iw * tall.ih
      ∧ ([] : List Byte).length = 0 * 0 ∧ ¬(0 = poisonedOn.w ∧ 0 = poisonedOn.h) ∧ ¬(0 = poisonedOn.h ∧ 0 = poisonedOn.w) := by
  decide +kernel
theorem witness_HostOperationsLeaveTheRestAlone :
    (nextOf (exec (.display [0, 0, 0, 0]) (on 16 2))).isSome = true ∧ (nextOf (exec .clear (on 16 2))).isSome = true
      ∧ (nextOf (exec (.displayPartial [0, 0, 0, 0] ⟨0, 16, 0, 2⟩) (on 16 2))).isSome = true
      ∧ (nextOf (exec .sleep (on 16 2))).isSome = true
      ∧ repliesOf (exec .sleep asleep) = some (asleep.replies ++ [.status (.preconditionViolation .badState)])
      ∧ (nextOf (exec .init (off 16 2))).isSome = true
      ∧ repliesOf (exec .init refusedOpen) = some (refusedOpen.replies ++ [.status .busOpenFailure])
      ∧ (nextOf (exec (.reservedOpsel 0) (on 16 2))).isSome = true
      ∧ (nextOf (exec (.encode image) (on 16 2))).isSome = true := by decide +kernel
theorem witness_FaultRecordsChangeOnlyWithAFault :
    exec (.encode ⟨0, 0, []⟩) (on 10 2) = .next ((on 10 2).answer (.encoded true [0, 0, 0, 0]))
      ∧ ∀ f, f ≠ .ok → ((on 10 2).answer (.encoded true [0, 0, 0, 0])).replies ≠ (on 10 2).replies ++ [.status f] :=
  ⟨rfl, fun f _ => by simp [State.answer]⟩
theorem witness_FaultRecordsChangeOnlyWithAFault_step :
    ∃ t, step waiting = .next t ∧ ∀ f, f ≠ .ok → t.replies ≠ waiting.replies ++ [.status f] :=
  ⟨_, rfl, fun f _ h => by cases h⟩
/-- In the three ways: no call, an operation in progress, a request that is admitted. -/
theorem witness_HostHasNoMoveButRequests :
    (waiting.seq = .running .clear 6 ∧ decode (.request (emptyRequest 5)) = .ok .clear
      ∧ (on 16 2).bench = [] ∧ (nextOf (step (on 16 2))).isSome = true
      ∧ waiting.bench = [] ∧ (nextOf (step waiting)).isSome = true
      ∧ (withInbox (on 16 2) [emptyRequest 5]).bench = []
      ∧ (nextOf (step (withInbox (on 16 2) [emptyRequest 5]))).isSome = true)
      ∧ admitted .clear (on 16 2) :=
  ⟨by decide +kernel, rfl, rfl, rfl, trivial⟩
theorem witness_ImagesHoldTheirSamples :
    (on 16 2).seq = .idle ∧ ([0, 0, 0] : List Byte).length ≠ 2 * 2 ∧ ([0, 0, 0, 0, 0] : List Byte).length ≠ 2 * 2 := by
  decide +kernel
/-- Aligned, only the end aligned, only the start aligned. -/
theorem witness_QuantizeWidensToByteBoundaries :
    8 % 8 = 0 ∧ 16 % 8 = 0 ∧ ¬(7 % 8 = 0 ∧ 8 % 8 = 0) ∧ 8 % 8 = 0 ∧ ¬(0 % 8 = 0 ∧ 1 % 8 = 0) ∧ 1 % 8 ≠ 0 := by decide
theorem witness_QuantizedWindowFitsThePanel :
    windowValid 65535 65535 ⟨65534, 65535, 65534, 65535⟩ = true ∧ windowValid 1 1 ⟨0, 1, 0, 1⟩ = true ∧ 65535 ≤ 65535 := by
  decide +kernel
theorem witness_WindowPlaneHoldsTheComplementedBytes :
    windowValid 24 3 ⟨9, 15, 1, 3⟩ = true ∧ ([1, 2, 3, 4, 5, 6, 7, 8, 9] : List Byte).length = planeLen 24 3
      ∧ 1 < windowRows (quantize ⟨9, 15, 1, 3⟩) ∧ 0 < windowBytes (quantize ⟨9, 15, 1, 3⟩) := by decide +kernel
theorem witness_HighAndLowByteMakeTheValue : 0 ≤ 65535 ∧ 255 ≤ 65535 ∧ 256 ≤ 65535 ∧ 65535 ≤ 65535 := by decide
theorem witness_ComplementIsInvolutive : ([0x12] : List Byte)[0]? = some 0x12 := by decide
/-- The sample at the threshold's two sides; a pad bit. -/
theorem witness_EncodedPixelsFollowTheThreshold :
    (⟨4, 1, [0, 127, 128, 255]⟩ : Image).wf = true ∧ ([0, 127, 128, 255] : List Byte)[0 * 4 + 1]? = some 127
      ∧ ([0, 127, 128, 255] : List Byte)[0 * 4 + 2]? = some 128 ∧ 1 < 4 ∧ 2 < 4 ∧ 0 < 1 ∧ 4 ≤ 4 ∧ 7 < 8 * strideOf 4 := by
  decide +kernel
theorem witness_TransposedImagesAreRotated :
    (⟨2, 3, [255, 0, 0, 0, 255, 255]⟩ : Image).wf = true ∧ 3 ≠ 2 ∧ 2 < 3 ∧ 1 < 2
      ∧ ([255, 0, 0, 0, 255, 255] : List Byte)[2 * 2 + (2 - 1 - 1)]? = some 255
      ∧ ([255, 0, 0, 0, 255, 255] : List Byte)[(3 - 1 - 2) * 2 + 1]? = some 0
      ∧ 3 ≤ 3 ∧ 7 < 8 * strideOf 3 ∧ 1 < 2 := by decide +kernel
theorem witness_EncodeThenDisplaySendsTheImage :
    ((on 16 2).seq = .idle ∧ (on 16 2).poisoned = false ∧ (on 16 2).life = .poweredOn ∧ (on 16 2).bus = .opened
      ∧ image.wf = true ∧ image.iw = (on 16 2).w ∧ image.ih = (on 16 2).h
      ∧ 15 < (on 16 2).w ∧ 1 < (on 16 2).h ∧ image.pix[1 * (on 16 2).w + 15]? = some 0xFF) ∧ (on 16 2).env.ready :=
  ⟨by decide +kernel, good_ready⟩
theorem witness_PowerOnIsFollowedByTheBusyWait :
    initSeqWf (smallParams 16 2) .full 16 2 (smallParams 16 2).initFull = true
      ∧ initSeqWf (smallParams 16 2) .part 16 2 (smallParams 16 2).initPart = true := by decide +kernel
theorem witness_GeometryIsConstantAndReadable : (nextOf (step waiting)).isSome = true := by decide +kernel
theorem witness_RecordsOnlyGrow :
    (nextOf (step (withInbox poisonedOn [emptyRequest 5]))).isSome = true
      ∧ (withInbox poisonedOn [emptyRequest 5]).poisoned = true ∧ hasFault (addFault .busIOFailure 0) .busIOFailure = true := by
  decide +kernel

/-! The invariant holds in a powered-on, a waiting and a sleeping state that is not the state of reset. -/

theorem on_inv : (on 16 2).Inv where
  modeIffOn := by decide +kernel
  lifeBus := fun _ => by show _ = _; decide +kernel
  csIdle := fun _ => rfl
  framing := fun _ => by decide +kernel
  busTrace := by decide +kernel
  rstTrace := by decide +kernel
  dcTrace := by decide +kernel
  pwrTrace := by decide +kernel
  onLines := fun _ _ => ⟨rfl, rfl⟩
  offLines := fun _ h => by cases h
  poisonedIdle := fun h => by cases h
  atBusy := trivial
  noOk := by decide +kernel
  settings := fun m => by cases m <;> decide +kernel
theorem waiting_inv : waiting.Inv where
  modeIffOn := by decide +kernel
  lifeBus := fun _ => ⟨rfl, rfl⟩
  csIdle := fun _ => rfl
  framing := on_inv.framing
  busTrace := on_inv.busTrace
  rstTrace := on_inv.rstTrace
  dcTrace := on_inv.dcTrace
  pwrTrace := on_inv.pwrTrace
  onLines := fun _ _ => ⟨rfl, rfl⟩
  offLines := fun _ h => by cases h
  poisonedIdle := fun h => by cases h
  atBusy := by show (taskSteps .clear waiting)[6]? = some .busy; decide +kernel
  noOk := on_inv.noOk
  settings := on_inv.settings
theorem asleep_inv : asleep.Inv where
  modeIffOn := by decide +kernel
  lifeBus := fun _ => by show _ = _; decide +kernel
  csIdle := fun _ => rfl
  framing := fun _ => by decide +kernel
  busTrace := by decide +kernel
  rstTrace := by decide +kernel
  dcTrace := by decide +kernel
  pwrTrace := by decide +kernel
  onLines := fun _ h => by cases h
  offLines := fun _ _ => ⟨rfl, rfl, rfl⟩
  poisonedIdle := fun h => by cases h
  atBusy := trivial
  noOk := by decide +kernel
  settings := on_inv.settings

/-- A state of the invariant for each kind of operation: SLEEP's first wait, an initialisation from construction, faults. -/
theorem off_inv : (off 16 2).Inv where
  modeIffOn := by decide +kernel
  lifeBus := fun _ => by show _ = _; decide +kernel
  csIdle := fun _ => rfl
  framing := fun _ => by decide +kernel
  busTrace := by decide +kernel
  rstTrace := by decide +kernel
  dcTrace := by decide +kernel
  pwrTrace := by decide +kernel
  onLines := fun _ h => by cases h
  offLines := fun _ h => by cases h
  poisonedIdle := fun h => by cases h
  atBusy := trivial
  noOk := by decide +kernel
  settings := on_inv.settings
/-- The invariant speaks of no answer of the environment. -/
theorem inv_env {s : State} (h : s.Inv) (env : Environment) : ({ s with env := env } : State).Inv :=
  ⟨h.modeIffOn, h.lifeBus, h.csIdle, h.framing, h.busTrace, h.rstTrace, h.dcTrace, h.pwrTrace, h.onLines, h.offLines,
    h.poisonedIdle, h.atBusy, h.noOk, h.settings⟩

theorem witness_BusMovesOnlyByOpenAndClose_step :
    waiting.Inv ∧ (nextOf (step waiting)).isSome = true ∧ (off 16 2).Inv
      ∧ (nextOf (step (off 16 2))).isSome = true :=
  ⟨waiting_inv, by decide +kernel, off_inv, by decide +kernel⟩
/-- CLEAR and an initialisation whose first sample is not ready, the first also with the limit 2. -/
def slowOn : State := { on 16 2 with env := { good with busy := answers [.low, .high] .low } }
def slowOff : State := { off 16 2 with env := { good with busy := answers [.low] .high } }
theorem witness_OperationsWaitAndGoOn_start :
    slowOn.Inv ∧ admitted .clear slowOn ∧ slowOff.Inv ∧ admitted (.init .full) slowOff
      ∧ ((taskSteps .clear slowOn)[6]? = some .busy ∧ .busy ∉ (taskSteps .clear slowOn).take 6
        ∧ slowOn.env.busy.script = .low :: [.high] ∧ slowOn.cfg.busyPollLimit = none
        ∧ waitingBelowLimit.cfg.busyPollLimit = some 2 ∧ 1 < 2
        ∧ (taskSteps (.init .full) slowOff)[8 + 25]? = some .busy
        ∧ .busy ∉ (taskSteps (.init .full) slowOff).take (8 + 25)
        ∧ (askOpen slowOff).1 = true ∧ slowOff.env.busy.script = .low :: []
        ∧ initSeqWf slowOff.cfg .full slowOff.w slowOff.h (slowOff.cfg.initSeq .full) = true)
      ∧ slowOn.env.transfers.always .completes ∧ slowOff.env.transfers.always .completes :=
  ⟨inv_env on_inv _, ⟨rfl, rfl, rfl, trivial⟩, inv_env off_inv _, ⟨rfl, rfl, rfl, trivial⟩, by decide +kernel,
    transfers_good, transfers_good⟩
theorem witness_OperationsWaitAndGoOn_goOn :
    (goingToSleep.seq = .running .sleep 1 ∧ (taskSteps .sleep goingToSleep)[1]? = some .busy
      ∧ goingToSleep.cfg.busyPollLimit = none ∧ goingToSleep.bus = .opened
      ∧ waitingBelowLimit.cfg.busyPollLimit = some 2 ∧ waitingBelowLimit.polls + 1 < 2
      ∧ .openBus ∉ (taskSteps .sleep goingToSleep).drop 1
      ∧ goingToSleep.env.busy.script = List.replicate 1 .low ++ .high :: [])
      ∧ goingToSleep.env.transfers.always .completes :=
  ⟨by decide +kernel, transfers_good⟩

/-- A fault at the first step, at the fourth, and in progress: at the sample (the limit), and at a later step of SLEEP, whose
second transfer after the sample fails. -/
theorem witness_FaultStopsTheOperationAtItsStep_start :
    failingFourth.Inv ∧ admitted (.display [0, 0, 0xFF, 0]) failingFourth
      ∧ ∃ u v, taskSteps (.display [0, 0, 0xFF, 0]) failingFourth
            = [.cmd .oldImageData, .bulk [0xFF, 0xFF, 0, 0xFF], .cmd .newImageData] ++ .bulk [0, 0, 0xFF, 0] :: refreshSteps
          ∧ runSteps 0 [.cmd .oldImageData, .bulk [0xFF, 0xFF, 0, 0xFF], .cmd .newImageData] failingFourth = .finished u
          ∧ takeStep (.bulk [0, 0, 0xFF, 0]) u = .raised .busIOFailure v :=
  ⟨inv_env on_inv _, ⟨rfl, rfl, rfl, rfl⟩, _, _, by decide +kernel, rfl, rfl⟩
def limitedWaiting : State := { waiting with cfg := { (smallParams 16 2) with busyPollLimit := some 1 } }
theorem limitedWaiting_inv : limitedWaiting.Inv :=
  ⟨waiting_inv.modeIffOn, waiting_inv.lifeBus, waiting_inv.csIdle, waiting_inv.framing, waiting_inv.busTrace,
    waiting_inv.rstTrace, waiting_inv.dcTrace, waiting_inv.pwrTrace, waiting_inv.onLines, waiting_inv.offLines,
    waiting_inv.poisonedIdle, waiting_inv.atBusy, waiting_inv.noOk, waiting_inv.settings⟩
theorem witness_FaultStopsTheOperationAtItsStep_sample :
    limitedWaiting.Inv ∧ limitedWaiting.seq = .running .clear 6 ∧ ∃ v, poll limitedWaiting = .raised .busyTimeout v :=
  ⟨limitedWaiting_inv, rfl, _, rfl⟩
def failingSleep : State :=
  { on 16 2 with seq := .running .sleep 1
                 env := { good with transfers := answers [.completes, .completes, .failsAfter 0] .completes } }
theorem failingSleep_inv : failingSleep.Inv :=
  ⟨on_inv.modeIffOn, fun _ => ⟨rfl, rfl⟩, on_inv.csIdle, on_inv.framing, on_inv.busTrace, on_inv.rstTrace, on_inv.dcTrace,
    on_inv.pwrTrace, on_inv.onLines, on_inv.offLines, (fun h => by cases h), rfl, on_inv.noOk, on_inv.settings⟩
theorem witness_FaultStopsTheOperationAtItsStep_later :
    failingSleep.Inv ∧ failingSleep.seq = .running .sleep 1
      ∧ ∃ w u v, poll failingSleep = .done w
          ∧ (taskSteps .sleep failingSleep).drop 2 = [.cmd .deepSleep] ++ .dat 0xA5 :: (taskSteps .sleep failingSleep).drop 4
          ∧ runSteps 2 [.cmd .deepSleep] w = .finished u ∧ takeStep (.dat 0xA5) u = .raised .busIOFailure v :=
  ⟨failingSleep_inv, rfl, _, _, _, rfl, by decide +kernel, rfl, rfl⟩
theorem witness_FaultStopsTheOperationAtItsStep_display :
    (failing 0).seq = .idle ∧ (failing 0).poisoned = false ∧ (failing 0).life = .poweredOn ∧ (failing 0).bus = .opened
      ∧ ([0, 0, 0, 0] : List Byte).length = planeLen (failing 0).w (failing 0).h
      ∧ (askTransfer (failing 0)).1 = .failsAfter 0 := by decide +kernel

theorem witness_LifecycleOnlyMovesForward :
    (nextOf (step waiting)).isSome = true ∧ waiting.life ≠ .uninitialized
      ∧ (nextOf (step asleep)).isSome = true ∧ asleep.life = .sleeping ∧ asleep.Inv :=
  ⟨by decide +kernel, by decide +kernel, by decide +kernel, rfl, asleep_inv⟩
theorem witness_NothingIsSentAfterSleep : asleep.Inv ∧ asleep.bus = .closed ∧ step asleep = .next asleep :=
  ⟨asleep_inv, rfl, rfl⟩
theorem witness_EveryStepKeepsTheInvariant :
    (on 16 2).Inv ∧ step (on 16 2) = .next (on 16 2) ∧ waiting.Inv ∧ (nextOf (step waiting)).isSome = true :=
  ⟨on_inv, rfl, waiting_inv, by decide +kernel⟩
theorem witness_OnlyUndecodableCallsStop : waiting.Inv ∧ asleep.Inv := ⟨waiting_inv, asleep_inv⟩
def canonical : State :=
  withInbox (off 16 2) [emptyRequest 0, { emptyRequest 3 with buf := [0, 0, 0xFF, 0] }, emptyRequest 6]
theorem witness_CanonicalSessionFinishesInGoodOrder :
    (canonical.seq = .idle ∧ canonical.poisoned = false ∧ canonical.faults = 0 ∧ canonical.life = .uninitialized
      ∧ canonical.bus = .neverOpened
      ∧ initSeqWf canonical.cfg .full canonical.w canonical.h canonical.cfg.initFull = true
      ∧ ([0, 0, 0xFF, 0] : List Byte).length = planeLen canonical.w canonical.h
      ∧ canonical.bench = []
      ∧ canonical.inbox = [emptyRequest 0, { emptyRequest 3 with buf := [0, 0, 0xFF, 0] }, emptyRequest 6])
      ∧ canonical.env.ready :=
  ⟨by decide +kernel, good_ready⟩

end Sys2Proof.Tests
end

/-! What a whole step of the machine leaves, said once: the calls are taken, a run moves the wires, and what is recorded
after the run touches no wire. -/

namespace Sys2Proof.Machine

/-- Between `s` and `t` only the lifecycle, the fault records, chip-select, SEQ, the calls and the replies may differ. -/
structure Untouched (s t : State) : Prop where
  width : t.width = s.width
  height : t.height = s.height
  cfg : t.cfg = s.cfg
  polls : t.polls = s.polls
  rst : t.rst = s.rst
  dc : t.dc = s.dc
  pwr : t.pwr = s.pwr
  bus : t.bus = s.bus
  trace : t.trace = s.trace
  env : t.env = s.env

/-- Raising a fault rolls nothing back and moves no line but chip-select (R251, R262). -/
theorem raise_untouched (f : Status) (emitted : Bool) (s : State) : Untouched s (raise f emitted s) := by
  unfold raise
  cases poisons f emitted <;> constructor <;> rfl

/-- The end of an operation writes LIFE, MODE, SEQ and the reply (R151). -/
theorem complete_untouched (task : Task) (s : State) : Untouched s (complete task s) := by
  cases task <;> constructor <;> rfl

theorem settle_untouched (task : Task) (resumed : Bool) (start : Nat) (r : Run) :
    Untouched r.state (settle task resumed start r) := by
  cases r with
  | finished s => exact complete_untouched task s
  | waiting k s => constructor <;> rfl
  | raised f s => exact raise_untouched f _ s

theorem settleCall_untouched (start : Nat) (r : Turn) : Untouched r.state (settleCall start r) := by
  cases r with
  | done s => constructor <;> rfl
  | again s => constructor <;> rfl
  | raised f s => exact raise_untouched f _ s

/-- The states that one step of the machine brings `s` to before it records and replies: where it is, the end of one frame,
or the end of an operation's steps from the first or from the one it waits at. -/
inductive Reached (s : State) : State → Prop where
  | unmoved : Reached s s
  | frame (l : Level) (b : Byte) : Reached s (sendFrame l (busWrite [b]) s).state
  | started (task : Task) (ho : openDescribed (taskSteps task s) s = true) :
      Reached s (runSteps 0 (taskSteps task s) s).state
  | resumed (task : Task) (k : Nat) (ho : openDescribed ((taskSteps task s).drop k) s = true) :
      Reached s (resumeSteps k ((taskSteps task s).drop k) s).state

/-- A meaning reaches a state and then only records and replies. -/
theorem exec_ends {i : Instr} {s t : State} (h : exec i s = .next t) : ∃ u, Reached s u ∧ Untouched u t := by
  obtain ⟨-, ⟨l, b, rfl⟩ | ⟨f, -, rfl⟩ | ⟨task, -, -, hstart⟩ | ⟨warn, out, rfl⟩⟩ := exec_cases h
  · exact ⟨_, .frame l b, settleCall_untouched _ _⟩
  · exact ⟨s, .unmoved, raise_untouched f false s⟩
  · obtain ⟨ho, rfl⟩ := startTask_next hstart
    exact ⟨_, .started task ho, settle_untouched _ _ _ _⟩
  · exact ⟨s, .unmoved, by constructor <;> rfl⟩

/-- Everything a step does: it takes a call or none, reaches a state from there, and records and replies. -/
theorem step_ends {s t : State} (h : step s = .next t) : ∃ s₀ u, Untouched s s₀ ∧ Reached s₀ u ∧ Untouched u t := by
  obtain ⟨-, -, -, rfl⟩ | ⟨w, rest, i, -, -, -, he⟩ | ⟨r, rest, i, -, -, -, -, he⟩ | ⟨task, k, -, hresume⟩ := step_cases h
  · exact ⟨t, t, by constructor <;> rfl, .unmoved, by constructor <;> rfl⟩
  · obtain ⟨u, hr, hu⟩ := exec_ends he
    exact ⟨{ s with bench := rest }, u, by constructor <;> rfl, hr, hu⟩
  · obtain ⟨u, hr, hu⟩ := exec_ends he
    exact ⟨{ s with inbox := rest }, u, by constructor <;> rfl, hr, hu⟩
  · obtain ⟨ho, rfl⟩ := resumeTask_next hresume
    exact ⟨s, _, by constructor <;> rfl, .resumed task k ho, settle_untouched _ _ _ _⟩

/-- No step touches more than lines, POLLS, the bus, the environment and the trace before it records. -/
theorem Reached.moved {s u : State} (h : Reached s u) : Moved s u := by
  cases h with
  | unmoved => exact Moved.refl s
  | frame l b => exact sendFrame_moved l [b] s
  | started task _ => exact runSteps_moved _ 0 s
  | resumed task k _ => exact resumeSteps_moved _ k s

/-- Settles O53: before it records a step moves no constant (`Moved`), and recording moves none either (`Untouched`). -/
theorem geometryIsConstantAndReadable : Obligations.GeometryIsConstantAndReadable := by
  unfold Obligations.GeometryIsConstantAndReadable
  refine ⟨fun s t h => ?_, fun s => ⟨rfl, rfl, rfl, rfl, rfl⟩⟩
  obtain ⟨s₀, u, taken, reached, recorded⟩ := step_ends h
  have moved := reached.moved
  have hw : t.width = s.width := recorded.width.trans (moved.width.trans taken.width)
  have hh : t.height = s.height := recorded.height.trans (moved.height.trans taken.height)
  have hc : t.cfg = s.cfg := recorded.cfg.trans (moved.cfg.trans taken.cfg)
  exact ⟨hw, hh, hc, congrArg BitVec.toNat hw, congrArg BitVec.toNat hh⟩

end Sys2Proof.Machine

/-! BUS moves only by the bus open and the bus close, and by at most one of them in a step of the machine (R31). -/

namespace Sys2Proof.Machine

/-! ### Lines over a step of the machine -/

theorem LinesOk.untouched {s t : State} (h : LinesOk s) (u : Untouched s t) : LinesOk t :=
  h.extend [] (by simp [u.trace]) (by simp [busRun, u.bus]) u.rst u.dc u.pwr

/-- A described bus open stands first, on a bus that is `NeverOpened` (R131). -/
theorem openDescribed_cons {st : Step} {rest : List Step} {s : State} (h : openDescribed (st :: rest) s = true) :
    (st = .openBus → s.bus = .neverOpened) ∧ .openBus ∉ rest := by
  cases st <;> simp_all [openDescribed]

/-- A run whose bus open is a described one keeps the lines in step with the trace. -/
theorem runSteps_lines {l : List Step} {k : Nat} {s : State} (ho : openDescribed l s = true) (h : LinesOk s) :
    LinesOk (runSteps k l s).state := by
  cases l with
  | nil => exact h
  | cons st rest =>
    obtain ⟨hbus, hrest⟩ := openDescribed_cons ho
    have hstep := (takeStep_ok st s hbus).lines h
    rw [runSteps_cons]
    rcases hs : takeStep st s with t | t | ⟨f, t⟩ <;> rw [hs] at hstep
    · exact (runSteps_ok rest (k + 1) t hrest).lines hstep
    · exact hstep
    · exact hstep

theorem resumeSteps_lines {l : List Step} {k : Nat} {s : State} (ho : openDescribed l s = true) (h : LinesOk s) :
    LinesOk (resumeSteps k l s).state := by
  unfold resumeSteps
  split
  · next rest =>
    have hpoll := (poll_ok s).lines h
    rcases hp : poll s with t | t | ⟨f, t⟩ <;> rw [hp] at hpoll
    · exact (runSteps_ok rest (k + 1) t (openDescribed_cons ho).2).lines hpoll
    · exact hpoll
    · exact hpoll
  · exact runSteps_lines ho h

theorem Reached.lines {s u : State} (r : Reached s u) (h : LinesOk s) : LinesOk u := by
  cases r with
  | unmoved => exact h
  | frame l b => exact (sendFrame_ok l [b] s).lines h
  | started task ho => exact runSteps_lines ho h
  | resumed task k ho => exact resumeSteps_lines ho h

/-! ### BUS over the steps of a list -/

/-- Everything one step of a list can do to BUS (R31). -/
theorem takeStep_bus (st : Step) (s : State) :
    (takeStep st s).state.bus = s.bus
      ∨ st = .openBus ∧ (askOpen s).1 = true ∧ (takeStep st s).state.bus = .opened
      ∨ st = .closeBus ∧ s.bus = .opened ∧ (takeStep st s).state.bus = .closed := by
  cases st with
  | openBus =>
    rw [takeStep_openBus]
    split
    · next hok => exact .inr (.inl ⟨rfl, hok, rfl⟩)
    · exact .inl rfl
  | closeBus =>
    rw [takeStep_closeBus]
    split
    · next hb => exact .inr (.inr ⟨rfl, hb, rfl⟩)
    · exact .inl rfl
  | pin p l => cases p <;> exact .inl rfl
  | wait ms => exact .inl (takeStep_quiet (st := .wait ms) rfl s).bus
  | cmd op => exact .inl (takeStep_quiet (st := .cmd op) rfl s).bus
  | dat b => exact .inl (takeStep_quiet (st := .dat b) rfl s).bus
  | bulk bytes => exact .inl (takeStep_quiet (st := .bulk bytes) rfl s).bus
  | busy => exact .inl (takeStep_quiet (st := .busy) rfl s).bus

/-- A property of BUS that every step of a list keeps holds wherever a run of the list ends. -/
theorem runSteps_keeps_bus {P : BusState → Prop} {l : List Step}
    (hstep : ∀ st ∈ l, ∀ u : State, P u.bus → P (takeStep st u).state.bus) (k : Nat) {s : State} (h : P s.bus) :
    P (runSteps k l s).state.bus := by
  induction l generalizing k s with
  | nil => exact h
  | cons st rest ih =>
    have hs' := hstep st List.mem_cons_self s h
    rw [runSteps_cons]
    rcases hs : takeStep st s with t | t | ⟨f, t⟩ <;> rw [hs] at hs'
    · exact ih (fun st' hm => hstep st' (List.mem_cons_of_mem _ hm)) (k + 1) hs'
    · exact hs'
    · exact hs'

/-- The same of a run that goes on with a busy-wait under way, which leaves BUS alone. -/
theorem resumeSteps_keeps_bus {P : BusState → Prop} {l : List Step}
    (hstep : ∀ st ∈ l, ∀ u : State, P u.bus → P (takeStep st u).state.bus) (k : Nat) {s : State} (h : P s.bus) :
    P (resumeSteps k l s).state.bus := by
  unfold resumeSteps
  split
  · have hpoll : P (poll s).state.bus := (poll_quiet s).bus ▸ h
    rcases hp : poll s with t | t | ⟨f, t⟩ <;> rw [hp] at hpoll
    · exact runSteps_keeps_bus (fun st hm => hstep st (List.mem_cons_of_mem _ hm)) (k + 1) hpoll
    · exact hpoll
    · exact hpoll
  · exact runSteps_keeps_bus hstep k h

theorem takeStep_keeps_neverOpened {st : Step} (hst : st ≠ .openBus) (s : State) (h : s.bus = .neverOpened) :
    (takeStep st s).state.bus = .neverOpened := by
  obtain hb | ⟨rfl, -⟩ | ⟨-, hopen, -⟩ := takeStep_bus st s
  · exact hb.trans h
  · exact absurd rfl hst
  · simp [h] at hopen

theorem takeStep_keeps_notClosed {st : Step} (hst : st ≠ .closeBus) (s : State) (h : s.bus ≠ .closed) :
    (takeStep st s).state.bus ≠ .closed := by
  obtain hb | ⟨-, -, hb⟩ | ⟨rfl, -⟩ := takeStep_bus st s
  · rwa [hb]
  · simp [hb]
  · exact absurd rfl hst

/-- Steps that do not both open and close the bus keep a property of BUS that `NeverOpened` has and `Closed` has not: without
an open, `NeverOpened` itself; without a close, not being `Closed`. -/
theorem exists_invariant_excluding_closed {l : List Step} (hl : .openBus ∉ l ∨ .closeBus ∉ l) :
    ∃ P : BusState → Prop, P .neverOpened ∧ ¬ P .closed
      ∧ ∀ st ∈ l, ∀ u : State, P u.bus → P (takeStep st u).state.bus := by
  obtain hl | hl := hl
  · exact ⟨(· = .neverOpened), rfl, by simp, fun st hm =>
      takeStep_keeps_neverOpened fun e => hl (e ▸ hm)⟩
  · exact ⟨(· ≠ .closed), by simp, by simp, fun st hm => takeStep_keeps_notClosed fun e => hl (e ▸ hm)⟩

/-- No operation both opens and closes the bus (R156, R166, R172 (a)). -/
theorem taskSteps_open_or_close (task : Task) {s : State} (hset : ∀ m, (s.cfg.initSeq m).all Step.isSetting = true) :
    .openBus ∉ taskSteps task s ∨ .closeBus ∉ taskSteps task s := by
  cases task with
  | init m =>
    have noClose : .closeBus ∉ s.cfg.initSeq m := fun hm => by
      simpa [Step.isSetting] using List.all_eq_true.mp (hset m) _ hm
    exact .inr (by simp [taskSteps, initSteps, resetSteps, noClose])
  | display buf => exact .inl (quiet_no_open (taskSteps_quiet (.inl ⟨buf, rfl⟩) s).1)
  | displayPartial buf win => exact .inl (quiet_no_open (taskSteps_quiet (.inr (.inl ⟨buf, win, rfl⟩)) s).1)
  | clear => exact .inl (quiet_no_open (taskSteps_quiet (.inr (.inr rfl)) s).1)
  | sleep => exact .inl (by simp [taskSteps, sleepSteps, setting])

/-- One step of the machine does not go from `NeverOpened` past `Open` to `Closed`. -/
theorem Reached.notClosed {s u : State} (r : Reached s u)
    (hset : ∀ m, (s.cfg.initSeq m).all Step.isSetting = true) (hb : s.bus = .neverOpened) : u.bus ≠ .closed := by
  cases r with
  | unmoved => simp [hb]
  | frame l b => simp [(sendFrame_quiet l [b] s).bus, hb]
  | started task _ =>
    obtain ⟨P, h0, hclosed, hstep⟩ := exists_invariant_excluding_closed (taskSteps_open_or_close task hset)
    exact fun e => hclosed (e ▸ runSteps_keeps_bus hstep 0 (hb ▸ h0))
  | resumed task k _ =>
    have hdrop : .openBus ∉ (taskSteps task s).drop k ∨ .closeBus ∉ (taskSteps task s).drop k :=
      (taskSteps_open_or_close task hset).imp (mt List.mem_of_mem_drop) (mt List.mem_of_mem_drop)
    obtain ⟨P, h0, hclosed, hstep⟩ := exists_invariant_excluding_closed hdrop
    exact fun e => hclosed (e ▸ resumeSteps_keeps_bus hstep k (hb ▸ h0))

/-! ### What the trace says of BUS -/

/-- How many successful opens lie behind a bus state (R31). -/
def BusState.opens : BusState → Nat
  | .neverOpened => 0
  | .opened => 1
  | .closed => 1

/-- How many closes lie behind a bus state (R31). -/
def BusState.closes : BusState → Nat
  | .neverOpened => 0
  | .opened => 0
  | .closed => 1

theorem busNext_counts {b c : BusState} {e : Event} (h : busNext b e = some c) :
    c.opens = b.opens + [e].count (.opened true) ∧ c.closes = b.closes + [e].count .closed := by
  cases e with
  | opened ok => cases b <;> cases ok <;> cases h <;> decide
  | closed => cases b <;> cases h; decide
  | _ => cases b <;> cases h <;> simp

/-- Events that keep the bus discipline count the opens and closes between its two ends. -/
theorem busRun_counts {es : List Event} {b c : BusState} (h : busRun b es = some c) :
    c.opens = b.opens + es.count (.opened true) ∧ c.closes = b.closes + es.count .closed := by
  induction es generalizing b with
  | nil =>
    obtain rfl : b = c := by simpa [busRun] using h
    simp
  | cons e rest ih =>
    cases hn : busNext b e with
    | none => simp [busRun, hn] at h
    | some d =>
      obtain ⟨ho, hc⟩ := busNext_counts hn
      obtain ⟨ho', hc'⟩ := ih (b := d) (by simpa [busRun, hn] using h)
      rw [← List.singleton_append, List.count_append, List.count_append]
      omega

/-- Events that keep the bus discipline and do not both open and close move BUS by one of them, or not at all. -/
theorem busRun_moves {es : List Event} {b c : BusState} (h : busRun b es = some c)
    (hbc : b = .neverOpened → c ≠ .closed) :
    c = b ∧ es.count (.opened true) = 0 ∧ es.count .closed = 0
      ∨ b = .neverOpened ∧ c = .opened ∧ es.count (.opened true) = 1 ∧ es.count .closed = 0
      ∨ b = .opened ∧ c = .closed ∧ es.count (.opened true) = 0 ∧ es.count .closed = 1 := by
  obtain ⟨ho, hc⟩ := busRun_counts h
  cases b <;> cases c <;> simp only [BusState.opens, BusState.closes] at ho hc
  case neverOpened.closed => exact absurd rfl (hbc rfl)
  all_goals simp
  all_goals omega

/-- BUS over a step of the machine, with the events of the step (R31). -/
theorem step_moves_bus {s t : State} (hi : s.Inv) (h : step s = .next t) :
    ∃ events, t.trace = s.trace ++ events ∧ busRun s.bus events = some t.bus
      ∧ (s.bus = .neverOpened → t.bus ≠ .closed) := by
  obtain ⟨s₀, u, taken, reached, recorded⟩ := step_ends h
  have lines : LinesOk s := ⟨hi.busTrace, hi.rstTrace, hi.dcTrace, hi.pwrTrace⟩
  have busTrace := ((reached.lines (lines.untouched taken)).untouched recorded).bus
  obtain ⟨events, he⟩ := reached.moved.trace
  have trace : t.trace = s.trace ++ events := by rw [recorded.trace, he, taken.trace]
  refine ⟨events, trace, ?_, fun hb => ?_⟩
  · simpa [trace, busRun_append, lines.bus] using busTrace
  · rw [recorded.bus]
    exact reached.notClosed (taken.cfg ▸ hi.settings) (taken.bus.trans hb)

/-- Settles O15: the counts from the bus discipline over the events of a step, each clause on a single operation from what
that operation does to BUS. -/
theorem busMovesOnlyByOpenAndClose : Obligations.BusMovesOnlyByOpenAndClose := by
  unfold Obligations.BusMovesOnlyByOpenAndClose
  refine ⟨rfl, fun s t hi h => ?_, fun s f emitted task => ?_, fun st s t hopen ht => ?_, fun s bytes hb => ?_⟩
  · obtain ⟨events, trace, hrun, hbc⟩ := step_moves_bus hi h
    exact ⟨events, trace, busRun_moves hrun hbc⟩
  · exact ⟨(raise_untouched f emitted s).bus, (complete_untouched task s).bus⟩
  · have ends : (takeStep st s).state = t := by
      obtain h | h | ⟨f, h⟩ := ht <;> rw [h] <;> rfl
    obtain hb | ⟨hst, hask, hb⟩ | hclose := ends ▸ takeStep_bus st s
    · exact .inl hb
    · exact .inr (.inl ⟨hst, hopen hst, hask, hb⟩)
    · exact .inr (.inr hclose)
  · have notOpen : busWrite bytes s = .raised .notOpen s := if_neg hb
    exact ⟨notOpen, notOpen⟩

end Sys2Proof.Machine

/-! The Pin Controller: a write drives one latch (R122), a read samples BUSY only (R123). -/

namespace Sys2Proof.Machine

/-- Settles O10: each conjunct is the defining equation of `pinWrite` for one pin. -/
theorem pinWriteDrivesOneLatch : Obligations.PinWriteDrivesOneLatch := by
  unfold Obligations.PinWriteDrivesOneLatch
  exact fun l s => ⟨rfl, rfl, rfl, rfl⟩

/-- An answer that the environment's script determines is taken from the script (R16). -/
theorem askBusy_of_script {s : State} {l : Level} {later : List Level} (h : s.env.busy.script = l :: later) :
    (askBusy s).1 = l ∧ (askBusy s).2.env.busy.script = later := by
  simp [askBusy, Answers.take, h]

theorem pinRead_busy (s : State) :
    pinRead .busy s = .ok ((askBusy s).1, (askBusy s).2.emit (.busyRead (askBusy s).1)) := rfl

/-- A read whose answer the script determines returns and emits that answer and leaves the later ones for later reads. -/
theorem pinRead_busy_of_script {s : State} {l : Level} {later : List Level} (h : s.env.busy.script = l :: later) :
    ∃ t, pinRead .busy s = .ok (l, t) ∧ t.env.busy.script = later ∧ t.trace = s.trace ++ [.busyRead l] := by
  obtain ⟨answer, remaining⟩ := askBusy_of_script h
  exact ⟨(askBusy s).2.emit (.busyRead l), by rw [pinRead_busy, answer], by simp [remaining], by simp⟩

/-- Settles O11: each of two reads takes the answer that is next in the script when it is made. -/
theorem pinReadSamplesBusyOnly : Obligations.PinReadSamplesBusyOnly := by
  unfold Obligations.PinReadSamplesBusyOnly
  intro s
  refine ⟨pinRead_busy s, fun first second later script => ?_, rfl, rfl, rfl⟩
  obtain ⟨t, firstRead, script', trace⟩ := pinRead_busy_of_script script
  obtain ⟨u, secondRead, remaining, trace'⟩ := pinRead_busy_of_script script'
  exact ⟨t, u, firstRead, secondRead, remaining, by simp [trace', trace]⟩

end Sys2Proof.Machine

/-! The Serial Bus: a write sends all its bytes, or a proper first part of them (R132, R133). -/

namespace Sys2Proof.Machine

/-! ### The three outcomes of a bus write -/

theorem busWrite_of_not_opened {s : State} (h : s.bus ≠ .opened) (bytes : List Byte) :
    busWrite bytes s = .raised .notOpen s := if_neg h

theorem busWrite_of_completes {s : State} (hb : s.bus = .opened) (ht : (askTransfer s).1 = .completes)
    (bytes : List Byte) : busWrite bytes s = .done ((askTransfer s).2.emit (.sent bytes)) := by
  rcases ha : askTransfer s with ⟨answer, t⟩
  obtain rfl : answer = .completes := by simpa [ha] using ht
  simp [busWrite, hb, ha]

theorem busWrite_of_failsAfter {s : State} {k : Nat} (hb : s.bus = .opened) (ht : (askTransfer s).1 = .failsAfter k)
    (bytes : List Byte) :
    busWrite bytes s = .raised .busIOFailure ((askTransfer s).2.emit (.sent (sentPart k bytes))) := by
  rcases ha : askTransfer s with ⟨answer, t⟩
  obtain rfl : answer = .failsAfter k := by simpa [ha] using ht
  simp [busWrite, hb, ha]

/-- The environment's `k` is the length of the part that left wherever a proper first part can be that long (R132). -/
theorem length_sentPart_of_lt {k : Nat} {bytes : List Byte} (h : k < bytes.length) : (sentPart k bytes).length = k := by
  rw [sentPart, List.length_take]
  omega

/-- Settles O13: one lemma for each outcome of a write; the part that left is `sentPart`. -/
theorem busWriteSendsAllOrAProperPart : Obligations.BusWriteSendsAllOrAProperPart := by
  unfold Obligations.BusWriteSendsAllOrAProperPart
  intro s bytes nonempty
  refine ⟨fun hb => busWrite_of_not_opened hb bytes, fun hb ht => busWrite_of_completes hb ht bytes,
    fun k hb ht => ?_, rfl⟩
  obtain ⟨rest, split, hrest⟩ := sentPart_proper k bytes nonempty
  exact ⟨sentPart k bytes, rest, split, hrest, length_sentPart_of_lt, busWrite_of_failsAfter hb ht bytes⟩

end Sys2Proof.Machine

/-! The Command Protocol: what a frame ends in for each outcome of its bus write (R69, R136, R141 to R143). -/

namespace Sys2Proof.Machine

/-! ### The three outcomes of a frame -/

theorem sendFrame_of_completes {s : State} (hb : s.bus = .opened) (ht : (askTransfer s).1 = .completes)
    (l : Level) (bytes : List Byte) :
    sendFrame l (busWrite bytes) s = .done { s with
      dc := .driven l, cs := .deasserted, env := (askTransfer s).2.env
      trace := s.trace ++ [.pinWritten .dc l, .csAsserted, .sent bytes, .csDeasserted] } := by
  rw [sendFrame_busWrite, if_pos hb, ht]

theorem sendFrame_of_failsAfter {s : State} {k : Nat} (hb : s.bus = .opened)
    (ht : (askTransfer s).1 = .failsAfter k) (l : Level) (bytes : List Byte) :
    sendFrame l (busWrite bytes) s = .raised .busIOFailure { s with
      dc := .driven l, cs := .asserted, env := (askTransfer s).2.env
      trace := s.trace ++ [.pinWritten .dc l, .csAsserted, .sent (sentPart k bytes)] } := by
  rw [sendFrame_busWrite, if_pos hb, ht]

theorem sendFrame_of_not_opened {s : State} (hb : s.bus ≠ .opened) (l : Level) (bytes : List Byte) :
    sendFrame l (busWrite bytes) s = .raised .notOpen { s with
      dc := .driven l, cs := .asserted, trace := s.trace ++ [.pinWritten .dc l, .csAsserted] } := by
  rw [sendFrame_busWrite, if_neg hb]

/-- A failed frame of one byte sent none of it (R132). -/
theorem sendFrame_one_of_failsAfter {s : State} {k : Nat} (hb : s.bus = .opened)
    (ht : (askTransfer s).1 = .failsAfter k) (l : Level) (b : Byte) :
    sendFrame l (busWrite [b]) s = .raised .busIOFailure { s with
      dc := .driven l, cs := .asserted, env := (askTransfer s).2.env
      trace := s.trace ++ [.pinWritten .dc l, .csAsserted, .sent []] } := by
  rw [sendFrame_of_failsAfter hb ht, sentPart_one]

/-- Settles O16: the three senders are frames, and each clause is one outcome of a frame; the part that left of a failed
bulk is `sentPart`. -/
theorem commandProtocolFrames : Obligations.CommandProtocolFrames := by
  unfold Obligations.CommandProtocolFrames
  intro s b bytes
  rw [sendCommand_eq, sendData_eq, sendDataBulk_eq]
  refine ⟨fun hb ht => ?completes, fun k hb ht nonempty => ?fails, fun hb => ?notOpen⟩
  case completes =>
    have frame := sendFrame_of_completes hb ht
    exact ⟨frame .low [b], frame .high [b], frame .high bytes⟩
  case fails =>
    have single := sendFrame_one_of_failsAfter hb ht
    obtain ⟨rest, split, hrest⟩ := sentPart_proper k bytes nonempty
    exact ⟨single .low b, single .high b, sentPart k bytes, rest, split, hrest,
      sendFrame_of_failsAfter hb ht .high bytes⟩
  case notOpen =>
    have frame := sendFrame_of_not_opened hb
    exact ⟨frame .low [b], frame .high [b], frame .high bytes⟩

end Sys2Proof.Machine

/-! LIFE over a step of the machine: an initialisation powers on, SLEEP puts to sleep, and nothing else writes it
(R151, R291). -/

namespace Sys2Proof.Machine

/-- The values that an operation writes to LIFE when it completes (R156, R166). -/
inductive WritesLife : Task → Life → Prop where
  | init (m : Mode) : WritesLife (.init m) .poweredOn
  | sleep : WritesLife .sleep .sleeping

theorem WritesLife.ne_uninitialized {task : Task} {l : Life} (h : WritesLife task l) : l ≠ .uninitialized := by
  cases h <;> simp

/-- No operation is admitted in `Sleeping` (R168). -/
theorem needOf_ne_sleeping (task : Task) : needOf task ≠ .sleeping := by
  cases task <;> simp [needOf]

theorem raise_life (f : Status) (emitted : Bool) (s : State) : (raise f emitted s).life = s.life := by
  unfold raise
  cases poisons f emitted <;> rfl

theorem complete_life (task : Task) (s : State) :
    (complete task s).life = s.life ∨ WritesLife task (complete task s).life := by
  cases task with
  | init m => exact .inr (.init m)
  | sleep => exact .inr .sleep
  | display buf => exact .inl rfl
  | displayPartial buf win => exact .inl rfl
  | clear => exact .inl rfl

theorem settle_life (task : Task) (resumed : Bool) (start : Nat) (r : Run) :
    (settle task resumed start r).life = r.state.life ∨ WritesLife task (settle task resumed start r).life := by
  cases r with
  | finished s => exact complete_life task s
  | waiting k s => exact .inl rfl
  | raised f s => exact .inl (raise_life f _ s)

theorem settleCall_life (start : Nat) (r : Turn) : (settleCall start r).life = r.state.life := by
  cases r with
  | done s => rfl
  | again s => rfl
  | raised f s => exact raise_life f _ s

/-- A meaning leaves LIFE alone, or starts and completes an operation that LIFE admits (R155, R168). -/
theorem exec_life {i : Instr} {s t : State} (h : exec i s = .next t) :
    t.life = s.life ∨ ∃ task, s.life = needOf task ∧ WritesLife task t.life := by
  obtain ⟨-, ⟨l, b, rfl⟩ | ⟨f, -, rfl⟩ | ⟨task, -, need, hstart⟩ | ⟨warn, out, rfl⟩⟩ := exec_cases h
  · exact .inl ((settleCall_life _ _).trans (sendFrame_moved l [b] s).life)
  · exact .inl (raise_life f false s)
  · obtain ⟨-, rfl⟩ := startTask_next hstart
    exact (settle_life _ _ _ _).imp (·.trans (runSteps_moved _ 0 s).life) fun w => ⟨task, need, w⟩
  · exact .inl rfl

/-- Everything a step can do to LIFE: nothing, or what an operation writes that it starts or goes on with. -/
theorem step_life {s t : State} (h : step s = .next t) :
    t.life = s.life
      ∨ ∃ task, (s.life = needOf task ∨ ∃ k, s.seq = .running task k) ∧ WritesLife task t.life := by
  obtain ⟨-, -, -, rfl⟩ | ⟨w, rest, i, -, -, -, he⟩ | ⟨r, rest, i, -, -, -, -, he⟩ | ⟨task, k, hs, hresume⟩ := step_cases h
  · exact .inl rfl
  · exact (exec_life he).imp id fun ⟨task, need, w⟩ => ⟨task, .inl need, w⟩
  · exact (exec_life he).imp id fun ⟨task, need, w⟩ => ⟨task, .inl need, w⟩
  · obtain ⟨-, rfl⟩ := resumeTask_next hresume
    exact (settle_life _ _ _ _).imp (·.trans (resumeSteps_moved _ k s).life) fun w => ⟨task, .inr ⟨k, hs⟩, w⟩

/-- An operation in progress is in the lifecycle state that admitted it (R137, R168). -/
theorem State.Inv.life_of_running {s : State} (hi : s.Inv) {task : Task} {k : Nat} (hs : s.seq = .running task k) :
    s.life = needOf task := by
  have notPoisoned : s.poisoned = false := by
    by_contra hp
    simp [hi.poisonedIdle (by simpa using hp)] at hs
  have lifeAndBus := hi.lifeBus notPoisoned
  cases task <;> simp only [lifeMatchesBus, hs] at lifeAndBus <;> exact lifeAndBus.1

/-- Settles O55: whatever a step writes to LIFE is not `Uninitialized`, and only an operation writes LIFE, which none does
from `Sleeping`: none is admitted there and, by the invariant, none is in progress. -/
theorem lifecycleOnlyMovesForward : Obligations.LifecycleOnlyMovesForward := by
  unfold Obligations.LifecycleOnlyMovesForward
  refine ⟨fun s t h on => ?_, fun s t hi h asleep => ?_, fun s => rfl⟩
  · obtain same | ⟨task, -, writes⟩ := step_life h
    · rwa [same]
    · exact writes.ne_uninitialized
  · obtain same | ⟨task, runs, -⟩ := step_life h
    · rwa [same]
    · have need : s.life = needOf task := runs.elim id fun ⟨_, hs⟩ => hi.life_of_running hs
      exact absurd (need.symm.trans asleep) (needOf_ne_sleeping task)

end Sys2Proof.Machine

/-! The busy-wait while the panel is not ready: one turn of the loop for each step of the machine, and nothing else
(R153, R303). -/

namespace Sys2Proof.Machine

theorem limitReached_eq_false_iff {limit : Option Nat} {polls : Nat} :
    limitReached limit polls = false ↔ ∀ l, limit = some l → polls < l := by
  cases limit <;> simp [limitReached]

/-- The state one turn of the busy-wait later, when its sample was not ready and `tr` are the transfers to come (R153). -/
def State.turnLater (s : State) (tr : Answers Transfer) : State :=
  { s with
    dc := .driven .low
    cs := .deasserted
    polls := s.polls + 1
    env := { s.env with transfers := tr, busy := (askBusy s).2.env.busy }
    trace := s.trace ++ notReadyTurn s.cfg.pollDelayMs }

/-- One turn of the busy-wait whose sample is not ready, below the limit (R153). -/
theorem poll_notReady {s : State} (hb : s.bus = .opened) (ht : s.env.transfers.always .completes)
    (low : (askBusy s).1 = .low) (below : ∀ l, s.cfg.busyPollLimit = some l → s.polls + 1 < l) :
    ∃ tr, tr.always .completes ∧ poll s = .again (s.turnLater tr) := by
  obtain ⟨tr, htr, turn⟩ := poll_completes s hb ht
  refine ⟨tr, htr, ?_⟩
  rw [turn, low]
  simp [afterSample, limitReached_eq_false_iff.mpr below, State.emit, notReadyTurn, State.turnLater]

/-- The operation `task` waits at the busy-wait of index `k`, opens no bus from there on, and the bus is open and completes
every transfer. -/
structure WaitsAt (task : Task) (k : Nat) (s : State) : Prop where
  seq : s.seq = .running task k
  atBusy : (taskSteps task s)[k]? = some .busy
  noOpen : .openBus ∉ (taskSteps task s).drop k
  opened : s.bus = .opened
  completes : s.env.transfers.always .completes

theorem WaitsAt.turnLater {task : Task} {k : Nat} {s : State} (w : WaitsAt task k s) {tr : Answers Transfer}
    (htr : tr.always .completes) : WaitsAt task k (s.turnLater tr) :=
  ⟨w.seq, w.atBusy, w.noOpen, w.opened, htr⟩

/-- One step of the machine while an operation waits and the sample is not ready, below the limit: it waits on. -/
theorem WaitsAt.step_notReady {task : Task} {k : Nat} {s : State} (w : WaitsAt task k s)
    (low : (askBusy s).1 = .low) (below : ∀ l, s.cfg.busyPollLimit = some l → s.polls + 1 < l) :
    ∃ tr, tr.always .completes ∧ step s = .next (s.turnLater tr) := by
  obtain ⟨tr, htr, turn⟩ := poll_notReady w.opened w.completes low below
  refine ⟨tr, htr, ?_⟩
  simp [step, w.seq, resumeTask_busy w.atBusy w.noOpen, turn, settle, State.turnLater]

/-- Any number of steps while every sample is not ready, below the limit: one turn of the loop for each. -/
theorem WaitsAt.run_notReady {task : Task} {k n : Nat} {s : State} (w : WaitsAt task k s)
    (low : s.env.busy.always .low) (below : ∀ l, s.cfg.busyPollLimit = some l → s.polls + n < l) :
    ∃ dc cs env, env.transfers.always .completes ∧ env.busy.always .low ∧ core.run n s = .next { s with
      dc := dc, cs := cs, env := env, polls := s.polls + n
      trace := s.trace ++ (List.replicate n (notReadyTurn s.cfg.pollDelayMs)).flatten } := by
  induction n generalizing s with
  | zero => exact ⟨s.dc, s.cs, s.env, w.completes, low, by simp [Host.Core.run]⟩
  | succ n ih =>
    obtain ⟨sample, low'⟩ := take_always (free := Config.busyAnswer) low
    obtain ⟨tr, htr, hstep⟩ := w.step_notReady sample fun l hl => by have := below l hl; omega
    have below' : ∀ l, s.cfg.busyPollLimit = some l → s.polls + 1 + n < l := fun l hl => by
      have := below l hl
      omega
    obtain ⟨dc, cs, env, completes, stillLow, hrun⟩ := ih (w.turnLater htr) low' below'
    refine ⟨dc, cs, env, completes, stillLow, ?_⟩
    rw [run_succ n hstep, hrun]
    simp [State.turnLater, List.replicate_succ, Nat.add_assoc, Nat.add_comm 1 n]

/-- Settles O19: with no limit the wait is below it for ever, so every step is one more turn of the loop. -/
theorem unboundedWaitHangs : Obligations.UnboundedWaitHangs := by
  unfold Obligations.UnboundedWaitHangs
  intro s task k n seq atBusy unlimited opened noOpen completes notReady
  have waits : WaitsAt task k s := ⟨seq, atBusy, noOpen, opened, completes⟩
  obtain ⟨dc, cs, env, -, -, hrun⟩ := waits.run_notReady (n := n) notReady (by simp [unlimited])
  exact ⟨_, hrun, rfl, rfl, rfl, rfl, rfl, rfl, rfl, rfl, rfl⟩

end Sys2Proof.Machine

/-! The decoder and the encoder are each other's inverse, row by row of the opcode table (R90, R93, R94, R100). -/

namespace Sys2Proof

/-! ### Wire symbols -/

/-- The instruction of a command symbol (R94). -/
def Opcode.instr : Opcode → Instr
  | .panelSetting => .panelSetting
  | .powerSetting => .powerSetting
  | .powerOff => .powerOff
  | .powerOn => .powerOn
  | .boosterSoftStart => .boosterSoftStart
  | .deepSleep => .deepSleep
  | .oldImageData => .oldImageData
  | .displayRefresh => .displayRefresh
  | .newImageData => .newImageData
  | .vcomDc => .vcomDc
  | .vcomDataInterval => .vcomDataInterval
  | .tconSetting => .tconSetting
  | .resolution => .resolution
  | .statusQuery => .statusQuery
  | .partialWindow => .partialWindow
  | .partialIn => .partialIn
  | .crossRefE0 => .crossRefE0
  | .crossRefE5 => .crossRefE5

theorem encode_instr (op : Opcode) : encode op.instr = .symbol (commandSymbol op) := by
  cases op <;> rfl

/-- What an instruction is: a command symbol, the data symbol, the request for an operation, ENCODE, or a reserved
operation select (R90, R93, R100). -/
inductive Instr.Kind : Instr → Prop where
  | command (op : Opcode) : Kind op.instr
  | data (b : Byte) : Kind (.data b)
  | operation (task : Machine.Task) : Kind (Machine.instrOf task)
  | encode (img : Image) : Kind (.encode img)
  | reserved (low : BitVec 3) : Kind (.reservedOpsel low)

theorem Instr.kind : ∀ i : Instr, i.Kind
  | .panelSetting => .command .panelSetting
  | .powerSetting => .command .powerSetting
  | .powerOff => .command .powerOff
  | .powerOn => .command .powerOn
  | .boosterSoftStart => .command .boosterSoftStart
  | .deepSleep => .command .deepSleep
  | .oldImageData => .command .oldImageData
  | .displayRefresh => .command .displayRefresh
  | .newImageData => .command .newImageData
  | .vcomDc => .command .vcomDc
  | .vcomDataInterval => .command .vcomDataInterval
  | .tconSetting => .command .tconSetting
  | .resolution => .command .resolution
  | .statusQuery => .command .statusQuery
  | .partialWindow => .command .partialWindow
  | .partialIn => .command .partialIn
  | .crossRefE0 => .command .crossRefE0
  | .crossRefE5 => .command .crossRefE5
  | .data b => .data b
  | .init => .operation (.init .full)
  | .initFast => .operation (.init .fast)
  | .initPart => .operation (.init .part)
  | .display buf => .operation (.display buf)
  | .displayPartial buf win => .operation (.displayPartial buf win)
  | .clear => .operation .clear
  | .sleep => .operation .sleep
  | .encode img => .encode img
  | .reservedOpsel low => .reserved low

theorem encode_instrOf (task : Machine.Task) : ∃ r, encode (Machine.instrOf task) = .request r := by
  cases task with
  | init m => cases m <;> exact ⟨_, rfl⟩
  | _ => exact ⟨_, rfl⟩

/-- Only the 18 command symbols and the data symbol are encoded on the wire (R90). -/
theorem encode_eq_symbol {i : Instr} {w : Symbol} (h : encode i = .symbol w) :
    (∃ op : Opcode, i = op.instr ∧ w = commandSymbol op) ∨ ∃ b, i = .data b ∧ w = dataSymbol b := by
  cases i.kind with
  | command op => exact .inl ⟨op, rfl, Call.symbol.inj (h.symm.trans (encode_instr op))⟩
  | data b => exact .inr ⟨b, rfl, (Call.symbol.inj h).symm⟩
  | operation task =>
    obtain ⟨r, hr⟩ := encode_instrOf task
    cases hr.symm.trans h
  | encode img => cases h
  | reserved low => cases h

@[simp] theorem getLsbD_commandSymbol (op : Opcode) : (commandSymbol op).getLsbD 8 = false := by
  cases op <;> rfl

@[simp] theorem getLsbD_dataSymbol (b : Byte) : (dataSymbol b).getLsbD 8 = true := by
  simp [dataSymbol]

@[simp] theorem setWidth_dataSymbol (b : Byte) : (dataSymbol b).setWidth 8 = b := by
  simp [dataSymbol]

/-- A symbol whose bit 8 is set is the data symbol of its byte (R90). -/
theorem dataSymbol_setWidth {w : Symbol} (h : w.getLsbD 8 = true) : dataSymbol (w.setWidth 8) = w := by
  refine BitVec.eq_of_getLsbD_eq fun j hj => ?_
  obtain rfl | hlt : j = 8 ∨ j < 8 := by omega
  · rw [getLsbD_dataSymbol, h]
  · have bit : ∀ k < 8, (0x100 : Symbol).getLsbD k = false := by decide
    simp only [dataSymbol, BitVec.getLsbD_or, bit j hlt, BitVec.getLsbD_setWidth, hlt, hj, decide_true, Bool.true_and,
      Bool.false_or]

/-- A symbol whose bit 8 is clear is a byte, widened (R90). -/
theorem setWidth_setWidth_of_clear {w : Symbol} (h : w.getLsbD 8 = false) : (w.setWidth 8).setWidth 9 = w := by
  refine BitVec.eq_of_getLsbD_eq fun j hj => ?_
  obtain rfl | hlt : j = 8 ∨ j < 8 := by omega
  · rw [h, BitVec.getLsbD_setWidth, BitVec.getLsbD_setWidth]
    rfl
  · simp only [BitVec.getLsbD_setWidth, hlt, hj, decide_true, Bool.true_and]

theorem decodeCommand_byte (op : Opcode) : decodeCommand op.byte = .ok op.instr := by
  cases op <;> rfl

/-- A byte that decodes to a command symbol is the one that symbol encodes to (R94). -/
theorem encode_of_decodeCommand {b : Byte} {i : Instr} (h : decodeCommand b = .ok i) :
    encode i = .symbol (b.setWidth 9) := by
  unfold decodeCommand at h
  split at h
  case h_19 => cases h
  all_goals
    next hb =>
    cases h
    rw [← BitVec.ofNat_toNat, hb]
    rfl

theorem decodeCommand_error {b : Byte} {e : DecodeError} (h : decodeCommand b = .error e) : e = .unlistedOpcode b := by
  unfold decodeCommand at h
  split at h <;> cases h
  rfl

/-- The command symbols are refused exactly off the 18 opcodes (R94, R99). -/
theorem decodeCommand_eq_error_iff (b : Byte) :
    decodeCommand b = .error (.unlistedOpcode b) ↔ ∀ op : Opcode, b ≠ op.byte := by
  refine ⟨?_, fun unlisted => ?_⟩
  · rintro refused op rfl
    simp [decodeCommand_byte] at refused
  · cases h : decodeCommand b with
    | error e => rw [decodeCommand_error h]
    | ok i =>
      obtain ⟨op, -, hw⟩ | ⟨c, -, hw⟩ := encode_eq_symbol (encode_of_decodeCommand h)
      · have widened := congrArg (BitVec.setWidth 8) hw
        exact absurd (by simpa [commandSymbol] using widened) (unlisted op)
      · have bit := congrArg (BitVec.getLsbD · 8) hw
        simp only [getLsbD_dataSymbol, BitVec.getLsbD_setWidth] at bit
        simp at bit

theorem encode_of_decodeSymbol {w : Symbol} {i : Instr} (h : decodeSymbol w = .ok i) : encode i = .symbol w := by
  unfold decodeSymbol at h
  split at h
  · next bit =>
    cases h
    exact congrArg Call.symbol (dataSymbol_setWidth bit)
  · next bit =>
    rw [encode_of_decodeCommand h, setWidth_setWidth_of_clear (by simpa using bit)]

/-! ### Host requests -/

/-- The OPSEL of a reserved operation select is 8 to 15 and gives back its three low bits (R100). -/
theorem reservedOpsel_bits (low : BitVec 3) :
    8 ≤ (0x8 ||| low.setWidth 4 : Opsel).toNat ∧ (0x8 ||| low.setWidth 4 : Opsel).setWidth 3 = low := by
  revert low
  decide

/-- An OPSEL from 8 on is the reserved one of its three low bits (R100). -/
theorem reservedOpsel_of_le {opsel : Opsel} (h : 8 ≤ opsel.toNat) :
    (0x8 ||| (opsel.setWidth 3).setWidth 4 : Opsel) = opsel := by
  revert opsel
  decide

theorem decodeRequest_reserved {r : Request} (h : 8 ≤ r.opsel.toNat) :
    decodeRequest r = .ok (.reservedOpsel (r.opsel.setWidth 3)) := by
  unfold decodeRequest
  split
  case h_9 => rfl
  all_goals omega

end Sys2Proof

namespace Sys2Proof

theorem decode_encode {i : Instr} (h : i.wf = true) : decode (encode i) = .ok i := by
  have command : ∀ op : Opcode, decode (encode op.instr) = .ok op.instr := fun op => by cases op <;> rfl
  cases i with
  | data b => simp only [encode, decode, decodeSymbol, getLsbD_dataSymbol, if_true, setWidth_dataSymbol]
  | encode img => exact if_pos h
  | reservedOpsel low =>
    obtain ⟨hle, hlow⟩ := reservedOpsel_bits low
    exact (decodeRequest_reserved hle).trans (congrArg (fun l => Except.ok (Instr.reservedOpsel l)) hlow)
  | _ => rfl

/-- Only ENCODE has an ill-formed operand, and its request is checked (R191). -/
theorem wf_of_decode {c : Call} {i : Instr} (h : decode c = .ok i) : i.wf = true := by
  cases i with
  | encode img =>
    cases c with
    | symbol w => cases encode_of_decodeSymbol h
    | request r =>
      simp only [decode, decodeRequest] at h
      split at h
      case h_8 =>
        split at h <;> cases h
        assumption
      all_goals cases h
  | _ => rfl

/-- A request that decodes keeps its OPSEL (R93). -/
theorem encode_of_decodeRequest {r : Request} {i : Instr} (h : decodeRequest r = .ok i) :
    ∃ r', encode i = .request r' ∧ r'.opsel = r.opsel := by
  unfold decodeRequest at h
  split at h
  case h_8 hop =>
    split at h <;> cases h
    exact ⟨_, rfl, (BitVec.eq_of_toNat_eq hop).symm⟩
  case h_9 =>
    cases h
    simp only [imp_false] at *
    exact ⟨_, rfl, reservedOpsel_of_le (opsel := r.opsel) (by omega)⟩
  all_goals
    next hop =>
    cases h
    exact ⟨_, rfl, (BitVec.eq_of_toNat_eq hop).symm⟩

/-- Settles O4: one lemma for each direction, over the rows of the table. -/
theorem decodeAndEncodeAgree : Obligations.DecodeAndEncodeAgree := by
  unfold Obligations.DecodeAndEncodeAgree
  exact ⟨fun _ => decode_encode, fun _ _ => wf_of_decode, fun _ _ => encode_of_decodeSymbol,
    fun _ _ => encode_of_decodeRequest⟩

/-- Settles O3: each word is computed by the decoder. -/
theorem wordsDecodeAsTheTableSays : Obligations.WordsDecodeAsTheTableSays := by
  unfold Obligations.WordsDecodeAsTheTableSays
  decide

/-- A widened byte is a command symbol (R90). -/
theorem decode_setWidth (b : Byte) : decode (.symbol (b.setWidth 9)) = decodeCommand b := by
  have byte : (b.setWidth 9 : Symbol).setWidth 8 = b := by simp
  simp [decode, decodeSymbol, byte]

/-- The 18 opcodes in the order of their bytes (R94). -/
def Opcode.all : List Opcode :=
  [.panelSetting, .powerSetting, .powerOff, .powerOn, .boosterSoftStart, .deepSleep, .oldImageData, .displayRefresh,
    .newImageData, .vcomDc, .vcomDataInterval, .tconSetting, .resolution, .statusQuery, .partialWindow, .partialIn,
    .crossRefE0, .crossRefE5]

theorem Opcode.mem_all (op : Opcode) : op ∈ Opcode.all := by
  cases op <;> decide

theorem decode_unlisted_iff (b : Byte) :
    decode (.symbol (b.setWidth 9)) = .error (.unlistedOpcode b) ↔ b ∉ Opcode.all.map Opcode.byte := by
  rw [decode_setWidth, decodeCommand_eq_error_iff, List.mem_map, not_exists]
  exact ⟨fun h op hop => h op hop.2.symm, fun h op hb => h op ⟨op.mem_all, hb.symm⟩⟩

/-- Settles O5: the bytes of the statement are those of the 18 opcodes, and counting them leaves 238. -/
theorem onlyTheEighteenOpcodesDecode : Obligations.OnlyTheEighteenOpcodesDecode := by
  unfold Obligations.OnlyTheEighteenOpcodesDecode
  refine ⟨decode_unlisted_iff, ?_⟩
  simp only [decode_unlisted_iff]
  decide +kernel

/-- An ENCODE whose image lacks samples is refused by the decoder (R191). -/
theorem decode_encode_of_short {img : Image} (h : img.pix.length ≠ img.iw * img.ih) :
    decode (encode (.encode img)) = .error .imageShape :=
  if_neg (by simpa [Image.wf] using h)

/-- Settles O40: the decoder and the meaning check the same shape. -/
theorem imagesHoldTheirSamples : Obligations.ImagesHoldTheirSamples := by
  unfold Obligations.ImagesHoldTheirSamples
  refine fun s img idle short => ⟨decode_encode_of_short short, ?_⟩
  exact (Machine.whenIdle_idle idle _).trans (if_neg (by simpa [Image.wf] using short))

end Sys2Proof

namespace Sys2Proof.Machine

/-- Settles O1: both are records with the stated values. -/
theorem constructionSetsEveryPiece : Obligations.ConstructionSetsEveryPiece := by
  unfold Obligations.ConstructionSetsEveryPiece
  rintro s t (rfl | rfl)
  · exact ⟨rfl, rfl, rfl, rfl, rfl, rfl, rfl, rfl, rfl, rfl, rfl, rfl⟩
  · exact ⟨rfl, rfl, rfl, rfl, rfl, rfl, rfl, rfl, rfl, rfl, rfl, rfl⟩

theorem step_of_symbol {s : State} {w : Symbol} {rest : List Symbol} {i : Instr} (idle : s.seq = .idle)
    (hb : s.bench = w :: rest) (hd : decode (.symbol w) = .ok i) : step s = exec i { s with bench := rest } := by
  simp [step, idle, fetch, hb, hd]

theorem step_of_request {s : State} {r : Request} {rest : List Request} {i : Instr} (idle : s.seq = .idle)
    (hb : s.bench = []) (hi : s.inbox = r :: rest) (hd : decode (.request r) = .ok i) :
    step s = exec i { s with inbox := rest } := by
  simp [step, idle, fetch, hb, hi, hd]

/-- Settles O2: one equation of `step` for each of its four cases. -/
theorem stepRunsTheDecodedInstruction : Obligations.StepRunsTheDecodedInstruction := by
  unfold Obligations.StepRunsTheDecodedInstruction
  refine ⟨fun s w rest i => step_of_symbol, fun s r rest i => step_of_request, fun s idle hb hi => ?_,
    fun s task k hs => ?_⟩
  · simp [step, idle, fetch, hb, hi]
  · simp [step, hs]

end Sys2Proof.Machine

/-! A wire symbol called by itself sends one frame and replies (R91, R92, R136; log entry 3). -/

namespace Sys2Proof.Machine

theorem exec_instr (op : Opcode) (s : State) : exec op.instr s = callStep (.cmd op) s := by
  cases op <;> rfl

/-- The level of the data/command line under a symbol: its bit 8 (R90). -/
def symbolLevel (w : Symbol) : Level := if w.getLsbD 8 then .high else .low

/-- A wire symbol is one frame of one byte at its level, and the reply. -/
theorem exec_symbol {i : Instr} {w : Symbol} (h : encode i = .symbol w) (s : State) :
    ∃ b, exec i s = whenIdle s
      (.next (settleCall s.trace.length (sendFrame (symbolLevel w) (busWrite [b]) s))) := by
  obtain ⟨op, rfl, rfl⟩ | ⟨b, rfl, rfl⟩ := encode_eq_symbol h
  · refine ⟨op.byte, ?_⟩
    rw [exec_instr, symbolLevel, getLsbD_commandSymbol]
    rfl
  · refine ⟨b, ?_⟩
    rw [symbolLevel, getLsbD_dataSymbol]
    rfl

/-! ### The frame of a symbol when its transfer completes -/

theorem settleCall_of_completes {s : State} (hb : s.bus = .opened) (ht : (askTransfer s).1 = .completes) (l : Level)
    (b : Byte) : settleCall s.trace.length (sendFrame l (busWrite [b]) s) = { s with
      dc := .driven l, cs := .deasserted, env := (askTransfer s).2.env
      trace := s.trace ++ [.pinWritten .dc l, .csAsserted, .sent [b], .csDeasserted]
      replies := s.replies ++ [.status .ok] } := by
  rw [sendFrame_of_completes hb ht]
  rfl

theorem exec_instr_of_completes {s : State} (idle : s.seq = .idle) (hb : s.bus = .opened)
    (ht : (askTransfer s).1 = .completes) (op : Opcode) : exec op.instr s = .next (afterCommand op.byte s) := by
  rw [exec_instr, callStep, whenIdle_idle idle]
  exact congrArg Host.Outcome.next (settleCall_of_completes hb ht .low op.byte)

/-- Settles O6: the frame of a command symbol, for each of the 18. -/
theorem commandSymbolsSendTheirFrame : Obligations.CommandSymbolsSendTheirFrame := by
  unfold Obligations.CommandSymbolsSendTheirFrame
  intro s idle hb ht
  have frame := exec_instr_of_completes idle hb ht
  exact ⟨frame .panelSetting, frame .powerSetting, frame .powerOff, frame .powerOn, frame .boosterSoftStart,
    frame .deepSleep, frame .oldImageData, frame .displayRefresh, frame .newImageData, frame .vcomDc,
    frame .vcomDataInterval, frame .tconSetting, frame .resolution, frame .statusQuery, frame .partialWindow,
    frame .partialIn, frame .crossRefE0, frame .crossRefE5⟩

/-- Settles O7: the frame of the data symbol. -/
theorem dataSymbolSendsItsFrame : Obligations.DataSymbolSendsItsFrame := by
  unfold Obligations.DataSymbolSendsItsFrame
  intro s b idle hb ht
  exact (whenIdle_idle idle _).trans (congrArg Host.Outcome.next (settleCall_of_completes hb ht .high b))

/-! ### The frame of a symbol that raises -/

/-- A call that raised after an event stops there, poisoned (R251). -/
theorem settleCall_raised {f : Status} (hf : f ≠ .busOpenFailure) {start : Nat} {v : State}
    (grows : start < v.trace.length) : settleCall start (.raised f v) = stoppedBy f v := by
  simp only [settleCall, grows, decide_true]
  exact raise_stoppedBy hf v

/-- Settles O8: the frame's two ways to raise, each after the event of the data/command line. -/
theorem wireSymbolFailuresPoison : Obligations.WireSymbolFailuresPoison := by
  unfold Obligations.WireSymbolFailuresPoison
  intro s i w symbol idle
  obtain ⟨b, call⟩ := exec_symbol symbol s
  rw [whenIdle_idle idle] at call
  refine ⟨fun hb fails => ?failed, fun hb => ?notOpen⟩
  case failed =>
    obtain ⟨k, hk⟩ : ∃ k, (askTransfer s).1 = .failsAfter k := by
      cases h : (askTransfer s).1 with
      | completes => exact absurd h fails
      | failsAfter k => exact ⟨k, rfl⟩
    rw [sendFrame_one_of_failsAfter hb hk, settleCall_raised (by simp) (by simp)] at call
    exact ⟨_, call, rfl, rfl, rfl, rfl, rfl⟩
  case notOpen =>
    rw [sendFrame_of_not_opened hb, settleCall_raised (by simp) (by simp)] at call
    exact ⟨_, call, rfl, rfl, rfl, rfl, rfl⟩

/-! ### What a symbol leaves alone -/

/-- What a wire symbol leaves alone whichever way it ends: all but DC, chip-select, the trace, the answers to transfers and
the fault records. -/
structure SymbolFrame (s t : State) : Prop where
  outside : sameOutside s t
  mode : t.mode = s.mode
  seq : t.seq = s.seq
  polls : t.polls = s.polls
  busy : t.env.busy = s.env.busy

/-- Everything a wire symbol can do: its frame is complete, with the reply `OK`, or it raised, with the reply of a fault. -/
theorem exec_symbol_cases {i : Instr} {w : Symbol} {s t : State} (symbol : encode i = .symbol w)
    (h : exec i s = .next t) :
    SymbolFrame s t ∧ (t.faults = s.faults ∧ t.poisoned = s.poisoned ∧ t.csDraws = s.csDraws ∧ t.cs = .deasserted
      ∨ ∃ f, f ≠ .ok ∧ t.replies = s.replies ++ [.status f]) := by
  obtain ⟨b, call⟩ := exec_symbol symbol s
  obtain ⟨idle, ht⟩ := whenIdle_next (call.symm.trans h)
  obtain rfl := Host.Outcome.next.inj ht
  by_cases hb : s.bus = .opened
  · cases hk : (askTransfer s).1 with
    | completes =>
      rw [settleCall_of_completes hb hk]
      exact ⟨⟨⟨rfl, rfl, rfl, rfl, rfl, rfl, rfl, rfl, rfl, rfl⟩, rfl, rfl, rfl, rfl⟩, .inl ⟨rfl, rfl, rfl, rfl⟩⟩
    | failsAfter k =>
      rw [sendFrame_one_of_failsAfter hb hk, settleCall_raised (by simp) (by simp)]
      exact ⟨⟨⟨rfl, rfl, rfl, rfl, rfl, rfl, rfl, rfl, rfl, rfl⟩, rfl, idle.symm, rfl, rfl⟩, .inr ⟨_, by simp, rfl⟩⟩
  · rw [sendFrame_of_not_opened hb, settleCall_raised (by simp) (by simp)]
    exact ⟨⟨⟨rfl, rfl, rfl, rfl, rfl, rfl, rfl, rfl, rfl, rfl⟩, rfl, idle.symm, rfl, rfl⟩, .inr ⟨_, by simp, rfl⟩⟩

/-- Settles O9: the reply tells a complete frame from one that raised. -/
theorem wireSymbolsLeaveTheRestAlone : Obligations.WireSymbolsLeaveTheRestAlone := by
  unfold Obligations.WireSymbolsLeaveTheRestAlone
  intro s t i w symbol h
  obtain ⟨frame, ending⟩ := exec_symbol_cases symbol h
  refine ⟨frame.outside, frame.mode, frame.seq, frame.polls, frame.busy, fun replied => ?_⟩
  obtain complete | ⟨f, hf, raised⟩ := ending
  · exact complete
  · exact absurd (by simpa using raised.symm.trans replied) hf

end Sys2Proof.Machine

/-! Admission: which check refuses a request, and that an admitted one starts (R155, R168, R253 to R255, R261). -/

namespace Sys2Proof.Machine

/-- The checks of an operation on its operands (R155). -/
def operandChecks (task : Task) (s : State) : List (Bool × Status) :=
  match task with
  | .init _ => []
  | .display buf => lengthCheck buf s
  | .displayPartial buf win => lengthCheck buf s ++ windowCheck win s
  | .clear => []
  | .sleep => []

/-- A request for an operation is admission by the checks of LIFE and POISONED and then those on its operands. -/
theorem exec_instrOf (task : Task) (s : State) :
    exec (instrOf task) s = admitTask (lifeChecks (needOf task) s ++ operandChecks task s) task s := by
  cases task with
  | init m => cases m <;> rfl
  | _ => rfl

theorem exec_of_check_fails {task : Task} {s : State} {f : Status} (idle : s.seq = .idle)
    (h : firstFailure (lifeChecks (needOf task) s ++ operandChecks task s) = some f) :
    exec (instrOf task) s = .next (cleanRefusal f s) := by
  rw [exec_instrOf, admit_fail idle h]

theorem exec_of_poisoned {s : State} (idle : s.seq = .idle) (hp : s.poisoned = true) (task : Task) :
    exec (instrOf task) s = .next (cleanRefusal .poisoned s) :=
  exec_of_check_fails idle (lifeChecks_poisoned hp _ _)

theorem exec_of_wrong_life {s : State} {task : Task} (idle : s.seq = .idle) (hp : s.poisoned = false)
    (hl : s.life ≠ needOf task) : exec (instrOf task) s = .next (cleanRefusal (.preconditionViolation .badState) s) :=
  exec_of_check_fails idle (lifeChecks_wrong hp hl _)

/-- With LIFE and POISONED as an operation needs them, its operands decide (R155). -/
theorem exec_of_operand_fails {s : State} {task : Task} {f : Status} (idle : s.seq = .idle) (hp : s.poisoned = false)
    (hl : s.life = needOf task) (h : firstFailure (operandChecks task s) = some f) :
    exec (instrOf task) s = .next (cleanRefusal f s) :=
  exec_of_check_fails idle ((lifeChecks_pass hp hl _).trans h)

/-- The checks on the operands are those of `operandsFit`. -/
theorem operandChecks_pass_iff {task : Task} {s : State} :
    firstFailure (operandChecks task s) = none ↔ operandsFit task s := by
  cases task with
  | display buf => by_cases h : buf.length = planeLen s.w s.h <;> simp [operandChecks, operandsFit, lengthCheck, firstFailure, h]
  | displayPartial buf win =>
    by_cases h : buf.length = planeLen s.w s.h <;> cases hw : windowValid s.w s.h win <;>
      simp [operandChecks, operandsFit, lengthCheck, windowCheck, firstFailure, h, hw]
  | _ => simp [operandChecks, operandsFit, firstFailure]

/-- A request to an idle machine is refused cleanly with a fault, or admitted. -/
theorem exec_instrOf_cases {s : State} (idle : s.seq = .idle) (task : Task) :
    (∃ f, exec (instrOf task) s = .next (cleanRefusal f s)) ∨ admitted task s := by
  cases h : firstFailure (lifeChecks (needOf task) s ++ operandChecks task s) with
  | some f => exact .inl ⟨f, exec_of_check_fails idle h⟩
  | none =>
    obtain ⟨hp, hl⟩ := lifeChecks_none h
    exact .inr ⟨idle, hp, hl, operandChecks_pass_iff.mp ((lifeChecks_pass hp hl _).symm.trans h)⟩

/-- Settles O24: the check of POISONED stands first for every operation. -/
theorem poisonedRefusesAllButEncode : Obligations.PoisonedRefusesAllButEncode := by
  unfold Obligations.PoisonedRefusesAllButEncode
  intro s buf win idle hp
  have refused := exec_of_poisoned idle hp
  exact ⟨refused (.init .full), refused (.init .fast), refused (.init .part), refused (.display buf),
    refused (.displayPartial buf win), refused .clear, refused .sleep⟩

/-- Settles O25: the check of LIFE stands before those on the operands. -/
theorem wrongLifecycleIsRefused : Obligations.WrongLifecycleIsRefused := by
  unfold Obligations.WrongLifecycleIsRefused
  intro s buf win idle hp
  have refused : ∀ task, s.life ≠ needOf task → _ := fun task => exec_of_wrong_life (task := task) idle hp
  exact ⟨fun on => ⟨refused (.init .full) on, refused (.init .fast) on, refused (.init .part) on⟩,
    fun off => ⟨refused (.display buf) off, refused (.displayPartial buf win) off, refused .clear off, refused .sleep off⟩⟩

theorem lengthCheck_fails {s : State} {buf : List Byte} (h : buf.length ≠ planeLen s.w s.h) (more : List (Bool × Status)) :
    firstFailure (lengthCheck buf s ++ more) = some (.preconditionViolation .badLength) := by
  simp [lengthCheck, firstFailure, h]

/-- Settles O26: the check of the length stands before that of the window. -/
theorem wrongLengthIsRefused : Obligations.WrongLengthIsRefused := by
  unfold Obligations.WrongLengthIsRefused
  intro s buf win idle hp on short
  have fails := lengthCheck_fails (s := s) (buf := buf) short
  exact ⟨exec_of_operand_fails (task := .display buf) idle hp on (fails []),
    exec_of_operand_fails (task := .displayPartial buf win) idle hp on (fails (windowCheck win s))⟩

/-- A window is invalid exactly when it is empty or outside the panel (R161). -/
theorem windowValid_eq_false_iff {w h : Nat} {win : Window} :
    windowValid w h win = false ↔ win.xe ≤ win.xs ∨ w < win.xe ∨ win.ye ≤ win.ys ∨ h < win.ye := by
  simp only [windowValid, decide_eq_false_iff_not]
  omega

/-- Settles O27: the length passes and the window does not. -/
theorem invalidWindowIsRefused : Obligations.InvalidWindowIsRefused := by
  unfold Obligations.InvalidWindowIsRefused
  intro s buf win idle hp on length outside
  have invalid : windowValid s.w s.h win = false := windowValid_eq_false_iff.mpr outside
  exact exec_of_operand_fails (task := .displayPartial buf win) idle hp on
    (by simp [operandChecks, lengthCheck, windowCheck, firstFailure, length, invalid])

/-! ### Raising a fault (R251) -/

/-- A fault before any event of the operation, in an idle machine, is a clean refusal (R265). -/
theorem raise_false {s : State} (idle : s.seq = .idle) (f : Status) : raise f false s = cleanRefusal f s := by
  simp [raise, poisons, cleanRefusal, State.answer, idle]

theorem hasFault_addFault (f g : Status) (faults : BitVec 9) :
    hasFault (addFault f faults) g = (hasFault faults g || decide (g.code = f.code)) := by
  have bound : f.code < 9 := by cases f <;> simp [Status.code]
  simp [hasFault, addFault, faultBit, bound, eq_comm]

/-- Settles O23: the two ways of raising, and the bit that is set. -/
theorem raiseRecordsRepliesAndPoisons : Obligations.RaiseRecordsRepliesAndPoisons := by
  unfold Obligations.RaiseRecordsRepliesAndPoisons
  exact fun f s => ⟨rfl, rfl, fun hf => raise_stoppedBy hf s, fun g => hasFault_addFault f g s.faults⟩

theorem opsel_or_eq_ofNat (low : BitVec 3) : (0x8 ||| low.setWidth 4 : Opsel) = BitVec.ofNat 4 (8 + low.toNat) := by
  revert low
  decide

/-- Settles O28: a reserved OPSEL raises before anything happened. -/
theorem reservedOpselIsInvalidOp : Obligations.ReservedOpselIsInvalidOp := by
  unfold Obligations.ReservedOpselIsInvalidOp
  intro s low idle
  rw [← opsel_or_eq_ofNat, ← raise_false idle]
  exact whenIdle_idle idle _

/-! ### The components (R124, R131, R134, R152) -/

/-- Settles O12: the defining equation of `delay`. -/
theorem delayOnlyEmitsItsEvent : Obligations.DelayOnlyEmitsItsEvent := by
  unfold Obligations.DelayOnlyEmitsItsEvent
  exact fun s ms => rfl

/-- An initialisation on a bus that was opened before has no meaning (R131, U6). -/
theorem exec_init_of_opened {s : State} (idle : s.seq = .idle) (hp : s.poisoned = false) (hl : s.life = .uninitialized)
    (hb : s.bus ≠ .neverOpened) (m : Mode) : exec (instrOf (.init m)) s = .refused .openUndescribed := by
  have undescribed : openDescribed (taskSteps (.init m) s) s ≠ true := by
    simp [openDescribed, taskSteps, initSteps, hb]
  calc exec (instrOf (.init m)) s
      = startTask (.init m) s := (exec_instrOf _ s).trans (admit_pass idle (lifeChecks_pass hp hl []))
    _ = .refused .openUndescribed := if_neg undescribed

theorem busOpen_eq {s : State} (hb : s.bus = .neverOpened) (b d : Nat) :
    busOpen b d s = ((askOpen s).1, { s with
      bus := if (askOpen s).1 then .opened else .neverOpened
      trace := s.trace ++ [.opened (askOpen s).1]
      env := { s.env with opens := (askOpen s).2.env.opens } }) := by
  simp [busOpen, askOpen, State.emit, hb]

/-- Settles O14: the equations of open, close and chip-select. -/
theorem busOpensAndClosesOnce : Obligations.BusOpensAndClosesOnce := by
  unfold Obligations.BusOpensAndClosesOnce
  refine ⟨fun s b d hb => ?_, fun s idle hp hl hb => ?_, fun s hb => if_pos hb, fun s hb => if_neg hb, fun s => ⟨rfl, rfl⟩⟩
  · rw [busOpen_eq hb]
    exact ⟨rfl, rfl⟩
  · have refused := exec_init_of_opened idle hp hl hb
    exact ⟨refused .full, refused .fast, refused .part⟩

theorem runSteps_reset (k : Nat) (s : State) :
    runSteps k resetSteps s = .finished { s with rst := .driven .high, trace := s.trace ++ resetPulse } := by
  simp [resetSteps, runSteps_cons, takeStep, pinWrite, delay, State.emit, resetPulse, Config.tRstA, Config.tRstB,
    Config.tRstC]

/-- Settles O17: no other operation than an initialisation has a step that drives the reset line high. -/
theorem resetPulsesTheLine : Obligations.ResetPulsesTheLine := by
  unfold Obligations.ResetPulsesTheLine
  refine ⟨fun s k => runSteps_reset k s, fun s m => List.prefix_append _ (s.cfg.initSeq m), fun s task pulse => ?_⟩
  have quietTask : (taskSteps task s).all isQuiet = true → False := fun quiet => by
    simpa [isQuiet] using List.all_eq_true.mp quiet _ pulse
  cases task with
  | init m => exact ⟨m, rfl⟩
  | display buf => exact (quietTask (taskSteps_quiet (.inl ⟨buf, rfl⟩) s).1).elim
  | displayPartial buf win => exact (quietTask (taskSteps_quiet (.inr (.inl ⟨buf, win, rfl⟩)) s).1).elim
  | clear => exact (quietTask (taskSteps_quiet (.inr (.inr rfl)) s).1).elim
  | sleep => simp [taskSteps, sleepSteps, setting] at pulse

end Sys2Proof.Machine

/-! The step list of an operation in three parts: what an initialisation does first, the frames, delays and busy-waits on the
open bus, and what SLEEP does last. A run of an operation, from its start or from a busy-wait, in those terms. -/

namespace Sys2Proof.Machine

/-- What an initialisation does before its sequence (R156). -/
def taskHead : Task → List Step
  | .init _ => .openBus :: .pin .pwr .high :: resetSteps
  | .display _ => []
  | .displayPartial _ _ => []
  | .clear => []
  | .sleep => []

/-- The steps of an operation on the open bus. -/
def taskBody (task : Task) (s : State) : List Step :=
  match task with
  | .init m => s.cfg.initSeq m
  | .display buf => displaySteps buf
  | .displayPartial buf win => displayPartialSteps s.w buf win
  | .clear => clearSteps (planeLen s.w s.h) s.cfg.clearOldFill s.cfg.clearNewFill
  | .sleep => [.cmd .powerOff, .busy] ++ setting .deepSleep [0xA5] ++ [.wait Config.tDeep]

/-- What SLEEP does once the panel is in deep sleep (R166). -/
def taskTail : Task → List Step
  | .init _ => []
  | .display _ => []
  | .displayPartial _ _ => []
  | .clear => []
  | .sleep => [.closeBus, .pin .rst .low, .pin .dc .low, .pin .pwr .low]

theorem taskSteps_eq (task : Task) (s : State) :
    taskSteps task s = taskHead task ++ (taskBody task s ++ taskTail task) := by
  cases task <;> simp [taskSteps, taskHead, taskBody, taskTail, initSteps, sleepSteps, setting]

/-- Every initialisation sequence holds only the step kinds of R172 (a). -/
def settingsOnly (s : State) : Prop := ∀ m, (s.cfg.initSeq m).all Step.isSetting = true

theorem taskBody_quiet (task : Task) {s : State} (hset : settingsOnly s) : (taskBody task s).all isQuiet = true := by
  cases task with
  | init m => exact setting_quiet (hset m)
  | display buf => exact (taskSteps_quiet (.inl ⟨buf, rfl⟩) s).1
  | displayPartial buf win => exact (taskSteps_quiet (.inr (.inl ⟨buf, win, rfl⟩)) s).1
  | clear => exact (taskSteps_quiet (.inr (.inr rfl)) s).1
  | sleep => rfl

theorem busy_notMem_head (task : Task) : .busy ∉ taskHead task := by
  cases task <;> simp [taskHead, resetSteps]

theorem busy_notMem_tail (task : Task) : .busy ∉ taskTail task := by
  cases task <;> simp [taskTail]

/-- A busy-wait of an operation stands in its body. -/
theorem split_at_busy {task : Task} {s : State} {k : Nat} (hk : (taskSteps task s)[k]? = some .busy) :
    ∃ front back, taskBody task s = front ++ .busy :: back ∧ k = (taskHead task).length + front.length := by
  rw [taskSteps_eq] at hk
  have afterHead : (taskHead task).length ≤ k := by
    by_contra hlt
    rw [List.getElem?_append_left (by omega)] at hk
    exact busy_notMem_head task (List.mem_of_getElem? hk)
  rw [List.getElem?_append_right afterHead] at hk
  have inBody : k - (taskHead task).length < (taskBody task s).length := by
    by_contra hge
    rw [List.getElem?_append_right (by omega)] at hk
    exact busy_notMem_tail task (List.mem_of_getElem? hk)
  rw [List.getElem?_append_left inBody] at hk
  refine ⟨(taskBody task s).take (k - (taskHead task).length), (taskBody task s).drop (k - (taskHead task).length + 1), ?_, ?_⟩
  · rw [← drop_of_getElem? hk, List.take_append_drop]
  · rw [List.length_take]
    omega

/-- After a busy-wait of an operation come the rest of its body and its tail. -/
theorem drop_after_busy {task : Task} {s : State} {k : Nat} (hk : (taskSteps task s)[k]? = some .busy) :
    ∃ l, (taskSteps task s).drop (k + 1) = l ++ taskTail task ∧ ∀ st ∈ l, st ∈ taskBody task s := by
  obtain ⟨front, back, body, rfl⟩ := split_at_busy hk
  refine ⟨back, ?_, fun st hst => by simp [body, hst]⟩
  rw [taskSteps_eq, body, Nat.add_assoc, List.drop_length_add_append, List.append_assoc, List.drop_length_add_append]
  rfl

theorem quiet_of_subset {l m : List Step} (hm : m.all isQuiet = true) (h : ∀ st ∈ l, st ∈ m) : l.all isQuiet = true :=
  List.all_eq_true.mpr fun st hst => List.all_eq_true.mp hm st (h st hst)

/-! ### A run on the open bus -/

/-- Between two steps of an operation on the open bus: the disciplines hold and the two lines that INIT raised are high. -/
structure OnOpenBus (s : State) : Prop where
  lines : LinesOk s
  clean : Clean s
  bus : s.bus = .opened
  pwr : s.pwr = .driven .high
  rst : s.rst = .driven .high

/-- The state after the tail of an operation: SLEEP has closed the bus and lowered the lines (R166). -/
def release (task : Task) (s : State) : State :=
  match task with
  | .sleep => { s with
      bus := .closed
      rst := .driven .low
      dc := .driven .low
      pwr := .driven .low
      trace := s.trace ++ [.closed, .pinWritten .rst .low, .pinWritten .dc .low, .pinWritten .pwr .low] }
  | .init _ => s
  | .display _ => s
  | .displayPartial _ _ => s
  | .clear => s

theorem runSteps_tail (task : Task) (k : Nat) {s : State} (hb : s.bus = .opened) :
    runSteps k (taskTail task) s = .finished (release task s) := by
  cases task with
  | sleep => simp [taskTail, release, runSteps_cons, takeStep, busClose, hb, pinWrite, State.emit]
  | _ => rfl

/-- How the body and the tail of an operation end, from a state on the open bus. -/
inductive BodyRun (task : Task) (s : State) : Run → Prop where
  | finished (u : State) (moved : Moved s u) (same : SameLines s u) (onBus : OnOpenBus u) :
      BodyRun task s (.finished (release task u))
  | waiting (k : Nat) (u : State) (moved : Moved s u) (same : SameLines s u) (onBus : OnOpenBus u) :
      BodyRun task s (.waiting k u)
  | raised (f : Status) (u : State) (moved : Moved s u) (same : SameLines s u) (lines : LinesOk u) (real : f ≠ .ok)
      (inSequence : f ≠ .busOpenFailure) : BodyRun task s (.raised f u)

theorem BodyRun.after {task : Task} {s t : State} {r : Run} (h : BodyRun task t r) (moved : Moved s t)
    (same : SameLines s t) : BodyRun task s r := by
  cases h with
  | finished u m l onBus => exact .finished u (moved.trans m) (same.trans l) onBus
  | waiting k u m l onBus => exact .waiting k u (moved.trans m) (same.trans l) onBus
  | raised f u m l lines real inSequence => exact .raised f u (moved.trans m) (same.trans l) lines real inSequence

theorem OnOpenBus.of_sameLines {s u : State} (h : OnOpenBus s) (same : SameLines s u) (lines : LinesOk u)
    (clean : Clean u) : OnOpenBus u :=
  ⟨lines, clean, same.bus.trans h.bus, same.pwr.trans h.pwr, same.rst.trans h.rst⟩

theorem runSteps_body {task : Task} {l : List Step} (hq : l.all isQuiet = true) (k : Nat) {s : State} (h : OnOpenBus s) :
    BodyRun task s (runSteps k (l ++ taskTail task) s) := by
  have moved := runSteps_moved l k s
  have same := runSteps_quiet l hq k s
  have ok := runSteps_ok l k s (quiet_no_open hq)
  have lines := ok.lines h.lines
  rw [runSteps_append]
  rcases hr : runSteps k l s with u | ⟨j, u⟩ | ⟨f, u⟩ <;> rw [hr] at moved same ok lines
  · have onBus := h.of_sameLines same lines (ok.clean h.clean u (.inl rfl))
    dsimp only
    rw [runSteps_tail task _ (s := u) onBus.bus]
    exact .finished u moved same onBus
  · exact .waiting j u moved same (h.of_sameLines same lines (ok.clean h.clean u (.inr ⟨j, rfl⟩)))
  · refine .raised f u moved same lines (ok.real f u rfl) ?_
    rintro rfl
    exact runSteps_busOpenFailure (quiet_no_open hq) hr

/-! ### The start of an operation -/

/-- The state after the head of an initialisation whose bus open succeeded (R156). -/
def afterHead (s : State) : State :=
  { s with
    bus := .opened
    rst := .driven .high
    pwr := .driven .high
    env := { s.env with opens := (askOpen s).2.env.opens }
    trace := s.trace ++ [.opened true, .pinWritten .pwr .high] ++ resetPulse }

/-- The state after a bus open that failed (R131). -/
def afterFailedOpen (s : State) : State :=
  { s with trace := s.trace ++ [.opened false], env := (askOpen s).2.env }

theorem afterHead_moved (s : State) : Moved s (afterHead s) :=
  ⟨rfl, rfl, rfl, rfl, rfl, rfl, rfl, rfl, rfl, rfl, rfl, rfl,
    [.opened true, .pinWritten .pwr .high] ++ resetPulse, by simp [afterHead]⟩

theorem afterHead_onOpenBus {s : State} (lines : LinesOk s) (clean : Clean s) (hb : s.bus = .neverOpened) :
    OnOpenBus (afterHead s) := by
  have trace : (afterHead s).trace = s.trace ++ ([.opened true, .pinWritten .pwr .high] ++ resetPulse) :=
    List.append_assoc _ _ _
  refine ⟨lines.extend _ trace ?_ rfl rfl rfl, ⟨clean.cs, ?_⟩, rfl, rfl, rfl⟩
  · rw [hb]; rfl
  · rw [trace]
    exact framed_append clean.framing fun b => ⟨false, by cases b <;> rfl⟩

/-- What the invariant says of a session that no fault has poisoned, apart from LIFE. -/
theorem State.Inv.linesOk {s : State} (h : s.Inv) : LinesOk s := ⟨h.busTrace, h.rstTrace, h.dcTrace, h.pwrTrace⟩

theorem State.Inv.isClean {s : State} (h : s.Inv) (hp : s.poisoned = false) : Clean s := ⟨h.csIdle hp, h.framing hp⟩

theorem State.Inv.onOpenBus {s : State} (h : s.Inv) (hp : s.poisoned = false) (hb : s.bus = .opened) : OnOpenBus s :=
  ⟨h.linesOk, h.isClean hp, hb, (h.onLines hp hb).1, (h.onLines hp hb).2⟩

theorem State.Inv.bus_of_idle {s : State} (h : s.Inv) (idle : s.seq = .idle) (hp : s.poisoned = false) :
    s.bus = busOfLife s.life := by
  simpa [lifeMatchesBus, idle] using h.lifeBus hp

theorem State.Inv.bus_of_running {s : State} (h : s.Inv) {task : Task} {k : Nat} (hs : s.seq = .running task k)
    (hp : s.poisoned = false) : s.bus = .opened := by
  have lifeAndBus := h.lifeBus hp
  cases task <;> simp only [lifeMatchesBus, hs] at lifeAndBus <;> exact lifeAndBus.2

theorem State.Inv.notPoisoned_of_running {s : State} (h : s.Inv) {task : Task} {k : Nat}
    (hs : s.seq = .running task k) : s.poisoned = false := by
  by_contra hp
  simp [h.poisonedIdle (by simpa using hp)] at hs

/-- An initialisation whose bus open fails stops there (R131, R156). -/
theorem runSteps_failedOpen {m : Mode} {s : State} (ho : (askOpen s).1 = false) :
    runSteps 0 (taskSteps (.init m) s) s = .raised .busOpenFailure (afterFailedOpen s) := by
  simp [taskSteps, initSteps, runSteps_cons, takeStep_openBus, ho, afterFailedOpen]

/-- How an operation runs from the start: an initialisation whose bus open fails raises there, every other start comes to
the operation's body on the open bus. -/
theorem runSteps_start {task : Task} {s : State} (hi : s.Inv) (idle : s.seq = .idle) (hp : s.poisoned = false)
    (hl : s.life = needOf task) :
    ((∃ m, task = .init m) ∧ runSteps 0 (taskSteps task s) s = .raised .busOpenFailure (afterFailedOpen s))
      ∨ ∃ u, Moved s u ∧ OnOpenBus u ∧ BodyRun task u (runSteps 0 (taskSteps task s) s) := by
  have bus := hi.bus_of_idle idle hp
  rw [hl] at bus
  have quiet := taskBody_quiet task hi.settings
  have onBus : needOf task = .poweredOn → taskHead task = [] →
      ∃ u, Moved s u ∧ OnOpenBus u ∧ BodyRun task u (runSteps 0 (taskSteps task s) s) := by
    intro on noHead
    rw [on] at bus
    have here := hi.onOpenBus hp bus
    exact ⟨s, Moved.refl s, here, by rw [taskSteps_eq, noHead]; exact runSteps_body quiet 0 here⟩
  cases task with
  | init m =>
    by_cases ho : (askOpen s).1 = true
    · have here := afterHead_onOpenBus hi.linesOk (hi.isClean hp) bus
      have body := runSteps_body (task := .init m) quiet 8 here
      simp only [taskTail, List.append_nil] at body
      exact .inr ⟨_, afterHead_moved s, here, (runSteps_init m s ho 0) ▸ body⟩
    · exact .inl ⟨⟨m, rfl⟩, runSteps_failedOpen (by simpa using ho)⟩
  | display buf => exact .inr (onBus rfl rfl)
  | displayPartial buf win => exact .inr (onBus rfl rfl)
  | clear => exact .inr (onBus rfl rfl)
  | sleep => exact .inr (onBus rfl rfl)

/-- Every operation emits an event with its first step, however it ends (R251). -/
theorem taskSteps_grows (task : Task) (s : State) :
    s.trace.length < (runSteps 0 (taskSteps task s) s).state.trace.length := by
  cases task with
  | init m =>
    simp only [taskSteps, initSteps, runSteps_cons (st := .openBus), takeStep_openBus]
    by_cases ho : (askOpen s).1 = true
    · simp only [ho, if_true]
      obtain ⟨es, he⟩ := (runSteps_moved (.pin .pwr .high :: (resetSteps ++ s.cfg.initSeq m)) 1
        { s with bus := .opened, trace := s.trace ++ [.opened true], env := (askOpen s).2.env }).trace
      simp only [Nat.zero_add, he, List.length_append, List.length_singleton]
      omega
    · simp [ho, Run.state]
  | sleep => exact runSteps_grows .powerOff _ 0 s
  | display buf => exact runSteps_grows .oldImageData _ 0 s
  | displayPartial buf win => exact runSteps_grows .vcomDataInterval _ 0 s
  | clear => exact runSteps_grows .oldImageData _ 0 s

/-- How an operation in progress goes on: one more sample, then what follows it. -/
def resumedRun (task : Task) (k : Nat) (s : State) : Run :=
  match poll s with
  | .done s' => runSteps (k + 1) ((taskSteps task s).drop (k + 1)) s'
  | .again s' => .waiting k s'
  | .raised f s' => .raised f s'

theorem step_resumed {s : State} (hi : s.Inv) {task : Task} {k : Nat} (hs : s.seq = .running task k) :
    step s = .next (settle task true s.trace.length (resumedRun task k s)) := step_running hi hs

/-- An operation that waits in a state of the invariant goes on on the open bus. -/
theorem resumedRun_body {task : Task} {s : State} {k : Nat} (hi : s.Inv) (hs : s.seq = .running task k) :
    BodyRun task s (resumedRun task k s) := by
  have here := hi.onOpenBus (hi.notPoisoned_of_running hs) (hi.bus_of_running hs (hi.notPoisoned_of_running hs))
  obtain ⟨l, hdrop, hsub⟩ := drop_after_busy (waiting_noOpen hi hs).1
  have quiet := quiet_of_subset (taskBody_quiet task hi.settings) hsub
  have moved := poll_moved s
  have same := poll_quiet s
  have ok := poll_ok s
  have lines := ok.lines here.lines
  unfold resumedRun
  rcases hr : poll s with u | u | ⟨f, u⟩ <;> rw [hr] at moved same ok lines
  · have onBus := here.of_sameLines same lines (ok.clean here.clean u (.inl rfl))
    simp only [hdrop]
    exact (runSteps_body quiet (k + 1) onBus).after moved same
  · exact .waiting k u moved same (here.of_sameLines same lines (ok.clean here.clean u (.inr rfl)))
  · refine .raised f u moved same lines (ok.real f u rfl) ?_
    rintro rfl
    exact poll_busOpenFailure s u hr

/-- A run waits only at a busy-wait of the operation's list (R153). -/
theorem resumedRun_waiting {task : Task} {k j : Nat} {s t : State} (hk : (taskSteps task s)[k]? = some .busy)
    (h : resumedRun task k s = .waiting j t) : (taskSteps task s)[j]? = some .busy := by
  unfold resumedRun at h
  rcases hp : poll s with u | u | ⟨f, u⟩ <;> rw [hp] at h
  · obtain ⟨hle, hj⟩ := runSteps_waiting h
    rw [List.getElem?_drop] at hj
    rwa [show k + 1 + (j - (k + 1)) = j by omega] at hj
  · obtain ⟨rfl, -⟩ := Run.waiting.inj h
    exact hk
  · cases h

/-! ### The invariant at the end of a run -/

theorem addFault_ok {f : Status} (hf : f ≠ .ok) {faults : BitVec 9} (h : hasFault faults .ok = false) :
    hasFault (addFault f faults) .ok = false := by
  rw [hasFault_addFault, h]
  cases f <;> simp_all [Status.code]

/-- A clean refusal changes nothing the invariant speaks of but FAULTS. -/
theorem cleanRefusal_inv {s : State} (hi : s.Inv) {f : Status} (hf : f ≠ .ok) : (cleanRefusal f s).Inv :=
  { hi with noOk := addFault_ok hf hi.noOk }

/-- A fault in mid-sequence leaves a poisoned idle machine whose lines are as the trace drove them (R251, R262). -/
theorem stoppedBy_inv {s v : State} (hi : s.Inv) (moved : Moved s v) (lines : LinesOk v) {f : Status} (hf : f ≠ .ok) :
    (stoppedBy f v).Inv where
  modeIffOn := by simpa only [stoppedBy, moved.mode, moved.life] using hi.modeIffOn
  lifeBus := fun h => by cases h
  csIdle := fun h => by cases h
  framing := fun h => by cases h
  busTrace := lines.bus
  rstTrace := lines.rst
  dcTrace := lines.dc
  pwrTrace := lines.pwr
  onLines := fun h => by cases h
  offLines := fun h => by cases h
  poisonedIdle := fun _ => rfl
  atBusy := trivial
  noOk := addFault_ok hf (moved.faults ▸ hi.noOk)
  settings := moved.cfg ▸ hi.settings

/-- A busy-wait in mid-sequence keeps the invariant (R28, R153). -/
theorem waiting_inv {s v : State} {task : Task} {k : Nat} (hi : s.Inv) (hp : s.poisoned = false)
    (hl : s.life = needOf task) (moved : Moved s v) (onBus : OnOpenBus v)
    (hk : (taskSteps task s)[k]? = some .busy) : ({ v with seq := .running task k } : State).Inv where
  modeIffOn := by simpa only [moved.mode, moved.life] using hi.modeIffOn
  lifeBus := fun _ => by
    have life : v.life = needOf task := moved.life.trans hl
    cases task <;> exact ⟨life, onBus.bus⟩
  csIdle := fun _ => onBus.clean.cs
  framing := fun _ => onBus.clean.framing
  busTrace := onBus.lines.bus
  rstTrace := onBus.lines.rst
  dcTrace := onBus.lines.dc
  pwrTrace := onBus.lines.pwr
  onLines := fun _ _ => ⟨onBus.pwr, onBus.rst⟩
  offLines := fun _ hb => by cases onBus.bus.symm.trans hb
  poisonedIdle := fun h => by cases (moved.poisoned.trans hp).symm.trans h
  atBusy := (congrArg (·[k]?) (taskSteps_congr task moved.width moved.height moved.cfg)).trans hk
  noOk := moved.faults ▸ hi.noOk
  settings := moved.cfg ▸ hi.settings

/-- An operation other than SLEEP completes on the open bus, powered on, with a mode. -/
theorem complete_onBus_inv {s u : State} {task : Task} (hi : s.Inv) (hp : s.poisoned = false) (moved : Moved s u)
    (onBus : OnOpenBus u) (life : (complete task u).life = .poweredOn) (mode : (complete task u).mode.isSome = true)
    (faults : (complete task u).faults = u.faults) (rest : (complete task u).poisoned = u.poisoned)
    (cs : (complete task u).cs = u.cs) (seq : (complete task u).seq = .idle) : (complete task u).Inv := by
  have same := complete_untouched task u
  have lines := onBus.lines.untouched same
  have bus : (complete task u).bus = .opened := same.bus.trans onBus.bus
  have healthy : (complete task u).poisoned = false := rest.trans (moved.poisoned.trans hp)
  exact
    { modeIffOn := by simp [life, mode]
      lifeBus := fun _ => by simp [lifeMatchesBus, seq, bus, life, busOfLife]
      csIdle := fun _ => cs.trans onBus.clean.cs
      framing := fun _ => same.trace ▸ onBus.clean.framing
      busTrace := lines.bus
      rstTrace := lines.rst
      dcTrace := lines.dc
      pwrTrace := lines.pwr
      onLines := fun _ _ => ⟨same.pwr.trans onBus.pwr, same.rst.trans onBus.rst⟩
      offLines := fun _ closed => by cases bus.symm.trans closed
      poisonedIdle := fun h => by cases healthy.symm.trans h
      atBusy := by simp [seqAtBusy, seq]
      noOk := by rw [faults, moved.faults]; exact hi.noOk
      settings := by rw [same.cfg, moved.cfg]; exact hi.settings }

/-- SLEEP completes with the bus closed and the lines low (R166, R280). -/
theorem complete_sleep_inv {s u : State} (hi : s.Inv) (hp : s.poisoned = false) (moved : Moved s u) (onBus : OnOpenBus u) :
    (complete .sleep (release .sleep u)).Inv := by
  have lines : LinesOk (release .sleep u) := onBus.lines.extend _ rfl (by rw [onBus.bus]; rfl) rfl rfl rfl
  exact
    { modeIffOn := by simp [complete, writeLifecycle]
      lifeBus := fun _ => rfl
      csIdle := fun _ => onBus.clean.cs
      framing := fun _ => framed_append onBus.clean.framing fun b => ⟨false, by cases b <;> rfl⟩
      busTrace := lines.bus
      rstTrace := lines.rst
      dcTrace := lines.dc
      pwrTrace := lines.pwr
      onLines := fun _ opened => by cases opened
      offLines := fun _ _ => ⟨rfl, rfl, rfl⟩
      poisonedIdle := fun h => by cases (moved.poisoned.trans hp).symm.trans h
      atBusy := trivial
      noOk := moved.faults ▸ hi.noOk
      settings := moved.cfg ▸ hi.settings }

theorem complete_inv {s u : State} {task : Task} (hi : s.Inv) (hp : s.poisoned = false) (hl : s.life = needOf task)
    (moved : Moved s u) (onBus : OnOpenBus u) : (complete task (release task u)).Inv := by
  have life : u.life = needOf task := moved.life.trans hl
  have mode : needOf task = .poweredOn → u.mode.isSome = true := fun on => by
    rw [moved.mode]
    exact hi.modeIffOn.mpr (hl.trans on)
  cases task with
  | init m => exact complete_onBus_inv hi hp moved onBus rfl rfl rfl rfl rfl rfl
  | display buf => exact complete_onBus_inv hi hp moved onBus life (mode rfl) rfl rfl rfl rfl
  | displayPartial buf win => exact complete_onBus_inv hi hp moved onBus life rfl rfl rfl rfl rfl
  | clear => exact complete_onBus_inv hi hp moved onBus life (mode rfl) rfl rfl rfl rfl
  | sleep => exact complete_sleep_inv hi hp moved onBus

/-- The settled state of a run that raised in mid-sequence. -/
theorem settle_raised {task : Task} {resumed : Bool} {start : Nat} {f : Status} {v : State} (hf : f ≠ .busOpenFailure)
    (emitted : (resumed || decide (start < v.trace.length)) = true) :
    settle task resumed start (.raised f v) = stoppedBy f v := by
  rw [settle, emitted, raise_stoppedBy hf]

/-- However a run of an operation's body and tail ends, its outcome is recorded in a state of the invariant. -/
theorem settle_inv {s u : State} {task : Task} {resumed : Bool} {start : Nat} {r : Run} (hi : s.Inv)
    (hp : s.poisoned = false) (hl : s.life = needOf task) (toBody : Moved s u) (body : BodyRun task u r)
    (atBusy : ∀ k v, r = .waiting k v → (taskSteps task s)[k]? = some .busy)
    (emitted : (resumed || decide (start < r.state.trace.length)) = true) : (settle task resumed start r).Inv := by
  cases body with
  | finished v moved same onBus => exact complete_inv hi hp hl (toBody.trans moved) onBus
  | waiting k v moved same onBus =>
    exact waiting_inv hi hp hl (toBody.trans moved) onBus (atBusy k v rfl)
  | raised f v moved same lines real inSequence =>
    rw [settle_raised (v := v) inSequence emitted]
    exact stoppedBy_inv hi (toBody.trans moved) lines real

/-! ### The invariant over a step of the machine -/

/-- The invariant speaks of neither the calls to come, the replies nor the environment's answers. -/
theorem inv_of_calls {s : State} (hi : s.Inv) (inbox : List Request) (bench : List Symbol) (replies : List Reply) :
    ({ s with inbox := inbox, bench := bench, replies := replies } : State).Inv :=
  { hi with }

/-- A bus open that fails leaves all but the trace (R131). -/
theorem afterFailedOpen_inv {s : State} (hi : s.Inv) (hb : s.bus = .neverOpened) : (afterFailedOpen s).Inv := by
  have bus : busRun s.bus [.opened false] = some s.bus := by rw [hb]; rfl
  have lines : LinesOk (afterFailedOpen s) := hi.linesOk.extend _ rfl bus rfl rfl rfl
  exact
    { hi with
      framing := fun hp => framed_append (hi.framing hp) fun b => ⟨false, by cases b <;> rfl⟩
      busTrace := lines.bus
      rstTrace := lines.rst
      dcTrace := lines.dc
      pwrTrace := lines.pwr }

/-- Raising `BusOpenFailure` poisons nothing, also after its event (R252). -/
theorem raise_busOpenFailure {s : State} (idle : s.seq = .idle) (emitted : Bool) :
    raise .busOpenFailure emitted s = cleanRefusal .busOpenFailure s := by
  rw [← raise_false idle]
  cases emitted <;> rfl

theorem startTask_inv {s t : State} {task : Task} (hi : s.Inv) (idle : s.seq = .idle) (hp : s.poisoned = false)
    (hl : s.life = needOf task) (h : startTask task s = .next t) : t.Inv := by
  obtain ⟨-, rfl⟩ := startTask_next h
  have grows := taskSteps_grows task s
  obtain ⟨⟨m, rfl⟩, raised⟩ | ⟨u, toBody, -, body⟩ := runSteps_start hi idle hp hl
  · rw [raised, settle, raise_busOpenFailure (s := afterFailedOpen s) idle]
    have bus : s.bus = .neverOpened := by rw [hi.bus_of_idle idle hp, hl]; rfl
    exact cleanRefusal_inv (afterFailedOpen_inv hi bus) (by simp)
  · refine settle_inv hi hp hl toBody body (fun k v hr => ?_) (by simpa using grows)
    simpa using (runSteps_waiting hr).2

/-- A wire symbol called by itself keeps the invariant, its frame complete or not (log entry 3). -/
theorem settleCall_inv {s : State} (hi : s.Inv) (l : Level) (b : Byte) :
    (settleCall s.trace.length (sendFrame l (busWrite [b]) s)).Inv := by
  have moved := sendFrame_moved l [b] s
  have ok := sendFrame_ok l [b] s
  have lines := ok.lines hi.linesOk
  by_cases hb : s.bus = .opened
  · cases ht : (askTransfer s).1 with
    | completes =>
      rw [sendFrame_of_completes hb ht] at ok lines
      rw [settleCall_of_completes hb ht]
      exact
        { hi with
          csIdle := fun _ => rfl
          framing := fun hp => (ok.clean (hi.isClean hp) _ (.inl rfl)).framing
          busTrace := lines.bus
          rstTrace := lines.rst
          dcTrace := lines.dc
          pwrTrace := lines.pwr
          offLines := fun _ closed => by cases hb.symm.trans closed }
    | failsAfter k =>
      rw [sendFrame_one_of_failsAfter hb ht] at moved lines ⊢
      rw [settleCall_raised (by simp) (by simp)]
      exact stoppedBy_inv hi moved lines (by simp)
  · rw [sendFrame_of_not_opened hb] at moved lines ⊢
    rw [settleCall_raised (by simp) (by simp)]
    exact stoppedBy_inv hi moved lines (by simp)

theorem exec_inv {i : Instr} {s t : State} (hi : s.Inv) (h : exec i s = .next t) : t.Inv := by
  obtain ⟨idle, ⟨l, b, rfl⟩ | ⟨f, hf, rfl⟩ | ⟨task, hp, hl, hstart⟩ | ⟨warn, out, rfl⟩⟩ := exec_cases h
  · exact settleCall_inv hi l b
  · rw [raise_false idle]
    exact cleanRefusal_inv hi hf
  · exact startTask_inv hi idle hp hl hstart
  · exact inv_of_calls hi _ _ _

/-- Settles O58: what a step runs keeps the disciplines of the lines and the trace, and each way an operation ends records a
state in which LIFE, MODE, BUS and SEQ stand together again. -/
theorem everyStepKeepsTheInvariant : Obligations.EveryStepKeepsTheInvariant := by
  unfold Obligations.EveryStepKeepsTheInvariant
  intro s t hi h
  obtain ⟨-, -, -, rfl⟩ | ⟨w, rest, i, -, -, -, he⟩ | ⟨r, rest, i, -, -, -, -, he⟩ | ⟨task, k, hs, -⟩ := step_cases h
  · exact hi
  · exact exec_inv (inv_of_calls hi s.inbox rest s.replies) he
  · exact exec_inv (inv_of_calls hi rest s.bench s.replies) he
  · obtain rfl := Host.Outcome.next.inj (h.symm.trans (step_resumed hi hs))
    exact settle_inv hi (hi.notPoisoned_of_running hs) (hi.life_of_running hs) (Moved.refl s) (resumedRun_body hi hs)
      (fun j v hr => resumedRun_waiting (waiting_noOpen hi hs).1 hr) rfl

end Sys2Proof.Machine

/-! What follows from the invariant and from the ways a step ends: construction meets it, nothing but an undecodable call
stops (log entry 8), nothing is sent once the bus is closed (R307), the records only grow (R24, R25). -/

namespace Sys2Proof.Machine

/-- Settles O57: before any event the trace, the lines and the lifecycle are those of construction. -/
theorem invariantHoldsAtReset : Obligations.InvariantHoldsAtReset := by
  unfold Obligations.InvariantHoldsAtReset
  exact
    { modeIffOn := by simp [State.reset]
      lifeBus := fun _ => rfl
      csIdle := fun _ => rfl
      framing := fun _ => rfl
      busTrace := rfl
      rstTrace := rfl
      dcTrace := rfl
      pwrTrace := rfl
      onLines := fun _ opened => by cases opened
      offLines := fun _ closed => by cases closed
      poisonedIdle := fun poisoned => by cases poisoned
      atBusy := trivial
      noOk := by decide
      settings := fun m => by cases m <;> rfl }

/-! ### Stops of the machine -/

/-- In a state of the invariant with SEQ idle every well-formed instruction has a next state. -/
theorem exec_total {i : Instr} {s : State} (hi : s.Inv) (idle : s.seq = .idle) (wf : i.wf = true) :
    ∃ t, exec i s = .next t := by
  cases i.kind with
  | command op => exact ⟨_, (exec_instr op s).trans (whenIdle_idle idle _)⟩
  | data b => exact ⟨_, whenIdle_idle idle _⟩
  | operation task =>
    obtain ⟨f, refused⟩ | admitted := exec_instrOf_cases idle task
    · exact ⟨_, refused⟩
    · exact ⟨_, exec_admitted hi admitted⟩
  | encode img => exact ⟨_, (whenIdle_idle idle _).trans (if_pos wf)⟩
  | reserved low => exact ⟨_, whenIdle_idle idle _⟩

/-- What can stop a step from a state of the invariant: the decoder. -/
theorem step_next_or_undecodable {s : State} (hi : s.Inv) :
    (∃ t, step s = .next t) ∨ ∃ e, step s = .refused (.undecodable e) := by
  cases hs : s.seq with
  | running task k => exact .inl ⟨_, step_resumed hi hs⟩
  | idle =>
    cases hf : fetch s with
    | none => exact .inl ⟨s, by simp [step, hs, hf]⟩
    | some call =>
      obtain ⟨c, s'⟩ := call
      have taken : s'.Inv ∧ s'.seq = .idle := by
        unfold fetch at hf
        split at hf
        · cases hf
          exact ⟨inv_of_calls hi _ _ _, hs⟩
        · split at hf
          · cases hf
          · cases hf
            exact ⟨inv_of_calls hi _ _ _, hs⟩
      cases hd : decode c with
      | error e => exact .inr ⟨e, by simp [step, hs, hf, hd]⟩
      | ok i =>
        obtain ⟨t, ht⟩ := exec_total taken.1 taken.2 (wf_of_decode hd)
        exact .inl ⟨t, by simpa [step, hs, hf, hd] using ht⟩

/-- Settles O59: a step goes on, or the decoder refused its call. -/
theorem onlyUndecodableCallsStop : Obligations.OnlyUndecodableCallsStop := by
  unfold Obligations.OnlyUndecodableCallsStop
  intro s hi
  obtain ⟨t, ht⟩ | ⟨e, he⟩ := step_next_or_undecodable hi
  · simp [ht]
  · simp [he]

/-! ### After SLEEP -/

/-- On the closed bus no event of the bus discipline sends, opens or closes (R31, R307). -/
theorem busRun_closed {es : List Event} {b : BusState} (h : busRun .closed es = some b) :
    b = .closed ∧ ∀ e ∈ es, (∀ bytes, e ≠ .sent bytes) ∧ (∀ ok, e ≠ .opened ok) ∧ e ≠ .closed := by
  induction es with
  | nil => exact ⟨(Option.some.inj h).symm, by simp⟩
  | cons e rest ih =>
    cases e with
    | sent bytes => cases h
    | opened ok => cases h
    | closed => cases h
    | _ =>
      obtain ⟨closed, none⟩ := ih h
      exact ⟨closed, List.forall_mem_cons.mpr ⟨by simp, none⟩⟩

/-- Settles O56: the events of a step keep the bus discipline, which ends where it began once the bus is closed. -/
theorem nothingIsSentAfterSleep : Obligations.NothingIsSentAfterSleep := by
  unfold Obligations.NothingIsSentAfterSleep
  intro s t hi closed h
  obtain ⟨events, trace, run, -⟩ := step_moves_bus hi h
  rw [closed] at run
  obtain ⟨stays, none⟩ := busRun_closed run
  exact ⟨stays, events, trace, none⟩

/-! ### The records -/

/-- How the fault records and the replies stand after what a step records: as before and no fault replied, or a fault added
and replied. -/
inductive Recorded (s t : State) : Prop where
  | noFault (faults : t.faults = s.faults) (poisoned : t.poisoned = s.poisoned) (csDraws : t.csDraws = s.csDraws)
      (replies : t.replies = s.replies ∨ ∃ r, t.replies = s.replies ++ [r]) : Recorded s t
  | fault (f : Status) (real : f ≠ .ok) (faults : t.faults = addFault f s.faults)
      (poisoned : s.poisoned = true → t.poisoned = true) (replies : t.replies = s.replies ++ [.status f]) : Recorded s t

theorem raise_recorded {f : Status} (real : f ≠ .ok) (emitted : Bool) (s : State) : Recorded s (raise f emitted s) := by
  refine .fault f real ?_ ?_ ?_ <;> unfold raise <;> cases poisons f emitted <;> simp

theorem complete_recorded (task : Task) (s : State) : Recorded s (complete task s) := by
  cases task <;> exact .noFault rfl rfl rfl (.inr ⟨_, rfl⟩)

/-- What follows a state that only moved records the same. -/
theorem Recorded.after {s u t : State} (h : Recorded u t) (m : Moved s u) : Recorded s t := by
  cases h with
  | noFault faults poisoned csDraws replies =>
    exact .noFault (faults.trans m.faults) (poisoned.trans m.poisoned) (csDraws.trans m.csDraws) (m.replies ▸ replies)
  | fault f real faults poisoned replies =>
    exact .fault f real (m.faults ▸ faults) (m.poisoned ▸ poisoned) (m.replies ▸ replies)

/-- Taking a call records nothing. -/
theorem Recorded.of_calls {s t : State} {inbox : List Request} {bench : List Symbol}
    (h : Recorded { s with inbox := inbox, bench := bench } t) : Recorded s t := by
  cases h with
  | noFault faults poisoned csDraws replies => exact .noFault faults poisoned csDraws replies
  | fault f real faults poisoned replies => exact .fault f real faults poisoned replies

/-- No step of a list raises `OK` (R250). -/
theorem takeStep_real {st : Step} {s t : State} {f : Status} (h : takeStep st s = .raised f t) : f ≠ .ok := by
  by_cases hst : st = .openBus
  · subst hst
    rw [takeStep_openBus] at h
    split at h <;> cases h
    simp
  · exact (takeStep_ok st s fun open_ => absurd open_ hst).real f t h

theorem runSteps_real {l : List Step} {k : Nat} {s t : State} {f : Status} (h : runSteps k l s = .raised f t) :
    f ≠ .ok := by
  induction l generalizing k s with
  | nil => cases h
  | cons st rest ih =>
    rw [runSteps_cons] at h
    rcases hs : takeStep st s with u | u | ⟨g, u⟩ <;> rw [hs] at h
    · exact ih h
    · cases h
    · cases h
      exact takeStep_real hs

theorem resumeSteps_real {l : List Step} {k : Nat} {s t : State} {f : Status} (h : resumeSteps k l s = .raised f t) :
    f ≠ .ok := by
  unfold resumeSteps at h
  split at h
  · rcases hp : poll s with u | u | ⟨g, u⟩ <;> rw [hp] at h
    · exact runSteps_real h
    · cases h
    · cases h
      exact (poll_ok s).real f t hp
  · exact runSteps_real h

theorem settle_recorded {task : Task} {resumed : Bool} {start : Nat} {r : Run}
    (real : ∀ f t, r = .raised f t → f ≠ .ok) : Recorded r.state (settle task resumed start r) := by
  cases r with
  | finished s => exact complete_recorded task s
  | waiting k s => exact .noFault rfl rfl rfl (.inl rfl)
  | raised f s => exact raise_recorded (real f s rfl) _ s

theorem settleCall_recorded {start : Nat} {r : Turn} (real : ∀ f t, r = .raised f t → f ≠ .ok) :
    Recorded r.state (settleCall start r) := by
  cases r with
  | done s => exact .noFault rfl rfl rfl (.inr ⟨_, rfl⟩)
  | again s => exact .noFault rfl rfl rfl (.inl rfl)
  | raised f s => exact raise_recorded (real f s rfl) _ s

theorem exec_recorded {i : Instr} {s t : State} (h : exec i s = .next t) : Recorded s t := by
  obtain ⟨-, ⟨l, b, rfl⟩ | ⟨f, real, rfl⟩ | ⟨task, -, -, hstart⟩ | ⟨warn, out, rfl⟩⟩ := exec_cases h
  · exact (settleCall_recorded (sendFrame_ok l [b] s).real).after (sendFrame_moved l [b] s)
  · exact raise_recorded real false s
  · obtain ⟨-, rfl⟩ := startTask_next hstart
    exact (settle_recorded fun f t hr => runSteps_real hr).after (runSteps_moved _ 0 s)
  · exact .noFault rfl rfl rfl (.inr ⟨_, rfl⟩)

theorem step_recorded {s t : State} (h : step s = .next t) : Recorded s t := by
  obtain ⟨-, -, -, rfl⟩ | ⟨w, rest, i, -, -, -, he⟩ | ⟨r, rest, i, -, -, -, -, he⟩ | ⟨task, k, -, hresume⟩ := step_cases h
  · exact .noFault rfl rfl rfl (.inl rfl)
  · exact (exec_recorded he).of_calls
  · exact (exec_recorded he).of_calls
  · obtain ⟨-, rfl⟩ := resumeTask_next hresume
    exact (settle_recorded fun f t hr => resumeSteps_real hr).after (resumeSteps_moved _ k s)

/-- Where no fault is replied the fault records stand as before (R25, R251). -/
theorem Recorded.unchanged {s t : State} (h : Recorded s t)
    (noFault : ∀ f, f ≠ .ok → t.replies ≠ s.replies ++ [.status f]) :
    t.faults = s.faults ∧ t.poisoned = s.poisoned ∧ t.csDraws = s.csDraws := by
  cases h with
  | noFault faults poisoned csDraws _ => exact ⟨faults, poisoned, csDraws⟩
  | fault f real _ _ replies => exact absurd replies (noFault f real)

/-- Settles O38: an instruction and a step record a fault only with its reply. -/
theorem faultRecordsChangeOnlyWithAFault : Obligations.FaultRecordsChangeOnlyWithAFault := by
  unfold Obligations.FaultRecordsChangeOnlyWithAFault
  exact ⟨fun s t i h => (exec_recorded h).unchanged, fun s t h => (step_recorded h).unchanged⟩

/-- Settles O54: what a step records is an addition, and before it records it only adds to the trace. -/
theorem recordsOnlyGrow : Obligations.RecordsOnlyGrow := by
  unfold Obligations.RecordsOnlyGrow
  intro s t h
  have trace : ∃ events, t.trace = s.trace ++ events := by
    obtain ⟨s₀, u, taken, reached, recorded⟩ := step_ends h
    obtain ⟨events, he⟩ := reached.moved.trace
    exact ⟨events, by rw [recorded.trace, he, taken.trace]⟩
  cases step_recorded h with
  | noFault faults poisoned csDraws replies =>
    exact ⟨fun hp => poisoned.trans hp, fun f hf => faults ▸ hf, trace, replies⟩
  | fault f real faults poisoned replies =>
    refine ⟨poisoned, fun g hg => ?_, trace, .inr ⟨_, replies⟩⟩
    rw [faults, hasFault_addFault, hg, Bool.true_or]

end Sys2Proof.Machine

/-! What an operation leaves alone on every path (R160 to R166, R190, R265), and where a fault leaves it (R251, R252,
R262). -/

namespace Sys2Proof.Machine

/-! ### Raising and completing, field by field -/

/-- A fault is recorded as a clean refusal or as a stop in mid-sequence (R251). -/
theorem raise_cases (f : Status) (emitted : Bool) (s : State) :
    raise f emitted s = cleanRefusal f { s with seq := .idle } ∨ raise f emitted s = stoppedBy f s := by
  unfold raise
  cases poisons f emitted
  · exact .inl rfl
  · exact .inr rfl

/-- LIFE, MODE and the calls to come as they were. -/
structure SameSession (s t : State) : Prop where
  life : t.life = s.life
  mode : t.mode = s.mode
  inbox : t.inbox = s.inbox
  bench : t.bench = s.bench

theorem raise_sameSession (f : Status) (emitted : Bool) (s : State) : SameSession s (raise f emitted s) := by
  obtain h | h := raise_cases f emitted s <;> rw [h] <;> exact ⟨rfl, rfl, rfl, rfl⟩

/-- The end of a run writes LIFE and MODE only where the operation completes, with the reply `OK` (R151). -/
theorem settle_session (task : Task) (resumed : Bool) (start : Nat) (r : Run) :
    SameSession r.state (settle task resumed start r)
      ∨ ∃ u, r = .finished u ∧ settle task resumed start r = complete task u := by
  cases r with
  | finished u => exact .inr ⟨u, rfl, rfl⟩
  | waiting k u => exact .inl ⟨rfl, rfl, rfl, rfl⟩
  | raised f u => exact .inl (raise_sameSession f _ u)

/-- The calls to come are as they were, however a run ends. -/
theorem settle_calls (task : Task) (resumed : Bool) (start : Nat) (r : Run) :
    (settle task resumed start r).inbox = r.state.inbox ∧ (settle task resumed start r).bench = r.state.bench := by
  obtain session | ⟨u, rfl, ended⟩ := settle_session task resumed start r
  · exact ⟨session.inbox, session.bench⟩
  · rw [ended]
    cases task <;> exact ⟨rfl, rfl⟩

theorem settleCall_calls (start : Nat) (r : Turn) :
    (settleCall start r).inbox = r.state.inbox ∧ (settleCall start r).bench = r.state.bench := by
  cases r with
  | done u => exact ⟨rfl, rfl⟩
  | again u => exact ⟨rfl, rfl⟩
  | raised f u =>
    have session := raise_sameSession f (decide (start < u.trace.length)) u
    exact ⟨session.inbox, session.bench⟩

theorem complete_replies (task : Task) (u : State) : (complete task u).replies = u.replies ++ [.status .ok] := by
  cases task <;> rfl

/-- No meaning adds to the calls to come (R39). -/
theorem exec_bench {i : Instr} {s t : State} (h : exec i s = .next t) : t.bench = s.bench := by
  obtain ⟨-, ⟨l, b, rfl⟩ | ⟨f, -, rfl⟩ | ⟨task, -, -, hstart⟩ | ⟨warn, out, rfl⟩⟩ := exec_cases h
  · exact (settleCall_calls _ _).2.trans (sendFrame_moved l [b] s).bench
  · exact (raise_sameSession f false s).bench
  · obtain ⟨-, rfl⟩ := startTask_next hstart
    exact (settle_calls _ _ _ _).2.trans (runSteps_moved _ 0 s).bench
  · rfl

/-! ### The host's one move (R39) -/

theorem whenIdle_running {s : State} {task : Task} {k : Nat} (h : s.seq = .running task k)
    (m : Host.Outcome State Fault Refusal) : whenIdle s m = .refused .requestWhileRunning := by
  simp [whenIdle, h]

theorem exec_of_running {s : State} {task : Task} {k : Nat} (h : s.seq = .running task k) (i : Instr) :
    exec i s = .refused .requestWhileRunning := by
  cases i.kind with
  | command op => exact (exec_instr op s).trans (whenIdle_running h _)
  | data b => exact whenIdle_running h _
  | operation task => exact (exec_instrOf task s).trans (whenIdle_running h _)
  | encode img => exact whenIdle_running h _
  | reserved low => exact whenIdle_running h _

theorem encode_ne_symbol_of_request {r : Request} {i : Instr} {w : Symbol} (h : decode (.request r) = .ok i) :
    encode i ≠ .symbol w := by
  obtain ⟨r', hr, -⟩ := encode_of_decodeRequest h
  simp [hr]

/-- A request leaves the lines, the bus, chip-select and the trace alone, or asks for an operation and is admitted. -/
theorem exec_request_wires {r : Request} {i : Instr} {s t : State} (hd : decode (.request r) = .ok i)
    (idle : s.seq = .idle) (h : exec i s = .next t) :
    sameWires s t ∨ ∃ task, i = instrOf task ∧ admitted task s := by
  cases i.kind with
  | command op => exact absurd (encode_instr op) (encode_ne_symbol_of_request hd)
  | data b => exact absurd rfl (encode_ne_symbol_of_request (w := dataSymbol b) hd)
  | operation task =>
    obtain ⟨f, refused⟩ | ha := exec_instrOf_cases idle task
    · obtain rfl := Host.Outcome.next.inj (h.symm.trans refused)
      exact .inl ⟨rfl, rfl, rfl, rfl, rfl, rfl⟩
    · exact .inr ⟨task, rfl, ha⟩
  | encode img =>
    obtain ⟨-, ht⟩ := whenIdle_next h
    split at ht <;> cases ht
    exact .inl ⟨rfl, rfl, rfl, rfl, rfl, rfl⟩
  | reserved low =>
    obtain ⟨-, ht⟩ := whenIdle_next h
    cases ht
    exact .inl ⟨rfl, rfl, rfl, rfl, rfl, rfl⟩

/-- Settles O39: with an empty bench a step is a wait, the work of an operation, or a request. -/
theorem hostHasNoMoveButRequests : Obligations.HostHasNoMoveButRequests := by
  unfold Obligations.HostHasNoMoveButRequests
  refine ⟨fun s i task k hs => exec_of_running hs i, fun r i w hd => encode_ne_symbol_of_request hd,
    fun s t noSymbol h => ?_⟩
  obtain ⟨-, -, -, rfl⟩ | ⟨w, rest, i, -, bench, -, -⟩ | ⟨r, rest, i, idle, -, inbox, hd, he⟩ | ⟨task, k, hs, hresume⟩ :=
    step_cases h
  · exact ⟨noSymbol, .inl ⟨rfl, rfl, rfl, rfl, rfl, rfl⟩⟩
  · simp [noSymbol] at bench
  · refine ⟨(exec_bench he).trans noSymbol, ?_⟩
    obtain same | ⟨task, rfl, ha⟩ := exec_request_wires (s := { s with inbox := rest }) hd idle he
    · exact .inl same
    · exact .inr (.inr ⟨r, rest, task, inbox, hd, ha⟩)
  · obtain ⟨-, rfl⟩ := resumeTask_next hresume
    exact ⟨((settle_calls _ _ _ _).2.trans (resumeSteps_moved _ k s).bench).trans noSymbol, .inr (.inl ⟨task, k, hs⟩)⟩

/-! ### What an operation leaves alone -/

/-- A request for an operation is refused cleanly, or is the run of the operation's steps. -/
theorem exec_instrOf_next {task : Task} {s t : State} (h : exec (instrOf task) s = .next t) :
    (∃ f, t = cleanRefusal f s) ∨ t = settle task false s.trace.length (runSteps 0 (taskSteps task s) s) := by
  rw [exec_instrOf] at h
  obtain ⟨idle, ht⟩ := whenIdle_next h
  split at ht
  · next f _ =>
    obtain rfl := Host.Outcome.next.inj ht
    exact .inl ⟨f, raise_false idle f⟩
  · exact .inr (startTask_next ht).2

theorem sameOutside_of_moved {s t : State} (m : Moved s t) (l : SameLines s t) : sameOutside s t :=
  ⟨m.life, m.width, m.height, l.rst, l.pwr, l.bus, m.cfg, m.inbox, m.bench, l.opens⟩

theorem sameOutside_trans {s t u : State} (a : sameOutside s t) (b : sameOutside t u) : sameOutside s u := by
  obtain ⟨a1, a2, a3, a4, a5, a6, a7, a8, a9, a10⟩ := a
  obtain ⟨b1, b2, b3, b4, b5, b6, b7, b8, b9, b10⟩ := b
  exact ⟨b1.trans a1, b2.trans a2, b3.trans a3, b4.trans a4, b5.trans a5, b6.trans a6, b7.trans a7, b8.trans a8,
    b9.trans a9, b10.trans a10⟩

/-- The end of a run moves nothing outside but LIFE, where the operation writes it. -/
theorem settle_sameOutside {task : Task} (life : ∀ u, (complete task u).life = u.life) (resumed : Bool) (start : Nat)
    (r : Run) : sameOutside r.state (settle task resumed start r) := by
  have rest := settle_untouched task resumed start r
  obtain ⟨inbox, bench⟩ := settle_calls task resumed start r
  have life' : (settle task resumed start r).life = r.state.life := by
    obtain session | ⟨u, rfl, ended⟩ := settle_session task resumed start r
    · exact session.life
    · exact ended ▸ life u
  exact ⟨life', rest.width, rest.height, rest.rst, rest.pwr, rest.bus, rest.cfg, inbox, bench,
    congrArg Environment.opens rest.env⟩

/-- An operation of frames, delays and busy-waits alone leaves what a frame leaves; MODE is as it was, or what the operation
writes at its end. -/
theorem exec_quiet {task : Task} {s t : State} (quiet : (taskSteps task s).all isQuiet = true)
    (life : ∀ u, (complete task u).life = u.life) (h : exec (instrOf task) s = .next t) :
    sameOutside s t ∧ (t.mode = s.mode ∨ ∃ u : State, u.mode = s.mode ∧ t.mode = (complete task u).mode) := by
  obtain ⟨f, rfl⟩ | rfl := exec_instrOf_next h
  · exact ⟨⟨rfl, rfl, rfl, rfl, rfl, rfl, rfl, rfl, rfl, rfl⟩, .inl rfl⟩
  have moved := runSteps_moved (taskSteps task s) 0 s
  refine ⟨sameOutside_trans (sameOutside_of_moved moved (runSteps_quiet _ quiet 0 s)) (settle_sameOutside life _ _ _), ?_⟩
  obtain session | ⟨u, hr, ended⟩ := settle_session task false s.trace.length (runSteps 0 (taskSteps task s) s)
  · exact .inl (session.mode.trans moved.mode)
  · rw [hr] at moved
    exact .inr ⟨u, moved.mode, by rw [ended]⟩

/-- A run without a bus open asks for none. -/
theorem takeStep_opens {st : Step} (h : st ≠ .openBus) (s : State) : (takeStep st s).state.env.opens = s.env.opens := by
  cases st with
  | openBus => exact absurd rfl h
  | pin p l => cases p <;> rfl
  | closeBus => rw [takeStep_closeBus]; split <;> rfl
  | wait ms => exact (takeStep_quiet (st := .wait ms) rfl s).opens
  | cmd op => exact (takeStep_quiet (st := .cmd op) rfl s).opens
  | dat b => exact (takeStep_quiet (st := .dat b) rfl s).opens
  | bulk bytes => exact (takeStep_quiet (st := .bulk bytes) rfl s).opens
  | busy => exact (takeStep_quiet (st := .busy) rfl s).opens

theorem runSteps_opens {l : List Step} (h : .openBus ∉ l) (k : Nat) (s : State) :
    (runSteps k l s).state.env.opens = s.env.opens := by
  induction l generalizing k s with
  | nil => rfl
  | cons st rest ih =>
    have here := takeStep_opens (st := st) (by rintro rfl; simp at h) s
    rw [runSteps_cons]
    rcases hs : takeStep st s with u | u | ⟨f, u⟩ <;> rw [hs] at here
    · exact (ih (fun hm => h (List.mem_cons_of_mem _ hm)) (k + 1) u).trans here
    · exact here
    · exact here

/-- Until it closes the bus, SLEEP moves neither the bus nor the reset and power lines, and once it has closed it, it is
finished (R166). -/
theorem runSteps_sleep_unfinished {s : State} (h : ∀ u, runSteps 0 sleepSteps s ≠ .finished u) :
    SameLines s (runSteps 0 sleepSteps s).state := by
  have split : sleepSteps = taskBody .sleep s ++ taskTail .sleep := taskSteps_eq .sleep s
  have same := runSteps_quiet (taskBody .sleep s) rfl 0 s
  rw [split, runSteps_append] at h ⊢
  rcases hr : runSteps 0 (taskBody .sleep s) s with u | ⟨j, u⟩ | ⟨f, u⟩ <;> rw [hr] at h same
  · by_cases hb : u.bus = .opened
    · exact absurd (runSteps_tail .sleep _ hb) (h _)
    · have same : SameLines s u := same
      simpa [taskTail, runSteps_cons, takeStep_closeBus, hb, Run.state] using same
  · exact same
  · exact same

/-- An operation that has not replied `OK` has not come to its end, and has written neither LIFE nor MODE (R151). -/
theorem settle_notOk {task : Task} {resumed : Bool} {start : Nat} {s : State} {r : Run} (moved : Moved s r.state)
    (notOk : (settle task resumed start r).replies ≠ s.replies ++ [.status .ok]) :
    (∀ u, r ≠ .finished u) ∧ (settle task resumed start r).life = s.life ∧ (settle task resumed start r).mode = s.mode := by
  obtain session | ⟨u, rfl, ended⟩ := settle_session task resumed start r
  · refine ⟨?_, session.life.trans moved.life, session.mode.trans moved.mode⟩
    rintro u rfl
    exact notOk (complete_replies task u ▸ moved.replies ▸ rfl)
  · exact absurd (ended ▸ moved.replies ▸ complete_replies task u) notOk

theorem exec_sleep_frame {s t : State} (h : exec .sleep s = .next t) :
    t.width = s.width ∧ t.height = s.height ∧ t.cfg = s.cfg ∧ t.inbox = s.inbox ∧ t.bench = s.bench
      ∧ t.env.opens = s.env.opens
      ∧ (t.replies ≠ s.replies ++ [.status .ok] →
        t.life = s.life ∧ t.mode = s.mode ∧ t.rst = s.rst ∧ t.pwr = s.pwr ∧ t.bus = s.bus) := by
  obtain ⟨f, rfl⟩ | rfl := exec_instrOf_next (task := .sleep) h
  · exact ⟨rfl, rfl, rfl, rfl, rfl, rfl, fun _ => ⟨rfl, rfl, rfl, rfl, rfl⟩⟩
  have moved := runSteps_moved sleepSteps 0 s
  have opens := runSteps_opens (l := sleepSteps) (by simp [sleepSteps, setting]) 0 s
  have rest := settle_untouched .sleep false s.trace.length (runSteps 0 sleepSteps s)
  obtain ⟨inbox, bench⟩ := settle_calls .sleep false s.trace.length (runSteps 0 sleepSteps s)
  refine ⟨rest.width.trans moved.width, rest.height.trans moved.height, rest.cfg.trans moved.cfg,
    inbox.trans moved.inbox, bench.trans moved.bench, (congrArg Environment.opens rest.env).trans opens, fun notOk => ?_⟩
  obtain ⟨unfinished, life, mode⟩ := settle_notOk moved notOk
  have same := runSteps_sleep_unfinished unfinished
  exact ⟨life, mode, rest.rst.trans same.rst, rest.pwr.trans same.pwr, rest.bus.trans same.bus⟩

theorem exec_init_frame {m : Mode} {s t : State} (h : exec (instrOf (.init m)) s = .next t) :
    t.width = s.width ∧ t.height = s.height ∧ t.cfg = s.cfg ∧ t.inbox = s.inbox ∧ t.bench = s.bench
      ∧ (t.replies ≠ s.replies ++ [.status .ok] → t.life = s.life ∧ t.mode = s.mode) := by
  obtain ⟨f, rfl⟩ | rfl := exec_instrOf_next h
  · exact ⟨rfl, rfl, rfl, rfl, rfl, fun _ => ⟨rfl, rfl⟩⟩
  have moved := runSteps_moved (taskSteps (.init m) s) 0 s
  have rest := settle_untouched (.init m) false s.trace.length (runSteps 0 (taskSteps (.init m) s) s)
  obtain ⟨inbox, bench⟩ := settle_calls (.init m) false s.trace.length (runSteps 0 (taskSteps (.init m) s) s)
  exact ⟨rest.width.trans moved.width, rest.height.trans moved.height, rest.cfg.trans moved.cfg,
    inbox.trans moved.inbox, bench.trans moved.bench, fun notOk => (settle_notOk moved notOk).2⟩

/-- Settles O37: the frames of the quiet operations, of SLEEP and of the initialisations, and two meanings that only reply. -/
theorem hostOperationsLeaveTheRestAlone : Obligations.HostOperationsLeaveTheRestAlone := by
  unfold Obligations.HostOperationsLeaveTheRestAlone
  refine ⟨fun s t buf h => ?display, fun s t h => ?clear, fun s t buf win h => ?displayPartial,
    fun s t h => exec_sleep_frame h, fun s t i hi h => ?init, fun s t low h => ?reserved, fun s t img h => ?encode⟩
  case display =>
    have quiet := (taskSteps_quiet (.inl ⟨buf, rfl⟩) s).1
    obtain ⟨outside, mode⟩ := exec_quiet (task := .display buf) quiet (fun u => rfl) h
    exact ⟨outside, mode.elim id fun ⟨u, hu, ht⟩ => ht.trans hu⟩
  case clear =>
    have quiet := (taskSteps_quiet (.inr (.inr rfl)) s).1
    obtain ⟨outside, mode⟩ := exec_quiet (task := .clear) quiet (fun u => rfl) h
    exact ⟨outside, mode.elim id fun ⟨u, hu, ht⟩ => ht.trans hu⟩
  case displayPartial =>
    have quiet := (taskSteps_quiet (.inr (.inl ⟨buf, win, rfl⟩)) s).1
    obtain ⟨outside, mode⟩ := exec_quiet (task := .displayPartial buf win) quiet (fun u => rfl) h
    exact ⟨outside, mode.imp id fun ⟨u, hu, ht⟩ => ht⟩
  case init =>
    obtain rfl | rfl | rfl := hi
    · exact exec_init_frame (m := .full) h
    · exact exec_init_frame (m := .fast) h
    · exact exec_init_frame (m := .part) h
  case reserved =>
    obtain ⟨idle, ht⟩ := whenIdle_next h
    rw [← Host.Outcome.next.inj ht, raise_false idle]
    rfl
  case encode =>
    obtain ⟨-, ht⟩ := whenIdle_next h
    split at ht <;> cases ht
    rfl

/-! ### Where a fault leaves an operation -/

/-- A request that passes admission is the run of its steps, in any state where its bus open is described (R151, R155). -/
theorem exec_of_admitted {task : Task} {s : State} (ha : admitted task s)
    (ho : openDescribed (taskSteps task s) s = true) :
    exec (instrOf task) s = .next (settle task false s.trace.length (runSteps 0 (taskSteps task s) s)) := by
  obtain ⟨idle, hp, hl, fit⟩ := ha
  rw [exec_instrOf, admit_pass idle ((lifeChecks_pass hp hl _).trans (operandChecks_pass_iff.mpr fit)), startTask, if_pos ho]

theorem openDescribed_of_notMem {l : List Step} {s : State} (h : .openBus ∉ l) : openDescribed l s = true := by
  cases l with
  | nil => rfl
  | cons st rest => cases st <;> simp_all [openDescribed]

theorem openDescribed_init {m : Mode} {s : State} (hb : s.bus = .neverOpened) (h : .openBus ∉ s.cfg.initSeq m) :
    openDescribed (taskSteps (.init m) s) s = true := by
  simp [openDescribed, taskSteps, initSteps, resetSteps, hb, h]

/-- Settles O29: the three initialisations stop at the same step, and `BusOpenFailure` poisons nothing. -/
theorem busOpenFailureIsClean : Obligations.BusOpenFailureIsClean := by
  unfold Obligations.BusOpenFailureIsClean
  intro s idle hp hl hb ho noOpen
  have refused : ∀ m, exec (instrOf (.init m)) s = .next (cleanRefusal .busOpenFailure (afterFailedOpen s)) := fun m => by
    rw [exec_of_admitted (task := .init m) ⟨idle, hp, hl, trivial⟩ (openDescribed_init hb (noOpen m)),
      runSteps_failedOpen ho, settle, raise_busOpenFailure (s := afterFailedOpen s) idle]
  exact ⟨_, refused .full, refused .fast, refused .part, rfl⟩

/-- A run whose step raises ends there (R251). -/
theorem runSteps_raised_at {l before after : List Step} {st : Step} {k : Nat} {s u v : State} {f : Status}
    (split : l = before ++ st :: after) (done : runSteps k before s = .finished u) (raised : takeStep st u = .raised f v) :
    runSteps k l s = .raised f v := by
  rw [split, runSteps_append, done]
  simp only [runSteps_cons, raised]

/-- Settles O30: a fault other than `BusOpenFailure` after an event of the operation is `stoppedBy`, and the steps before it
moved nothing that a fault records. -/
theorem faultStopsTheOperationAtItsStep : Obligations.FaultStopsTheOperationAtItsStep := by
  unfold Obligations.FaultStopsTheOperationAtItsStep
  refine ⟨fun s task before after st f u v hi ha split done raised hf => ?started,
    fun s task k f v hi hs raised => ?atSample,
    fun s task k before after st f w u v hi hs sampled split done raised => ?later,
    fun s buf k idle hp on hb length fails => ?display⟩
  case started =>
    have run := runSteps_raised_at split done raised
    have moved := runSteps_moved (taskSteps task s) 0 s
    have grows := taskSteps_grows task s
    have added := (takeStep_moved st u).trace
    rw [run] at moved grows
    rw [raised] at added
    rw [exec_admitted hi ha, run, settle_raised hf (by simpa [Run.state] using grows)]
    exact ⟨rfl, moved.life, moved.mode, moved.faults, moved.replies, added⟩
  case atSample =>
    have moved := poll_moved s
    rw [raised] at moved
    have hf : f ≠ .busOpenFailure := by
      rintro rfl
      exact poll_busOpenFailure s v raised
    rw [step_running hi hs, raised]
    exact ⟨congrArg _ (settle_raised hf rfl), moved.life, moved.mode, moved.faults, moved.replies⟩
  case later =>
    have run := runSteps_raised_at split done raised
    have sample := poll_moved s
    have moved := runSteps_moved ((taskSteps task s).drop (k + 1)) (k + 1) w
    have added := (takeStep_moved st u).trace
    rw [sampled] at sample
    rw [run] at moved
    rw [raised] at added
    have moved := sample.trans moved
    have hf : f ≠ .busOpenFailure := by
      rintro rfl
      obtain rfl := takeStep_busOpenFailure raised
      refine (waiting_noOpen hi hs).2 (List.mem_of_mem_drop (i := 1) ?_)
      rw [List.drop_drop, split]
      simp
    rw [step_running hi hs, sampled]
    dsimp only
    rw [run, settle_raised hf rfl]
    exact ⟨rfl, moved.life, moved.mode, moved.faults, moved.replies, added⟩
  case display =>
    have described := openDescribed_of_notMem (s := s) (quiet_no_open (taskSteps_quiet (.inl ⟨buf, rfl⟩) s).1)
    have first : takeStep (.cmd .oldImageData) s = _ := sendFrame_one_of_failsAfter hb fails .low Opcode.oldImageData.byte
    have run := runSteps_raised_at (l := taskSteps (.display buf) s) (k := 0) (before := []) rfl rfl first
    have meaning := exec_of_admitted (task := .display buf) ⟨idle, hp, on, length⟩ described
    rw [run, settle_raised (by simp) (by simp)] at meaning
    exact ⟨_, meaning, ⟨rfl, rfl, rfl, rfl, rfl, rfl, rfl, rfl, rfl, rfl⟩, rfl, rfl, rfl, rfl, rfl, rfl⟩

end Sys2Proof.Machine

/-! The host operations in an environment where all goes well: each takes its steps in order and replies `OK` (R156 to R166),
and so does the canonical session (R102, R311). -/

namespace Sys2Proof.Machine

/-! ### Initialisation sequences (R172) -/

theorem powerOnThenBusy_tail {st : Step} {rest : List Step} (h : powerOnThenBusy (st :: rest) = true) :
    powerOnThenBusy rest = true := by
  unfold powerOnThenBusy at h
  split at h
  · next hl =>
    obtain ⟨-, rfl⟩ := List.cons.inj hl
    exact (Bool.and_eq_true_iff.mp h).2
  · next hl =>
    obtain ⟨-, rfl⟩ := List.cons.inj hl
    exact h
  · next hl => cases hl

theorem powerOnThenBusy_suffix {before after : List Step} (h : powerOnThenBusy (before ++ after) = true) :
    powerOnThenBusy after = true := by
  induction before with
  | nil => exact h
  | cons st rest ih => exact ih (powerOnThenBusy_tail h)

/-- What a sequence that satisfies R172 gives: only setting steps, one POWER_ON, and a busy-wait after it. -/
theorem initSeqWf_parts {p : Params} {m : Mode} {w h : Nat} {l : List Step} (wf : initSeqWf p m w h l = true) :
    l.all Step.isSetting = true ∧ l.count (.cmd .powerOn) = 1 ∧ powerOnThenBusy l = true := by
  simp only [initSeqWf, Bool.and_eq_true, beq_iff_eq] at wf
  obtain ⟨⟨⟨⟨⟨⟨⟨⟨settings, -⟩, -⟩, -⟩, -⟩, -⟩, -⟩, once⟩, busy⟩ := wf
  exact ⟨settings, once, busy⟩

/-- Settles O50: the one POWER_ON splits the sequence, and the check of R172 (f) looks at the step after it. -/
theorem powerOnIsFollowedByTheBusyWait : Obligations.PowerOnIsFollowedByTheBusyWait := by
  unfold Obligations.PowerOnIsFollowedByTheBusyWait
  intro p m w h l wf
  obtain ⟨settings, once, thenBusy⟩ := initSeqWf_parts wf
  have notSetting : ∀ st : Step, st.isSetting = false → st ∉ l := fun st hst hm => by
    simpa [hst] using List.all_eq_true.mp settings st hm
  obtain ⟨before, rest, rfl⟩ := List.append_of_mem (List.count_pos_iff.mp (by omega : 0 < l.count (.cmd .powerOn)))
  rw [List.count_append, List.count_cons_self] at once
  have followed := powerOnThenBusy_suffix thenBusy
  simp only [powerOnThenBusy, Bool.and_eq_true, beq_iff_eq, List.head?_eq_some_iff] at followed
  obtain ⟨⟨after, rfl⟩, -⟩ := followed
  rw [List.count_cons] at once
  refine ⟨before, after, by simp, List.count_eq_zero.mp (by omega), List.count_eq_zero.mp (by omega),
    notSetting .openBus rfl, notSetting .closeBus rfl⟩

/-! ### Ready steps in a row -/

/-- What quiet steps in a ready environment leave: DC, chip-select and POLLS as the last frame left them, and their events. -/
theorem foldl_readyStep {l : List Step} (hq : l.all isQuiet = true) (s : State) :
    l.foldl readyStep s = { s with
      dc := (l.foldl readyStep s).dc
      cs := (l.foldl readyStep s).cs
      polls := (l.foldl readyStep s).polls
      trace := s.trace ++ l.flatMap readyEvents } := by
  induction l generalizing s with
  | nil => simp
  | cons st rest ih =>
    simp only [List.all_cons, Bool.and_eq_true] at hq
    rw [List.foldl_cons, ih hq.2]
    cases st with
    | openBus => simp [isQuiet] at hq
    | pin p l => simp [isQuiet] at hq
    | closeBus => simp [isQuiet] at hq
    | _ => simp [readyStep]

/-- The state after quiet steps when all goes well, `env` being what they leave of the environment. -/
def afterReady (l : List Step) (s : State) (env : Environment) : State :=
  { s with
    dc := (l.foldl readyStep s).dc
    cs := (l.foldl readyStep s).cs
    polls := (l.foldl readyStep s).polls
    trace := s.trace ++ l.flatMap readyEvents
    env := env }

theorem runSteps_afterReady {l : List Step} (hq : l.all isQuiet = true) (k : Nat) {s : State} (hb : s.bus = .opened)
    (he : s.env.ready) : ∃ env', env'.ready ∧ runSteps k l s = .finished (afterReady l s env') := by
  obtain ⟨env', ready, run⟩ := runSteps_ready l hq k s hb he
  rw [foldl_readyStep hq s] at run
  exact ⟨env', ready, run⟩

/-- Quiet steps that end with a busy-wait leave the data/command line low and POLLS 0 (R153). -/
theorem afterReady_busy {l : List Step} (last : l.getLast? = some .busy) (s : State) (env : Environment) :
    afterReady l s env = { s with
      dc := .driven .low
      cs := .deasserted
      polls := 0
      trace := s.trace ++ l.flatMap readyEvents
      env := env } := by
  obtain ⟨front, rfl⟩ := List.getLast?_eq_some_iff.mp last
  simp [afterReady, readyStep]

/-- The data/command line driven, chip-select deasserted, POLLS 0. -/
def Settled (s : State) : Prop := (∃ l, s.dc = .driven l) ∧ s.cs = .deasserted ∧ s.polls = 0

theorem readyStep_settled {st : Step} (hq : isQuiet st = true) {s : State} (h : Settled s) : Settled (readyStep s st) := by
  obtain ⟨hdc, hcs, hpolls⟩ := h
  cases st with
  | openBus => simp [isQuiet] at hq
  | pin p l => simp [isQuiet] at hq
  | closeBus => simp [isQuiet] at hq
  | wait ms => exact ⟨hdc, hcs, hpolls⟩
  | cmd op => exact ⟨⟨_, rfl⟩, rfl, hpolls⟩
  | dat b => exact ⟨⟨_, rfl⟩, rfl, hpolls⟩
  | bulk bytes => exact ⟨⟨_, rfl⟩, rfl, hpolls⟩
  | busy => exact ⟨⟨_, rfl⟩, rfl, rfl⟩

theorem foldl_readyStep_settled {l : List Step} (hq : l.all isQuiet = true) {s : State} (h : Settled s ∨ Step.busy ∈ l) :
    Settled (l.foldl readyStep s) := by
  induction l generalizing s with
  | nil => simpa using h
  | cons st rest ih =>
    simp only [List.all_cons, Bool.and_eq_true] at hq
    refine ih hq.2 ?_
    obtain h | h := h
    · exact .inl (readyStep_settled hq.1 h)
    · obtain rfl | h := List.mem_cons.mp h
      · exact .inl ⟨⟨_, rfl⟩, rfl, rfl⟩
      · exact .inr h

/-! ### Operations on the open bus -/

/-- SEQ is idle in the state an operation was admitted in, so its end writes LIFE, MODE and the reply alone. -/
theorem complete_of_idle {u : State} (idle : u.seq = .idle) (task : Task) :
    complete task u = (writeLifecycle task u).answer (.status .ok) := by
  cases task <;> simp [complete, writeLifecycle, ← idle]

theorem taskBody_quiet_of_noHead {task : Task} (noHead : taskHead task = []) (s : State) :
    (taskBody task s).all isQuiet = true := by
  cases task with
  | init m => cases noHead
  | display buf => exact (taskSteps_quiet (.inl ⟨buf, rfl⟩) s).1
  | displayPartial buf win => exact (taskSteps_quiet (.inr (.inl ⟨buf, win, rfl⟩)) s).1
  | clear => exact (taskSteps_quiet (.inr (.inr rfl)) s).1
  | sleep => rfl

theorem refreshSteps_last (l : List Step) : (l ++ refreshSteps).getLast? = some .busy := by
  simp [refreshSteps]

theorem release_seq (task : Task) (s : State) : (release task s).seq = s.seq := by
  cases task <;> rfl

/-- An operation admitted on the open bus, all going well, takes its body and its tail and completes (R151). -/
theorem exec_ready {task : Task} {s : State} (ha : admitted task s) (noHead : taskHead task = [])
    (quiet : (taskBody task s).all isQuiet = true) (hb : s.bus = .opened) (he : s.env.ready) :
    ∃ env', env'.ready ∧ exec (instrOf task) s =
      .next ((writeLifecycle task (release task (afterReady (taskBody task s) s env'))).answer (.status .ok)) := by
  have steps : taskSteps task s = taskBody task s ++ taskTail task := by rw [taskSteps_eq, noHead, List.nil_append]
  have noOpen : .openBus ∉ taskSteps task s := by
    rw [steps, List.mem_append, not_or]
    exact ⟨quiet_no_open quiet, by cases task <;> simp [taskTail]⟩
  obtain ⟨env', ready, run⟩ := runSteps_afterReady quiet 0 hb he
  refine ⟨env', ready, ?_⟩
  rw [exec_of_admitted ha (openDescribed_of_notMem noOpen), steps, runSteps_append, run]
  dsimp only
  rw [runSteps_tail task _ (s := afterReady _ _ _) hb, settle,
    complete_of_idle (u := release task (afterReady _ _ _)) ((release_seq task _).trans ha.1)]

/-- Settles O32: the events of the steps of DISPLAY are those of R160. -/
theorem displayCompletes : Obligations.DisplayCompletes := by
  unfold Obligations.DisplayCompletes
  intro s buf idle hp on hb he length
  have quiet := taskBody_quiet_of_noHead (task := .display buf) rfl s
  have last : (taskBody (.display buf) s).getLast? = some .busy := refreshSteps_last _
  have events : (taskBody (.display buf) s).flatMap readyEvents = displayEvents buf := rfl
  obtain ⟨env', ready, done⟩ := exec_ready (task := .display buf) ⟨idle, hp, on, length⟩ rfl quiet hb he
  rw [afterReady_busy last, events] at done
  exact ⟨env', done, ready⟩

/-- Settles O33: the steps of DISPLAY_PARTIAL likewise, and MODE is written at the end. -/
theorem displayPartialCompletes : Obligations.DisplayPartialCompletes := by
  unfold Obligations.DisplayPartialCompletes
  intro s buf win idle hp on hb he length hxs hxe hys hye
  have quiet := taskBody_quiet_of_noHead (task := .displayPartial buf win) rfl s
  have last : (taskBody (.displayPartial buf win) s).getLast? = some .busy := refreshSteps_last _
  have events : (taskBody (.displayPartial buf win) s).flatMap readyEvents =
    displayPartialEvents (quantize win) (windowPlane s.w buf (quantize win)) := by
    -- `delta`, as the equation lemma of this long append is slow to make.
    delta displayPartialEvents
    simp [taskBody, displayPartialSteps, setting, windowPayload, refreshSteps, readyEvents, Opcode.byte, Config.tSettle]
  have valid : windowValid s.w s.h win = true := decide_eq_true ⟨hxs, hxe, hys, hye⟩
  obtain ⟨env', ready, done⟩ :=
    exec_ready (task := .displayPartial buf win) ⟨idle, hp, on, length, valid⟩ rfl quiet hb he
  rw [afterReady_busy last, events] at done
  exact ⟨env', done, ready⟩

/-- Settles O34: the steps of CLEAR likewise. -/
theorem clearCompletes : Obligations.ClearCompletes := by
  unfold Obligations.ClearCompletes
  intro s idle hp on hb he
  have quiet := taskBody_quiet_of_noHead (task := .clear) rfl s
  have last : (taskBody .clear s).getLast? = some .busy := refreshSteps_last _
  have events : (taskBody .clear s).flatMap readyEvents =
    clearEvents (planeLen s.w s.h) s.cfg.clearOldFill s.cfg.clearNewFill := rfl
  obtain ⟨env', ready, done⟩ := exec_ready (task := .clear) ⟨idle, hp, on, trivial⟩ rfl quiet hb he
  rw [afterReady_busy last, events] at done
  exact ⟨env', done, ready⟩

/-- Settles O35: the body of SLEEP on the open bus, then the release of the bus and the lines. -/
theorem sleepCompletes : Obligations.SleepCompletes := by
  unfold Obligations.SleepCompletes
  intro s idle hp on hb he
  have quiet := taskBody_quiet_of_noHead (task := .sleep) rfl s
  have left : ∀ env, afterReady (taskBody .sleep s) s env = { s with
      dc := .driven .high
      cs := .deasserted
      polls := 0
      trace := s.trace ++ (taskBody .sleep s).flatMap readyEvents
      env := env } := fun env => by simp [afterReady, taskBody, setting, readyStep]
  have events : sleepEvents = (taskBody .sleep s).flatMap readyEvents
      ++ [.closed, .pinWritten .rst .low, .pinWritten .dc .low, .pinWritten .pwr .low] := by
    simp [sleepEvents, taskBody, setting, readyEvents, Opcode.byte, Config.tDeep]
  obtain ⟨env', ready, done⟩ := exec_ready (task := .sleep) ⟨idle, hp, on, trivial⟩ rfl quiet hb he
  rw [left] at done
  rw [events, ← List.append_assoc]
  exact ⟨env', done, ready⟩

/-! ### Initialisation -/

/-- A sequence that satisfies R172 is quiet and has a busy-wait. -/
theorem initSeqWf_quiet {p : Params} {m : Mode} {w h : Nat} {l : List Step} (wf : initSeqWf p m w h l = true) :
    l.all isQuiet = true ∧ Step.busy ∈ l := by
  obtain ⟨before, after, rfl, -⟩ := powerOnIsFollowedByTheBusyWait p m w h l wf
  exact ⟨setting_quiet (initSeqWf_parts wf).1, by simp⟩

/-- An initialisation when all goes well: the head, the sequence, and the end of the operation (R156). -/
theorem exec_init_ready {m : Mode} {s : State} (ha : admitted (.init m) s) (hb : s.bus = .neverOpened) (he : s.env.ready)
    (quiet : (s.cfg.initSeq m).all isQuiet = true) :
    ∃ env', env'.ready ∧ exec (instrOf (.init m)) s =
      .next ((writeLifecycle (.init m) (afterReady (s.cfg.initSeq m) (afterHead s) env')).answer (.status .ok)) := by
  obtain ⟨opens, transfers, busy⟩ := he
  obtain ⟨opened, opens'⟩ := take_always (free := Config.openAnswer) opens
  obtain ⟨env', ready, run⟩ :=
    runSteps_afterReady quiet 8 (s := afterHead s) rfl ⟨opens', transfers, busy⟩
  have steps : runSteps 0 (taskSteps (.init m) s) s = _ := (runSteps_init m s opened 0).trans run
  refine ⟨env', ready, ?_⟩
  rw [exec_of_admitted ha (openDescribed_init hb (quiet_no_open quiet)), steps, settle,
    complete_of_idle (u := afterReady (s.cfg.initSeq m) (afterHead s) env') ha.1]

/-- Settles O31: a sequence that satisfies R172 is quiet, and its busy-wait leaves chip-select deasserted and POLLS 0. -/
theorem initialisationCompletes : Obligations.InitialisationCompletes := by
  unfold Obligations.InitialisationCompletes
  intro s i m hi idle hp hl hb he wf
  have instr : i = instrOf (.init m) := by
    obtain ⟨rfl, rfl⟩ | ⟨rfl, rfl⟩ | ⟨rfl, rfl⟩ := hi <;> rfl
  obtain ⟨quiet, busy⟩ := initSeqWf_quiet wf
  obtain ⟨env', ready, done⟩ := exec_init_ready (m := m) ⟨idle, hp, hl, trivial⟩ hb he quiet
  obtain ⟨⟨dc', dc⟩, cs, polls⟩ := foldl_readyStep_settled quiet (s := afterHead s) (.inr busy)
  rw [afterReady, dc, cs, polls] at done
  exact ⟨_, dc', env', instr ▸ done, ready, rfl⟩

/-! ### The canonical session -/

/-- Settles O60: the three requests decode to INIT, DISPLAY and SLEEP, each of which completes in one step. -/
theorem canonicalSessionFinishesInGoodOrder : Obligations.CanonicalSessionFinishesInGoodOrder := by
  unfold Obligations.CanonicalSessionFinishesInGoodOrder
  intro s buf idle hp noFault hl hb he wf length noSymbol inbox
  obtain ⟨on, dc, env₁, init, ready₁, hon⟩ :=
    initialisationCompletes { s with inbox := [{ emptyRequest 3 with buf := buf }, emptyRequest 6] } .init .full
      (.inl ⟨rfl, rfl⟩) idle hp hl hb he wf
  have first : step s = .next on := (step_of_request idle noSymbol inbox rfl).trans init
  have facts : on.seq = .idle ∧ on.poisoned = false ∧ on.faults = 0 ∧ on.life = .poweredOn ∧ on.bus = .opened
      ∧ on.env.ready ∧ buf.length = planeLen on.w on.h ∧ on.bench = []
      ∧ on.inbox = [{ emptyRequest 3 with buf := buf }, emptyRequest 6] ∧ on.replies = s.replies ++ [.status .ok]
      ∧ on.trace = s.trace ++ [.opened true, .pinWritten .pwr .high] ++ resetPulse
        ++ s.cfg.initFull.flatMap readyEvents := by
    rw [hon]
    exact ⟨idle, hp, noFault, rfl, rfl, ready₁, length, noSymbol, rfl, rfl, rfl⟩
  obtain ⟨idle₁, hp₁, noFault₁, hl₁, hb₁, he₁, length₁, noSymbol₁, inbox₁, replies₁, trace₁⟩ := facts
  obtain ⟨env₂, display, ready₂⟩ :=
    displayCompletes { on with inbox := [emptyRequest 6] } buf idle₁ hp₁ hl₁ hb₁ he₁ length₁
  obtain ⟨shown, second, hshown⟩ : ∃ shown, step on = .next shown ∧ shown = { on with
      dc := .driven .low, cs := .deasserted, polls := 0, inbox := [emptyRequest 6], env := env₂
      trace := on.trace ++ displayEvents buf, replies := on.replies ++ [.status .ok] } :=
    ⟨_, (step_of_request idle₁ noSymbol₁ inbox₁ rfl).trans display, rfl⟩
  have facts : shown.seq = .idle ∧ shown.poisoned = false ∧ shown.faults = 0 ∧ shown.life = .poweredOn
      ∧ shown.bus = .opened ∧ shown.env.ready ∧ shown.bench = [] ∧ shown.inbox = [emptyRequest 6]
      ∧ shown.replies = on.replies ++ [.status .ok] ∧ shown.trace = on.trace ++ displayEvents buf := by
    rw [hshown]
    exact ⟨idle₁, hp₁, noFault₁, hl₁, hb₁, ready₂, noSymbol₁, rfl, rfl, rfl⟩
  obtain ⟨idle₂, hp₂, noFault₂, hl₂, hb₂, he₂, noSymbol₂, inbox₂, replies₂, trace₂⟩ := facts
  obtain ⟨env₃, sleep, -⟩ := sleepCompletes { shown with inbox := [] } idle₂ hp₂ hl₂ hb₂ he₂
  have third := (step_of_request idle₂ noSymbol₂ inbox₂ rfl).trans sleep
  exact ⟨_, (run_succ 2 first).trans ((run_succ 1 second).trans (run_succ 0 third)), ⟨idle₂, noFault₂, hp₂⟩, rfl, rfl,
    rfl, by simp [replies₂, replies₁], by simp [trace₂, trace₁]⟩

end Sys2Proof.Machine

/-! The busy-wait: its turns, its end at the limit or at the first ready sample, and where an operation enters it and goes on
from it (R28, R153, R257). -/

namespace Sys2Proof.Machine

theorem limitReached_eq_true_iff {limit : Option Nat} {polls : Nat} :
    limitReached limit polls = true ↔ ∃ l, limit = some l ∧ l ≤ polls := by
  cases limit <;> simp [limitReached]

/-- The environment after a turn of the busy-wait: one transfer and one sample taken. -/
def envAfterTurn (s : State) : Environment :=
  { s.env with transfers := (askTransfer s).2.env.transfers, busy := (askBusy s).2.env.busy }

/-- One turn of the busy-wait whose transfer completes, up to its sample (R153). -/
theorem poll_of_completes {s : State} (hb : s.bus = .opened) (ht : (askTransfer s).1 = .completes) :
    poll s = afterSample (askBusy s).1 { s with
      dc := .driven .low
      cs := .deasserted
      env := envAfterTurn s
      trace := s.trace ++ commandFrame 0x71 ++ [.busyRead (askBusy s).1] } := by
  rw [poll_eq, sendFrame_of_completes hb ht]
  simp [askBusy, askTransfer, State.emit, commandFrame, envAfterTurn]

/-- The state that the busy-wait leaves at a ready sample (R153). -/
def afterReadySample (s : State) : State :=
  { s with dc := .driven .low, cs := .deasserted, env := envAfterTurn s, trace := s.trace ++ readyWait }

theorem poll_of_high {s : State} (hb : s.bus = .opened) (ht : (askTransfer s).1 = .completes)
    (high : (askBusy s).1 = .high) : poll s = .done (afterReadySample s) := by
  rw [poll_of_completes hb ht, high]
  simp [afterSample, delay, State.emit, readyWait, Config.tReady, afterReadySample]

/-- The state at the sample that reaches the poll limit: no delay follows it (R153, R257). -/
def afterLastSample (s : State) : State :=
  { s with
    dc := .driven .low
    cs := .deasserted
    env := envAfterTurn s
    polls := s.polls + 1
    trace := s.trace ++ commandFrame 0x71 ++ [.busyRead .low] }

theorem poll_of_limit {s : State} {l : Nat} (hb : s.bus = .opened) (ht : (askTransfer s).1 = .completes)
    (low : (askBusy s).1 = .low) (limit : s.cfg.busyPollLimit = some l) (reached : l ≤ s.polls + 1) :
    poll s = .raised .busyTimeout (afterLastSample s) := by
  rw [poll_of_completes hb ht, low]
  simp [afterSample, limitReached_eq_true_iff.mpr ⟨l, limit, reached⟩, afterLastSample]

theorem poll_of_low {s : State} (hb : s.bus = .opened) (ht : (askTransfer s).1 = .completes)
    (low : (askBusy s).1 = .low) (below : ∀ l, s.cfg.busyPollLimit = some l → s.polls + 1 < l) :
    poll s = .again { s with
      dc := .driven .low
      cs := .deasserted
      env := envAfterTurn s
      polls := s.polls + 1
      trace := s.trace ++ notReadyTurn s.cfg.pollDelayMs } := by
  rw [poll_of_completes hb ht, low]
  simp [afterSample, limitReached_eq_false_iff.mpr below, State.emit, notReadyTurn]

/-- Settles O18: what follows the sample, in each of its three cases. -/
theorem busyWaitTurn : Obligations.BusyWaitTurn := by
  unfold Obligations.BusyWaitTurn
  exact fun s hb ht => ⟨envAfterTurn s, rfl, poll_of_high hb ht, poll_of_low hb ht,
    fun l low limit reached => poll_of_limit hb ht low limit reached⟩

/-! ### An operation that waits -/

/-- Several steps, then several more. -/
theorem run_add {n k : Nat} {s t : State} (h : core.run n s = .next t) : core.run (n + k) s = core.run k t := by
  induction n generalizing s with
  | zero =>
    obtain rfl : s = t := Host.Outcome.next.inj h
    rw [Nat.zero_add]
  | succ n ih =>
    cases hs : step s with
    | next u =>
      rw [run_succ n hs] at h
      rw [Nat.add_right_comm, run_succ _ hs, ih h]
    | fault f => simp [Host.Core.run, show core.step s = _ from hs] at h
    | refused r => simp [Host.Core.run, show core.step s = _ from hs] at h

theorem WaitsAt.step_eq {task : Task} {k : Nat} {s : State} (w : WaitsAt task k s) :
    step s = .next (settle task true s.trace.length (resumedRun task k s)) := by
  simp only [step, w.seq]
  exact resumeTask_busy w.atBusy w.noOpen

/-- The sample that reaches the poll limit stops the operation (R257). -/
theorem WaitsAt.step_limit {task : Task} {k l : Nat} {s : State} (w : WaitsAt task k s) (low : (askBusy s).1 = .low)
    (limit : s.cfg.busyPollLimit = some l) (reached : l ≤ s.polls + 1) :
    step s = .next (stoppedBy .busyTimeout (afterLastSample s)) := by
  rw [w.step_eq, resumedRun, poll_of_limit w.opened (askTransfer_always w.completes).1 low limit reached]
  exact congrArg _ (settle_raised (by simp) rfl)

/-- A ready sample lets the operation go on with the steps after the busy-wait (R153). -/
theorem WaitsAt.step_high {task : Task} {k : Nat} {s : State} (w : WaitsAt task k s) (high : (askBusy s).1 = .high) :
    step s = .next (settle task true s.trace.length
      (runSteps (k + 1) ((taskSteps task s).drop (k + 1)) (afterReadySample s))) := by
  rw [w.step_eq, resumedRun, poll_of_high w.opened (askTransfer_always w.completes).1 high]

/-- The state after turns of the busy-wait below the limit: `n` more polls, their events, and what the last turn left of the
data/command line, chip-select and the environment. -/
def turnsLater (n : Nat) (dc : Latch) (cs : ChipSelect) (env : Environment) (s : State) : State :=
  { s with
    dc := dc
    cs := cs
    env := env
    polls := s.polls + n
    trace := s.trace ++ (List.replicate n (notReadyTurn s.cfg.pollDelayMs)).flatten }

theorem WaitsAt.turnsLater {task : Task} {k : Nat} {s : State} (w : WaitsAt task k s) (n : Nat) (dc : Latch)
    (cs : ChipSelect) {env : Environment} (completes : env.transfers.always .completes) :
    WaitsAt task k (Machine.turnsLater n dc cs env s) :=
  ⟨w.seq, w.atBusy, w.noOpen, w.opened, completes⟩

/-- Settles O20: `n` turns below the limit, and the one whose sample reaches it. -/
theorem boundedWaitTimesOut : Obligations.BoundedWaitTimesOut := by
  unfold Obligations.BoundedWaitTimesOut
  intro s task k l n seq atBusy limit count opened noOpen completes low
  have waits : WaitsAt task k s := ⟨seq, atBusy, noOpen, opened, completes⟩
  obtain ⟨dc, cs, env, completes', low', run⟩ := waits.run_notReady (n := n) low fun l' hl' => by
    obtain rfl : l = l' := Option.some.inj (limit.symm.trans hl')
    omega
  have last := (waits.turnsLater n dc cs completes').step_limit (take_always low').1 limit count.ge
  exact ⟨_, (run_add run).trans (run_succ 0 last), rfl, rfl, rfl, count, rfl, rfl, rfl, rfl⟩

/-- Any number of steps while the script's samples are not ready, below the limit: one turn of the loop for each. -/
theorem WaitsAt.run_script {task : Task} {k j : Nat} {s : State} {later : List Level} (w : WaitsAt task k s)
    (script : s.env.busy.script = List.replicate j .low ++ later)
    (below : ∀ l, s.cfg.busyPollLimit = some l → s.polls + j < l) :
    ∃ dc cs env, env.transfers.always .completes ∧ env.busy.script = later
      ∧ core.run j s = .next (Machine.turnsLater j dc cs env s) := by
  induction j generalizing s with
  | zero => exact ⟨s.dc, s.cs, s.env, w.completes, by simpa using script, by simp [Host.Core.run, Machine.turnsLater]⟩
  | succ j ih =>
    obtain ⟨sample, script'⟩ := askBusy_of_script (by simpa [List.replicate_succ] using script)
    obtain ⟨tr, htr, hstep⟩ := w.step_notReady sample fun l hl => by have := below l hl; omega
    have below' : ∀ l, s.cfg.busyPollLimit = some l → s.polls + 1 + j < l := fun l hl => by
      have := below l hl
      omega
    obtain ⟨dc, cs, env, completes, rest, hrun⟩ := ih (w.turnLater htr) script' below'
    refine ⟨dc, cs, env, completes, rest, ?_⟩
    rw [run_succ j hstep, hrun]
    simp [Machine.turnsLater, State.turnLater, List.replicate_succ, Nat.add_assoc, Nat.add_comm 1 j]

/-- An operation that waits, with `j` more samples that are not ready and then one that is, goes on after `j + 1` steps. -/
theorem WaitsAt.goesOn {task : Task} {k j : Nat} {s : State} {later : List Level} (w : WaitsAt task k s)
    (script : s.env.busy.script = List.replicate j .low ++ .high :: later)
    (below : ∀ l, s.cfg.busyPollLimit = some l → s.polls + j < l) :
    ∃ env start, env.busy.script = later ∧ env.transfers.always .completes ∧
      core.run (j + 1) s = .next (settle task true start (runSteps (k + 1) ((taskSteps task s).drop (k + 1)) { s with
        dc := .driven .low
        cs := .deasserted
        polls := s.polls + j
        trace := s.trace ++ (List.replicate j (notReadyTurn s.cfg.pollDelayMs)).flatten ++ readyWait
        env := env })) := by
  obtain ⟨dc, cs, env, completes, rest, run⟩ := w.run_script script below
  obtain ⟨high, rest'⟩ := askBusy_of_script (s := Machine.turnsLater j dc cs env s) rest
  have last := (w.turnsLater j dc cs completes).step_high high
  rw [taskSteps_congr task (s := s) (t := Machine.turnsLater j dc cs env s) rfl rfl rfl] at last
  exact ⟨envAfterTurn (Machine.turnsLater j dc cs env s), _, rest',
    (askTransfer_always (s := Machine.turnsLater j dc cs env s) completes).2,
    (run_add run).trans (run_succ 0 last)⟩

/-- Settles O21: DISPLAY and CLEAR wait at their last step, so they are done when they go on. -/
theorem waitEndsAtTheFirstReadySample : Obligations.WaitEndsAtTheFirstReadySample := by
  unfold Obligations.WaitEndsAtTheFirstReadySample
  intro s task j later htask seq below opened completes script
  have last : (taskSteps task s)[6]? = some .busy ∧ (taskSteps task s).drop 7 = [] := by
    obtain ⟨buf, rfl⟩ | rfl := htask <;> exact ⟨rfl, rfl⟩
  have quiet : (taskSteps task s).all isQuiet = true :=
    (taskSteps_quiet (htask.elim .inl fun clear => .inr (.inr clear)) s).1
  have waits : WaitsAt task 6 s :=
    ⟨seq, last.1, fun hm => quiet_no_open quiet (List.mem_of_mem_drop hm), opened, completes⟩
  obtain ⟨env, start, rest, -, run⟩ := waits.goesOn script below
  rw [last.2] at run
  obtain ⟨buf, rfl⟩ | rfl := htask <;> exact ⟨_, run, rfl, rfl, rfl, rfl, rfl, rfl, rest, rfl, rfl⟩

/-! ### Where an operation enters its first wait -/

/-- A step of the body that is no busy-wait, when its transfer completes: its events, and the lines of its frame. -/
theorem takeStep_completes {st : Step} (hq : isQuiet st = true) (notBusy : st ≠ .busy) {s : State} (hb : s.bus = .opened)
    (ht : s.env.transfers.always .completes) :
    ∃ dc cs tr, tr.always .completes ∧ takeStep st s = .done { s with
      dc := dc, cs := cs, env := { s.env with transfers := tr }, trace := s.trace ++ readyEvents st } := by
  have frame : ∀ l bytes, ∃ dc cs tr, Answers.always tr .completes ∧ sendFrame l (busWrite bytes) s = .done { s with
      dc := dc, cs := cs, env := { s.env with transfers := tr }
      trace := s.trace ++ [.pinWritten .dc l, .csAsserted, .sent bytes, .csDeasserted] } := fun l bytes => by
    obtain ⟨tr, htr, done⟩ := sendFrame_ready l bytes s hb ht
    exact ⟨.driven l, .deasserted, tr, htr, done⟩
  cases st with
  | openBus => simp [isQuiet] at hq
  | pin p l => simp [isQuiet] at hq
  | closeBus => simp [isQuiet] at hq
  | busy => exact absurd rfl notBusy
  | wait ms => exact ⟨s.dc, s.cs, s.env.transfers, ht, rfl⟩
  | cmd op => exact frame .low [op.byte]
  | dat b => exact frame .high [b]
  | bulk bytes => exact frame .high bytes

/-- Steps of the body before its first busy-wait, when every transfer completes. -/
theorem runSteps_completes {l : List Step} (hq : l.all isQuiet = true) (notBusy : Step.busy ∉ l) (k : Nat) {s : State}
    (hb : s.bus = .opened) (ht : s.env.transfers.always .completes) :
    ∃ dc cs tr, tr.always .completes ∧ runSteps k l s = .finished { s with
      dc := dc, cs := cs, env := { s.env with transfers := tr }, trace := s.trace ++ l.flatMap readyEvents } := by
  induction l generalizing k s with
  | nil => exact ⟨s.dc, s.cs, s.env.transfers, ht, by simp⟩
  | cons st rest ih =>
    simp only [List.all_cons, Bool.and_eq_true] at hq
    rw [List.mem_cons, not_or] at notBusy
    obtain ⟨dc, cs, tr, htr, done⟩ := takeStep_completes hq.1 (Ne.symm notBusy.1) hb ht
    obtain ⟨dc', cs', tr', htr', run⟩ := ih hq.2 notBusy.2 (k + 1) (s := { s with
      dc := dc, cs := cs, env := { s.env with transfers := tr }, trace := s.trace ++ readyEvents st }) hb htr
    exact ⟨dc', cs', tr', htr', by rw [runSteps_cons, done]; simpa using run⟩

/-- A busy-wait whose first sample is not ready, the limit not reached by it: POLLS is 1 (R153). -/
theorem takeStep_busy_low {s : State} (hb : s.bus = .opened) (ht : s.env.transfers.always .completes)
    (low : (askBusy s).1 = .low) (below : ∀ l, s.cfg.busyPollLimit = some l → 1 < l) :
    takeStep .busy s = .again { s with
      dc := .driven .low
      cs := .deasserted
      env := envAfterTurn s
      polls := 1
      trace := s.trace ++ notReadyTurn s.cfg.pollDelayMs } := by
  rw [takeStep_busy]
  exact poll_of_low (s := { s with polls := 0 }) hb (askTransfer_always (s := s) ht).1 low below

/-- Steps of the body up to a busy-wait whose first sample is not ready, the limit not reached by it: POLLS is 1 (R153). -/
theorem runSteps_to_busy {front : List Step} (quiet : front.all isQuiet = true) (notBusy : Step.busy ∉ front)
    (rest : List Step) (k : Nat) {s : State} (hb : s.bus = .opened) (ht : s.env.transfers.always .completes)
    (low : (askBusy s).1 = .low) (below : ∀ l, s.cfg.busyPollLimit = some l → 1 < l) :
    ∃ env', env'.transfers.always .completes ∧ env'.busy = (askBusy s).2.env.busy ∧
      runSteps k (front ++ .busy :: rest) s = .waiting (k + front.length) { s with
        dc := .driven .low
        cs := .deasserted
        env := env'
        polls := 1
        trace := s.trace ++ front.flatMap readyEvents ++ notReadyTurn s.cfg.pollDelayMs } := by
  obtain ⟨dc, cs, tr, htr, run⟩ := runSteps_completes quiet notBusy k hb ht
  have wait := takeStep_busy_low (s := { s with
    dc := dc, cs := cs, env := { s.env with transfers := tr }, trace := s.trace ++ front.flatMap readyEvents })
    hb htr low below
  refine ⟨envAfterTurn { s with env := { s.env with transfers := tr } }, (take_always htr).2, rfl, ?_⟩
  rw [runSteps_append, run]
  simp only [runSteps_cons, wait]
  rfl

/-- The state in which an operation comes to its body (R151). -/
def entered (task : Task) (s : State) : State :=
  match task with
  | .init _ => afterHead s
  | .display _ => s
  | .displayPartial _ _ => s
  | .clear => s
  | .sleep => s

theorem runSteps_entered {task : Task} {s : State} (opens : ∀ m, task = .init m → (askOpen s).1 = true) :
    runSteps 0 (taskSteps task s) s = runSteps (taskHead task).length (taskBody task s ++ taskTail task) (entered task s) := by
  cases task with
  | init m =>
    rw [taskSteps, runSteps_init m s (opens m rfl) 0, taskBody, taskTail, List.append_nil]
    rfl
  | _ => rw [taskSteps_eq]; rfl

/-- From a state of the invariant an operation enters its body on the open bus, with the lines that it has raised
(R152, R156). -/
theorem entered_eq {task : Task} {s : State} (hi : s.Inv) (ha : admitted task s) :
    ∃ opens, entered task s = { s with
      bus := .opened
      rst := raisedBy task s.rst
      pwr := raisedBy task s.pwr
      env := { s.env with opens := opens }
      trace := s.trace ++ (taskHead task).flatMap readyEvents } := by
  obtain ⟨idle, hp, hl, -⟩ := ha
  have bus := hi.bus_of_idle idle hp
  rw [hl] at bus
  refine ⟨(entered task s).env.opens, ?_⟩
  cases task with
  | init m => simp [entered, afterHead, raisedBy, taskHead, resetSteps, readyEvents, resetPulse, Config.tRstA, Config.tRstB,
      Config.tRstC]
  | _ => simp [entered, raisedBy, taskHead, ← show s.bus = .opened from bus]

/-- A request that passes admission, its first busy sample not ready, waits at its first busy-wait (R151, R153). -/
theorem exec_waits {s : State} {task : Task} {k : Nat} {later : List Level} (hi : s.Inv) (ha : admitted task s)
    (hk : (taskSteps task s)[k]? = some .busy) (first : Step.busy ∉ (taskSteps task s).take k)
    (opens : ∀ m, task = .init m → (askOpen s).1 = true) (completes : s.env.transfers.always .completes)
    (script : s.env.busy.script = .low :: later) (below : ∀ l, s.cfg.busyPollLimit = some l → 1 < l) :
    ∃ env', env'.busy.script = later ∧ env'.transfers.always .completes ∧ exec (instrOf task) s = .next { s with
      seq := .running task k
      polls := 1
      dc := .driven .low
      rst := raisedBy task s.rst
      pwr := raisedBy task s.pwr
      bus := .opened
      cs := .deasserted
      trace := s.trace ++ ((taskSteps task s).take k).flatMap readyEvents ++ notReadyTurn s.cfg.pollDelayMs
      env := env' } := by
  obtain ⟨front, back, body, rfl⟩ := split_at_busy hk
  have before : (taskSteps task s).take ((taskHead task).length + front.length) = taskHead task ++ front := by
    rw [taskSteps_eq, body, List.append_assoc, List.take_length_add_append, List.take_left]
  rw [before] at first ⊢
  have quiet : front.all isQuiet = true := quiet_of_subset (taskBody_quiet task hi.settings) fun st hst => by
    simp [body, hst]
  have notBusy : Step.busy ∉ front := fun hm => first (List.mem_append_right _ hm)
  obtain ⟨opens', start⟩ := entered_eq hi ha
  obtain ⟨low, later'⟩ := askBusy_of_script script
  obtain ⟨env', completes', busy, run⟩ := runSteps_to_busy quiet notBusy (back ++ taskTail task) (taskHead task).length
    (s := entered task s) (by rw [start]) (by rw [start]; exact completes) (by rw [start]; exact low)
    (by rw [start]; exact below)
  have steps := runSteps_entered opens
  rw [body, List.append_assoc, List.cons_append, run] at steps
  refine ⟨env', ?_, completes', ?_⟩
  · rw [busy, start]
    exact later'
  · rw [exec_admitted hi ha, steps, settle, start]
    simp

/-- Every initialisation sequence that satisfies R172 has a first busy-wait (R172 (f)). -/
theorem init_first_busy {s : State} {m : Mode} (wf : initSeqWf s.cfg m s.w s.h (s.cfg.initSeq m) = true) :
    ∃ k, (taskSteps (.init m) s)[8 + k]? = some .busy ∧ Step.busy ∉ (taskSteps (.init m) s).take (8 + k) := by
  obtain ⟨front, back, split, first⟩ := List.eq_append_cons_of_mem (initSeqWf_quiet wf).2
  have steps : taskSteps (.init m) s = taskHead (.init m) ++ front ++ .busy :: back := by
    rw [taskSteps_eq, taskBody, split, taskTail, List.append_nil, List.append_assoc]
  have length : (taskHead (.init m) ++ front).length = 8 + front.length := List.length_append
  refine ⟨front.length, ?_, ?_⟩
  · rw [steps, ← length, List.getElem?_append_right le_rfl, Nat.sub_self, List.getElem?_cons_zero]
  · rw [steps, ← length, List.take_left]
    simp [busy_notMem_head, first]

/-- Settles O22: where an operation enters its first wait, where that stands in the step lists, and how it goes on. -/
theorem operationsWaitAndGoOn : Obligations.OperationsWaitAndGoOn := by
  unfold Obligations.OperationsWaitAndGoOn
  refine ⟨fun s task k later hi ha hk first opens completes script below =>
      exec_waits hi ha hk first opens completes script below,
    fun s buf win => ⟨rfl, ?_, rfl, ?_, rfl, ?_, rfl, ?_⟩, fun s m wf => init_first_busy wf,
    fun s task k j later seq atBusy below opened noOpen completes script => ?_⟩
  · simp [taskSteps, displaySteps, refreshSteps]
  · simp [taskSteps, clearSteps, refreshSteps]
  · simp [taskSteps, displayPartialSteps, refreshSteps, setting, windowPayload]
  · simp [taskSteps, sleepSteps, setting]
  · have waits : WaitsAt task k s := ⟨seq, atBusy, noOpen, opened, completes⟩
    obtain ⟨env, start, rest, completes', run⟩ := waits.goesOn script below
    exact ⟨_, start, rfl, rest, completes', run⟩

end Sys2Proof.Machine

/-! Windows, bytes and planes: Quantize (R211 to R216), the bytes of a partial refresh (R79, R162), 16-bit values (R95), the
complement (R198). -/

namespace Sys2Proof

/-! ### Quantize -/

theorem quantize_of_aligned {win : Window} (hxs : win.xs % 8 = 0) (hxe : win.xe % 8 = 0) : quantize win = win :=
  if_pos ⟨hxs, hxe⟩

/-- What Quantize gives, without its case distinction (R212). -/
theorem quantize_eq (win : Window) : quantize win = { win with xs := 8 * (win.xs / 8), xe := 8 * ((win.xe + 7) / 8) } := by
  obtain ⟨xs, xe, ys, ye⟩ := win
  unfold quantize
  split
  · next aligned =>
    simp only [Window.mk.injEq, and_true]
    dsimp only at aligned
    omega
  · simp only [Window.mk.injEq, and_true]
    refine ⟨by omega, ?_⟩
    split <;> omega

/-- Settles O41: the cases of the definition. -/
theorem quantizeWidensToByteBoundaries : Obligations.QuantizeWidensToByteBoundaries := by
  unfold Obligations.QuantizeWidensToByteBoundaries
  refine fun win => ⟨quantize_of_aligned, fun unaligned => ?_, by rw [quantize_eq], by rw [quantize_eq]⟩
  rw [quantize, if_neg unaligned]
  exact ⟨rfl, fun hxe => if_pos hxe, fun hxe => if_neg hxe⟩

theorem windowValid_iff {w h : Nat} {win : Window} :
    windowValid w h win = true ↔ win.xs < win.xe ∧ win.xe ≤ w ∧ win.ys < win.ye ∧ win.ye ≤ h :=
  decide_eq_true_iff

/-- Settles O42: linear arithmetic on the closed form of Quantize. -/
theorem quantizedWindowFitsThePanel : Obligations.QuantizedWindowFitsThePanel := by
  unfold Obligations.QuantizedWindowFitsThePanel
  intro win w h
  have aligned : (quantize win).xs % 8 = 0 ∧ (quantize win).xe % 8 = 0 := by
    rw [quantize_eq]
    constructor <;> dsimp only <;> omega
  refine ⟨aligned.1, aligned.2, quantize_of_aligned aligned.1 aligned.2, ?_⟩
  simp only [quantize_eq, windowValid_iff, windowBytes, windowRows, strideOf, true_and]
  omega

/-! ### Rows of equal length -/

theorem length_flatMap_rows {α : Type} {n m : Nat} {row : Nat → List α} (h : ∀ j < n, (row j).length = m) :
    ((List.range n).flatMap row).length = n * m := by
  induction n with
  | zero => simp
  | succ n ih =>
    rw [List.range_succ, List.flatMap_append, List.length_append, ih fun j hj => h j (by omega), List.flatMap_singleton,
      h n (by omega), Nat.succ_mul]

/-- Item `i` of row `j` of a plane written row by row. -/
theorem getElem?_flatMap_rows {α : Type} {n m j i : Nat} {row : Nat → List α} (h : ∀ j < n, (row j).length = m)
    (hj : j < n) (hi : i < m) : ((List.range n).flatMap row)[j * m + i]? = (row j)[i]? := by
  induction n with
  | zero => omega
  | succ n ih =>
    have front := length_flatMap_rows (n := n) (row := row) fun j hj => h j (by omega)
    rw [List.range_succ, List.flatMap_append, List.flatMap_singleton]
    obtain hlt | rfl : j < n ∨ j = n := by omega
    · have inFront : j * m + i < n * m := by
        calc j * m + i < j * m + m := by omega
          _ = (j + 1) * m := (Nat.succ_mul j m).symm
          _ ≤ n * m := Nat.mul_le_mul_right m hlt
      rw [List.getElem?_append_left (by omega), ih (fun j hj => h j (by omega)) hlt]
    · rw [List.getElem?_append_right (by omega), front, Nat.add_sub_cancel_left]

/-! ### The bytes of a partial refresh -/

/-- The bytes of a valid window lie in the buffer (R79 (b)). -/
theorem windowIndex_lt {w h : Nat} {win : Window} (valid : windowValid w h win = true) {j i : Nat}
    (hj : j < windowRows (quantize win)) (hi : i < windowBytes (quantize win)) :
    windowIndex w (quantize win) j i < planeLen w h := by
  rw [windowValid_iff] at valid
  simp only [quantize_eq, windowRows, windowBytes] at hj hi
  have row : win.ys + j + 1 ≤ h := by omega
  have column : 8 * (win.xs / 8) / 8 + i < strideOf w := by
    unfold strideOf
    omega
  calc windowIndex w (quantize win) j i
      = (win.ys + j) * strideOf w + (8 * (win.xs / 8) / 8 + i) := by simp only [windowIndex, quantize_eq, Nat.add_assoc]
    _ < (win.ys + j) * strideOf w + strideOf w := by omega
    _ = strideOf w * (win.ys + j + 1) := by rw [Nat.mul_comm, Nat.mul_succ]
    _ ≤ planeLen w h := Nat.mul_le_mul_left _ row

/-- Row `j` of the plane of a quantized window (R162). -/
def windowRow (w : Nat) (buf : List Byte) (q : Window) (j : Nat) : List Byte :=
  (List.range (windowBytes q)).filterMap fun i => (memRead buf (windowIndex w q j i)).map (fun b => ~~~b)

theorem windowPlane_eq (w : Nat) (buf : List Byte) (q : Window) :
    windowPlane w buf q = (List.range (windowRows q)).flatMap (windowRow w buf q) := rfl

/-- A row of a valid window holds a byte for each of its columns (R162). -/
theorem windowRow_eq {w h : Nat} {buf : List Byte} {win : Window} (valid : windowValid w h win = true)
    (length : buf.length = planeLen w h) {j : Nat} (hj : j < windowRows (quantize win)) :
    windowRow w buf (quantize win) j
      = (List.range (windowBytes (quantize win))).map fun i => ~~~ buf.getD (windowIndex w (quantize win) j i) 0 := by
  rw [← List.filterMap_eq_map]
  refine List.filterMap_congr fun i hi => ?_
  have inside := windowIndex_lt valid hj (List.mem_range.mp hi)
  rw [← length] at inside
  simp [memRead, inside]

/-- Settles O43: every row has its bytes, so the plane is rows of equal length. -/
theorem windowPlaneHoldsTheComplementedBytes : Obligations.WindowPlaneHoldsTheComplementedBytes := by
  unfold Obligations.WindowPlaneHoldsTheComplementedBytes
  intro w h buf win valid length
  have lengths : ∀ j < windowRows (quantize win),
      (windowRow w buf (quantize win) j).length = windowBytes (quantize win) := fun j hj => by
    rw [windowRow_eq valid length hj, List.length_map, List.length_range]
  rw [windowPlane_eq]
  refine ⟨(length_flatMap_rows lengths).trans (Nat.mul_comm _ _), fun j i hj hi => ?_⟩
  have inside := windowIndex_lt valid hj hi
  rw [← length] at inside
  refine ⟨_, List.getElem?_eq_getElem inside, ?_⟩
  rw [getElem?_flatMap_rows lengths hj hi, windowRow_eq valid length hj]
  simp [inside, hi]

/-! ### Bytes -/

/-- Settles O44: division with remainder by 256. -/
theorem highAndLowByteMakeTheValue : Obligations.HighAndLowByteMakeTheValue := by
  unfold Obligations.HighAndLowByteMakeTheValue
  refine ⟨fun v hv => ?_, fun q => rfl, fun w h => rfl⟩
  have hi : (hi8 v).toNat = v / 256 := by
    rw [hi8, BitVec.toNat_ofNat]
    omega
  have lo : (lo8 v).toNat = v % 256 := by
    rw [lo8, BitVec.toNat_ofNat]
    omega
  omega

/-- Settles O45: complementing twice is the identity on each byte. -/
theorem complementIsInvolutive : Obligations.ComplementIsInvolutive := by
  unfold Obligations.ComplementIsInvolutive
  refine fun plane =>
    ⟨by simp [complement, Function.comp_def], by simp [complement], fun i b hb => ⟨~~~b, by simp [complement, hb], ?_⟩⟩
  rw [BitVec.toNat_not]

end Sys2Proof

/-! ENCODE (44_frame_buffer_codec.md): the pixels of OUT, its length, and the image that ENCODE and then DISPLAY send. -/

namespace Sys2Proof.Machine

/-! ### The pixels of OUT -/

/-- Bit `7 - j` of a packed byte is the `j`-th bit packed into it (R192). -/
theorem packBits_getLsbD (bit : Nat → Bool) {j : Nat} (hj : j < 8) : (packBits bit).getLsbD (7 - j) = bit j := by
  have small : ∀ k, (bit k).toNat ≤ 1 := fun k => Bool.toNat_le (bit k)
  have h0 := small 0; have h1 := small 1; have h2 := small 2; have h3 := small 3
  have h4 := small 4; have h5 := small 5; have h6 := small 6; have h7 := small 7
  rw [packBits, BitVec.getLsbD_ofNat, decide_eq_true (by omega : 7 - j < 8), Bool.true_and, Nat.testBit_eq_decide_div_mod_eq]
  simp only [List.range_succ, List.range_zero, List.nil_append, List.map_append, List.map_cons, List.map_nil,
    List.sum_append, List.sum_cons, List.sum_nil]
  have key : ∀ n : Nat, n % 2 = (bit j).toNat → decide (n % 2 = 1) = bit j := fun n hn => by
    rw [hn]
    cases bit j <;> rfl
  apply key
  interval_cases j <;> omega

/-- The pixels of OUT, pad bits among them: the complement of the library bit (R192, R197). -/
theorem pixelBit_outPlane {threshold w h : Nat} {pix : List Byte} {index : Nat → Nat → Nat} {x y : Nat}
    (hx : x < 8 * strideOf w) (hy : y < h) :
    pixelBit w (outPlane threshold w h pix index) x y = some (!sourceBit threshold w pix index x y) := by
  have lengths : ∀ y < h, ((List.range (strideOf w)).map fun k => outByte threshold w pix index y k).length = strideOf w :=
    fun _ _ => by rw [List.length_map, List.length_range]
  have hk : x / 8 < strideOf w := by omega
  have column : 8 * (x / 8) + x % 8 = x := Nat.div_add_mod x 8
  have byte : (outPlane threshold w h pix index)[y * strideOf w + x / 8]?
      = some (outByte threshold w pix index y (x / 8)) := by
    rw [outPlane, getElem?_flatMap_rows lengths hy hk]
    simp [hk]
  have ones : (0xFF : Byte).getLsbD (7 - x % 8) = true := by
    have : x % 8 < 8 := Nat.mod_lt x (by decide)
    interval_cases x % 8 <;> rfl
  rw [pixelBit, memRead, byte, Option.map_some, outByte, BitVec.getLsbD_xor, packBits_getLsbD _ (Nat.mod_lt x (by decide)),
    column, ones, Bool.xor_true]

/-- A pixel of the panel is black exactly when its sample is below the threshold (R64, R196). -/
theorem pixelBit_outPlane_of_sample {threshold w h : Nat} {pix : List Byte} {index : Nat → Nat → Nat} {x y : Nat}
    {v : Byte} (hx : x < w) (hy : y < h) (sample : pix[index x y]? = some v) :
    pixelBit w (outPlane threshold w h pix index) x y = some (decide (v.toNat < threshold)) := by
  rw [pixelBit_outPlane (by unfold strideOf; omega) hy]
  rw [sourceBit, memRead, sample, decide_eq_true hx, Bool.true_and, Option.any_some, libraryBit]
  simp only [← decide_not, Nat.not_le]

/-- A pad bit is 1 (R197). -/
theorem pixelBit_outPlane_pad {threshold w h : Nat} {pix : List Byte} {index : Nat → Nat → Nat} {x y : Nat}
    (outside : w ≤ x) (hx : x < 8 * strideOf w) (hy : y < h) :
    pixelBit w (outPlane threshold w h pix index) x y = some true := by
  rw [pixelBit_outPlane hx hy, sourceBit, decide_eq_false (Nat.not_lt.mpr outside)]
  rfl

theorem pixelBit_complement (w : Nat) (buf : List Byte) (x y : Nat) :
    pixelBit w (complement buf) x y = (pixelBit w buf x y).map (!·) := by
  have bit : 7 - x % 8 < 8 := by omega
  simp [pixelBit, memRead, complement, Function.comp_def, bit]

/-! ### The answer of ENCODE -/

theorem encodeImage_direct {threshold w h : Nat} {dir : RotDir} {img : Image} (hw : img.iw = w) (hh : img.ih = h) :
    encodeImage threshold dir w h img = (false, outPlane threshold w h img.pix (directIndex w)) :=
  if_pos ⟨hw, hh⟩

theorem encodeImage_rotated {threshold w h : Nat} {dir : RotDir} {img : Image} (hw : img.iw = h) (hh : img.ih = w)
    (notSquare : w ≠ h) :
    encodeImage threshold dir w h img = (false, outPlane threshold w h img.pix (rotatedIndex dir w h)) := by
  rw [encodeImage, if_neg fun direct => notSquare (direct.1.symm.trans hw), if_pos ⟨hw, hh⟩]

theorem length_outPlane (threshold w h : Nat) (pix : List Byte) (index : Nat → Nat → Nat) :
    (outPlane threshold w h pix index).length = planeLen w h := by
  rw [outPlane, length_flatMap_rows fun _ _ => by rw [List.length_map, List.length_range], Nat.mul_comm, planeLen]

/-- What ENCODE answers on every image: a plane of N bytes, with a warning and all white for a rejected size (R192, R195). -/
theorem encodeImage_answer (threshold : Nat) (dir : RotDir) (w h : Nat) (img : Image) :
    (encodeImage threshold dir w h img).2.length = planeLen w h
      ∧ ((encodeImage threshold dir w h img).1 = true ↔ ¬(img.iw = w ∧ img.ih = h) ∧ ¬(img.iw = h ∧ img.ih = w))
      ∧ ((encodeImage threshold dir w h img).1 = true → ∀ b ∈ (encodeImage threshold dir w h img).2, b = 0x00) := by
  unfold encodeImage
  split
  · next direct => simp [length_outPlane, direct]
  · next notDirect =>
    split
    · next rotated => simp [length_outPlane, rotated]
    · next notRotated =>
      refine ⟨List.length_replicate, ⟨fun _ => ⟨notDirect, notRotated⟩, fun _ => rfl⟩,
        fun _ b hb => List.eq_of_mem_replicate hb⟩

theorem exec_encode {s : State} {img : Image} (idle : s.seq = .idle) (wf : img.wf = true) :
    exec (.encode img) s = .next (s.answer (.encoded (encodeImage s.cfg.threshold s.cfg.rotDir s.w s.h img).1
      (encodeImage s.cfg.threshold s.cfg.rotDir s.w s.h img).2)) := by
  change execEncode img s = _
  rw [execEncode, whenIdle_idle idle, if_pos wf]

/-- Settles O36: ENCODE is idle-state admission and its pure function. -/
theorem encodeAnswersInEveryState : Obligations.EncodeAnswersInEveryState := by
  unfold Obligations.EncodeAnswersInEveryState
  exact fun s img idle samples =>
    ⟨_, _, exec_encode idle (beq_iff_eq.mpr samples), encodeImage_answer s.cfg.threshold s.cfg.rotDir s.w s.h img⟩

/-- Settles O46: pixel by pixel. -/
theorem encodedPixelsFollowTheThreshold : Obligations.EncodedPixelsFollowTheThreshold := by
  unfold Obligations.EncodedPixelsFollowTheThreshold
  exact fun threshold w h dir img _ hw hh =>
    ⟨_, encodeImage_direct hw hh, fun _ _ _ hx hy sample => pixelBit_outPlane_of_sample hx hy sample,
      fun _ _ => pixelBit_outPlane_pad⟩

/-- Settles O47: pixel by pixel, in either direction. -/
theorem transposedImagesAreRotated : Obligations.TransposedImagesAreRotated := by
  unfold Obligations.TransposedImagesAreRotated
  exact fun threshold w h img _ hw hh notSquare =>
    ⟨_, _, encodeImage_rotated hw hh notSquare, encodeImage_rotated hw hh notSquare,
      fun _ _ _ hx hy sample => pixelBit_outPlane_of_sample hx hy sample,
      fun _ _ _ hx hy sample => pixelBit_outPlane_of_sample hx hy sample,
      fun _ _ outside hx hy => ⟨pixelBit_outPlane_pad outside hx hy, pixelBit_outPlane_pad outside hx hy⟩⟩

/-- Settles O48: DISPLAY's completion on the buffer ENCODE answered, whose complement has every pixel flipped. -/
theorem encodeThenDisplaySendsTheImage : Obligations.EncodeThenDisplaySendsTheImage := by
  unfold Obligations.EncodeThenDisplaySendsTheImage
  intro s img idle hp hl hb ready wf hw hh
  have encoded := exec_encode idle wf
  rw [encodeImage_direct hw hh] at encoded
  have length := length_outPlane s.cfg.threshold s.w s.h img.pix (directIndex s.w)
  obtain ⟨_, displayed, -⟩ := displayCompletes (s.answer (.encoded false _)) _ idle hp hl hb ready length
  refine ⟨_, _, _, encoded, rfl, displayed, List.append_assoc _ _ _, rfl, fun x y v hx hy sample => ?_⟩
  have pixel := pixelBit_outPlane_of_sample (threshold := s.cfg.threshold) (index := directIndex s.w) hx hy sample
  refine ⟨pixel, ?_⟩
  rw [pixelBit_complement, pixel]
  simp only [Option.map_some, ← decide_not, Nat.not_lt]

end Sys2Proof.Machine

/-! The default parameters (R157, R172) and the symbols of the frames (R145, R170). -/

namespace Sys2Proof

section
variable (p : Params) (w h : Nat)

theorem initSeqWf_defaultInitFull : initSeqWf p .full w h (defaultInitFull w h p.btstFull) = true := by
  simp [initSeqWf, defaultInitFull, setting, boosterPayload, resolutionPayload, payloadsOk, leadingData, settingPayload,
    powerOnThenBusy, Step.isSetting, Opcode.isSetting, Params.btst]

theorem initSeqWf_defaultInitFast : initSeqWf p .fast w h (defaultInitFast p.btstFast p.cre0Fast p.cre5Fast) = true := by
  simp [initSeqWf, defaultInitFast, setting, boosterPayload, payloadsOk, leadingData, settingPayload, powerOnThenBusy,
    Step.isSetting, Opcode.isSetting, Params.btst]

theorem initSeqWf_defaultInitPart : initSeqWf p .part w h (defaultInitPart p.btstPart p.cre0Part p.cre5Part) = true := by
  simp [initSeqWf, defaultInitPart, setting, boosterPayload, payloadsOk, leadingData, settingPayload, powerOnThenBusy,
    Step.isSetting, Opcode.isSetting, Params.btst]

end

/-- Settles O49: each sequence by its own lemma; no poll limit, and the fill bytes are complements. -/
theorem defaultSequencesSatisfyTheConstraints : Obligations.DefaultSequencesSatisfyTheConstraints := by
  unfold Obligations.DefaultSequencesSatisfyTheConstraints
  intro w h full fast part e0f e5f e0p e5p p b d
  have fill : (Config.clearOldFill == ~~~Config.clearNewFill) = true := by decide
  simp only [Params.wf, Bool.and_eq_true]
  exact ⟨⟨⟨⟨initSeqWf_defaultInitFull _ w h, initSeqWf_defaultInitFast _ w h⟩, initSeqWf_defaultInitPart _ w h⟩, rfl⟩, fill⟩

end Sys2Proof

namespace Sys2Proof.Machine

/-! ### Symbols -/

@[simp] theorem symbolsFrom_commandFrame (dc : Latch) (b : Byte) (rest : List Event) :
    symbolsFrom dc (commandFrame b ++ rest) = (.driven .low, b) :: symbolsFrom (.driven .low) rest := by
  simp [commandFrame, symbolsFrom, symbolsOf, dcAfter]

@[simp] theorem symbolsFrom_dataFrame (dc : Latch) (bytes : List Byte) (rest : List Event) :
    symbolsFrom dc (dataFrame bytes ++ rest)
      = bytes.map (fun c => (.driven .high, c)) ++ symbolsFrom (.driven .high) rest := by
  simp [dataFrame, symbolsFrom, symbolsOf, dcAfter]

@[simp] theorem symbolsFrom_delayed (dc : Latch) (ms : Nat) (rest : List Event) :
    symbolsFrom dc (.delayed ms :: rest) = symbolsFrom dc rest := rfl

/-- A ready busy-wait gives the one symbol of its query (R170). -/
@[simp] theorem symbolsFrom_readyWait (dc : Latch) : symbolsFrom dc readyWait = [(.driven .low, 0x71)] := rfl

/-- Settles O52: the two frame lemmas. -/
theorem framesGiveTheirSymbols : Obligations.FramesGiveTheirSymbols := by
  unfold Obligations.FramesGiveTheirSymbols
  exact fun dc b bytes rest => ⟨symbolsFrom_commandFrame dc b rest, symbolsFrom_dataFrame dc bytes rest⟩

/-- Settles O51: frame by frame, one symbol for each command and each data byte. -/
theorem symbolCountsOfTheOperations : Obligations.SymbolCountsOfTheOperations := by
  unfold Obligations.SymbolCountsOfTheOperations
  intro dc buf sub q n oldFill newFill
  refine ⟨?_, ?_, ?_, rfl⟩
  · simp [displayEvents, complement]
    omega
  · simp [clearEvents]
    omega
  -- `delta`, as the equation lemma of this long append is slow to make.
  · delta displayPartialEvents
    simp
    omega

end Sys2Proof.Machine
